-- ==== Sys2Proof/Word.lean ====
section
/-! DEFINITION. The words and items of the ports: header words, binary64 words, bits and symbols
(`20_memory.md` R41, `00_scope.md` R6 to R9). -/

namespace Sys2Proof

/-- A 32-bit command header word or response status word (R51, R63). -/
abbrev Word32 := BitVec 32

/-- An IEEE 754 binary64 value as its interchange bit pattern: bit 63 the sign, bits 62..52 the biased
exponent, bits 51..0 the trailing significand (R8, R56). -/
abbrev F64 := BitVec 64

/-- One bit slot: `true` is 1 and `false` is 0 (R41). -/
abbrev Bit := Bool

/-- A symbol: real part, then imaginary part (R9, R42). -/
structure Sym where
  re : F64
  im : F64
  deriving DecidableEq, Repr

end Sys2Proof
end

