-- ==== Sys2Proof/Syntax.lean ====
section
/-! DEFINITION. The command packet as it stands on the `CMD` port, and the six commands it can decode
to (`30_encoding.md` R50 to R57). -/

namespace Sys2Proof

/-- A payload item: a bit slot or a symbol slot (R50). -/
inductive Item where
  | bit (b : Bit)
  | sym (s : Sym)
  deriving DecidableEq, Repr

/-- A command packet at the transaction level: header word, operand words, payload items (R50). -/
structure Cmd where
  hdr : Word32
  ops : List F64
  pay : List Item
  deriving DecidableEq, Repr

/-- Why a packet does not decode. The block reports all of them with the one code `ILLEGAL_COMMAND`
(R59 to R61, R64). -/
inductive DecodeError where
  /-- `OPC` is `0x00` or `0x07` to `0xFF` (R59). -/
  | reservedOpcode
  /-- A `CHCFG` header with one of bits 31..9 set (R60). -/
  | reservedHeaderBit
  /-- The number of operand words is not `nops` (R61). -/
  | operandCount
  /-- A configuration command with a payload (R61). -/
  | configurationPayload
  /-- A payload item of the wrong kind (R61). -/
  | payloadKind
  deriving DecidableEq, Repr

/-- The six commands (R52), one constructor for each row of the opcode table. -/
inductive Instr where
  /-- `MODCFG M, PHASE` (R85). -/
  | modcfg (order : Nat) (phase : F64)
  /-- `MODULATE N : bits` (R86). -/
  | modulate (count : Nat) (bits : List Bit)
  /-- `CHCFG SNR [, SP]`: `sp = none` is `P = 0` (R54, R102). -/
  | chcfg (snr : F64) (sp : Option F64)
  /-- `AWGN N : symbols` (R106). -/
  | awgn (count : Nat) (syms : List Sym)
  /-- `DMCFG M, PHASE` (R120). -/
  | dmcfg (order : Nat) (phase : F64)
  /-- `DEMODULATE N : symbols` (R123). -/
  | demodulate (count : Nat) (syms : List Sym)
  deriving DecidableEq, Repr

end Sys2Proof
end

