-- ==== Sys2Proof/WellFormed.lean ====
section
/-! DEFINITION. Which terms of `Instr` are commands: `ARG` is a 24-bit field (`30_encoding.md` R51,
R53, R55). Whether an order is legal, and whether a payload has the declared count, is checked by the
command itself and is no matter of form (R53, R55). -/

namespace Sys2Proof

/-- A value the 24-bit field `ARG` can hold (R51). -/
def fitsArg (n : Nat) : Bool := decide (n < 2 ^ 24)

/-- The command has an encoding (R51 to R55). -/
def Instr.wf : Instr → Bool
  | .modcfg order _ => fitsArg order
  | .modulate count _ => fitsArg count
  | .chcfg _ _ => true
  | .awgn count _ => fitsArg count
  | .dmcfg order _ => fitsArg order
  | .demodulate count _ => fitsArg count

end Sys2Proof
end

