-- ==== Sys2Proof/Decode.lean ====
section
/-! DEFINITION. Decoding a command packet, total on any packet and rejecting by name, and the encoder
(`30_encoding.md` R51 to R64). -/

namespace Sys2Proof

/-- `OPC = hdr[7:0]` (R51). -/
def opcode (h : Word32) : Nat := (h.extractLsb' 0 8).toNat

/-- `ARG = hdr[31:8]` (R51). -/
def argument (h : Word32) : Nat := (h.extractLsb' 8 24).toNat

/-- `P = hdr[8]` of `CHCFG` (R54). -/
def powerPresent (h : Word32) : Bool := h.getLsbD 8

/-- `hdr[31:9]` of `CHCFG`, reserved (R54). -/
def reservedBits (h : Word32) : Nat := (h.extractLsb' 9 23).toNat

/-- A symbol slot as one 128-bit value: `re` is bits 127..64 and `im` bits 63..0 (`20_memory.md` R42). -/
def symbolSlot (a : Sym) : BitVec 128 := a.re ++ a.im

/-- The symbol a 128-bit slot carries (R42). -/
def slotSymbol (v : BitVec 128) : Sym := ⟨v.extractLsb' 64 64, v.extractLsb' 0 64⟩

/-- The bits of a payload of bit items; `none` when some item is not one (R61). -/
def payloadBits : List Item → Option (List Bit)
  | [] => some []
  | .bit b :: rest => (payloadBits rest).map (b :: ·)
  | .sym _ :: _ => none

/-- The symbols of a payload of symbol items; `none` when some item is not one (R61). -/
def payloadSyms : List Item → Option (List Sym)
  | [] => some []
  | .sym a :: rest => (payloadSyms rest).map (a :: ·)
  | .bit _ :: _ => none

/-- `MODCFG` and `DMCFG`: one operand word and no payload (R56, R61). -/
def decodePsk (mk : Nat → F64 → Instr) (c : Cmd) : Except DecodeError Instr :=
  match c.ops with
  | [phase] => if c.pay.isEmpty then .ok (mk (argument c.hdr) phase) else .error .configurationPayload
  | _ => .error .operandCount

/-- `CHCFG`: the reserved bits first, then `1 + P` operand words and no payload (R54, R60, R61). -/
def decodeChannel (c : Cmd) : Except DecodeError Instr :=
  if reservedBits c.hdr ≠ 0 then .error .reservedHeaderBit
  else
    match powerPresent c.hdr, c.ops with
    | false, [snr] => if c.pay.isEmpty then .ok (.chcfg snr none) else .error .configurationPayload
    | true, [snr, sp] => if c.pay.isEmpty then .ok (.chcfg snr (some sp)) else .error .configurationPayload
    | _, _ => .error .operandCount

/-- `MODULATE`: no operand word, a payload of bit items (R56, R57, R61). -/
def decodeBitCommand (mk : Nat → List Bit → Instr) (c : Cmd) : Except DecodeError Instr :=
  if c.ops.isEmpty then
    match payloadBits c.pay with
    | some bits => .ok (mk (argument c.hdr) bits)
    | none => .error .payloadKind
  else .error .operandCount

/-- `AWGN` and `DEMODULATE`: no operand word, a payload of symbol items (R56, R57, R61). -/
def decodeSymCommand (mk : Nat → List Sym → Instr) (c : Cmd) : Except DecodeError Instr :=
  if c.ops.isEmpty then
    match payloadSyms c.pay with
    | some syms => .ok (mk (argument c.hdr) syms)
    | none => .error .payloadKind
  else .error .operandCount

/-- The decoder (R64): every packet decodes to one of the six commands or is rejected. -/
def decode (c : Cmd) : Except DecodeError Instr :=
  match opcode c.hdr with
  | 0x01 => decodePsk .modcfg c
  | 0x02 => decodeBitCommand .modulate c
  | 0x03 => decodeChannel c
  | 0x04 => decodeSymCommand .awgn c
  | 0x05 => decodePsk .dmcfg c
  | 0x06 => decodeSymCommand .demodulate c
  | _ => .error .reservedOpcode

/-- A header word from its 24-bit argument and its opcode (R51). -/
def header (arg : Nat) (opc : BitVec 8) : Word32 := BitVec.ofNat 24 arg ++ opc

/-- The packet of a command (R51 to R57). -/
def encode : Instr → Cmd
  | .modcfg order phase => { hdr := header order 0x01, ops := [phase], pay := [] }
  | .modulate count bits => { hdr := header count 0x02, ops := [], pay := bits.map .bit }
  | .chcfg snr none => { hdr := header 0 0x03, ops := [snr], pay := [] }
  | .chcfg snr (some sp) => { hdr := header 1 0x03, ops := [snr, sp], pay := [] }
  | .awgn count syms => { hdr := header count 0x04, ops := [], pay := syms.map .sym }
  | .dmcfg order phase => { hdr := header order 0x05, ops := [phase], pay := [] }
  | .demodulate count syms => { hdr := header count 0x06, ops := [], pay := syms.map .sym }

/-- `nops`, the number of operand words the header fixes (R56); 0 for a reserved opcode. -/
def operandWords (h : Word32) : Nat :=
  match opcode h with
  | 0x01 => 1
  | 0x03 => if powerPresent h then 2 else 1
  | 0x05 => 1
  | _ => 0

/-- The packet whose bits, header first and then the operand words, are the `nbits` bits of `w`, every
bit above them 0. The payload is empty: its length is the packet's own and no field of the header
decides it (R50; log entry 7). -/
def tablePacket (nbits w : Nat) : Cmd :=
  let bits := w % 2 ^ nbits
  let hdr := BitVec.ofNat 32 bits
  { hdr := hdr
    ops := (List.range (operandWords hdr)).map fun i => BitVec.ofNat 64 (bits / 2 ^ (32 + 64 * i))
    pay := [] }

/-- The instruction the decoder reads from an instruction word numbered as the opcode table numbers
it. -/
def decodeTableWord (nbits w : Nat) : Option Instr :=
  match decode (tablePacket nbits w) with
  | .ok i => some i
  | .error _ => none

end Sys2Proof
end

