-- ==== Sys2Proof/Config.lean ====
section
/-! DEFINITION. The implementation parameters of `00_scope.md` R5. The free values of the model are the
source's answers, and they stand in the state (log entry 3). -/

namespace Sys2Proof

/-- The byte order of a host that serialises the interface's words; no rule of the block reads it
(R5, R42). -/
inductive ByteOrder where
  | little
  | big
  deriving DecidableEq, Repr

/-- The parameter `LABEL` (R5, R82): the default binary-reflected Gray code (R83), or an explicit
table whose row `k - 1` lists the labels of the points `0 .. 2^k - 1`. -/
inductive Labelling where
  | gray
  | table (rows : List (List Nat))
  deriving DecidableEq, Repr

/-- The parameters fixed when the block is built (R5). They stand in the state so that a statement
over all states holds for every value of them; no step writes them (log entry 1). -/
structure Params where
  /-- `KMAX`, an integer from 2 to 23. -/
  kmax : Nat
  /-- `LABEL`. -/
  label : Labelling
  /-- `HOST_BYTE_ORDER`. -/
  hostByteOrder : ByteOrder
  deriving DecidableEq, Repr

end Sys2Proof
end

