-- ==== Sys2Proof/Machine/State.lean ====
section
/-! DEFINITION. The state of the block, of its ports and of the Gaussian source's pending answers
(`10_state.md` R21, R27; `20_memory.md` R41), the reasons a step can stop, and the state after
reset. -/

namespace Sys2Proof.Machine

/-- The status codes of R140. -/
inductive Status where
  | ok
  | invalidConfiguration
  | invalidInput
  | randomSource
  | notConfigured
  | illegalCommand
  deriving DecidableEq, Repr

/-- A response packet: its status, then its output items (R63). -/
structure Rsp where
  status : Status
  out : List Item
  deriving DecidableEq, Repr

/-- The configuration register of MOD or of DEMOD: order, phase and constellation table, point `j` at
index `j` (R21 to R23; CR1 to CR3, CR5 to CR7). -/
structure PskCfg where
  order : Nat
  phase : F64
  pts : List Sym
  deriving DecidableEq, Repr

/-- The configuration register of CHAN (R21, R25; CR9, CR10). -/
structure ChCfg where
  snr : F64
  sp : F64
  deriving DecidableEq, Repr

/-- One answer of the Gaussian source to a `Draw()` (R41, R151). -/
inductive Answer where
  /-- `some z`. -/
  | value (z : F64)
  /-- The token `UNAVAILABLE`. -/
  | unavailable
  deriving DecidableEq, Repr

/-- An `AWGN` in flight whose next `Draw()` the source has not answered (R167; log entry 3): the channel
it runs with, its input symbols, and the draws it holds. -/
structure Wait where
  cfg : ChCfg
  syms : List Sym
  zs : List F64
  deriving DecidableEq, Repr

/-- What the host does at the `CMD` and `RST` ports (R41, R168). DESIGN CHOICE: the events of the two ports
stand in one list, in the order the block takes them, and not in the order they reach their ports (log
entry 15). -/
inductive Input where
  /-- A command packet. -/
  | cmd (c : Cmd)
  /-- `RST`, between commands or while an `AWGN` waits for a draw. A packet that had not fully arrived
  is discarded with it (R160, R161). -/
  | rst
  /-- `RST` while `c` executes, when the source has answered `answered` of the draws `c` issues
  (R161; log entry 3). -/
  | rstDuring (c : Cmd) (answered : Nat)
  deriving DecidableEq, Repr

/-- Where the run in progress started: the responses and the draws that came before its reset, and whether
the last command sent before it has no response, which that reset took, or an earlier one with no response
emitted since (R161, R169; log entry 14). -/
structure RunMark where
  rspBefore : Nat
  drawnBefore : Nat
  cut : Bool
  deriving DecidableEq, Repr

/-- No step of this machine faults: every error is the status of a response (R147). -/
inductive Fault where
  deriving DecidableEq, Repr

/-- Why an instruction has no meaning. -/
inductive Refusal where
  /-- Raised by `exec` only, for an instruction without a meaning; no arm raises it. Safe. -/
  | notModelled (mnemonic : String)
  deriving DecidableEq, Repr

/-- The state. `mod`, `dm` and `ch` are the architectural state of the block (R21); the rest is the
block's parameters, an `AWGN` in flight, and what stands at the ports. -/
structure State where
  /-- The implementation parameters (R5). -/
  params : Params
  /-- `S.mod`; `none` is CR0 clear (R21, R26). -/
  mod : Option PskCfg
  /-- `S.dm`; `none` is CR4 clear (R21, R26). -/
  dm : Option PskCfg
  /-- `S.ch`; `none` is CR8 clear (R21, R26). -/
  ch : Option ChCfg
  /-- An `AWGN` that waits for a draw (R167). -/
  wait : Option Wait
  /-- The host's events still to come, next one first (R45, R168). -/
  input : List Input
  /-- The source's answers still to come, next one first. When none is left, a draw is not answered
  (R151, R167). -/
  gauss : List Answer
  /-- How many draws were consumed, in this run and those before it (R169). -/
  drawn : Nat
  /-- The responses emitted so far, oldest first, in this run and those before it (R45, R169). -/
  rsp : List Rsp
  /-- Where the run in progress started (R169). -/
  run : RunMark
  deriving DecidableEq, Repr

/-- The parameters the state after reset names (log entry 1). -/
def Params.atReset : Params := { kmax := 23, label := .gray, hostByteOrder := .little }

/-- The machine right after reset: every unit unconfigured (R32), nothing in flight, and nothing yet at
any port (log entry 2). -/
def State.reset : State :=
  { params := Params.atReset, mod := none, dm := none, ch := none, wait := none, input := [], gauss := [],
    drawn := 0, rsp := [], run := ⟨0, 0, false⟩ }

end Sys2Proof.Machine
end

