-- ==== Sys2Proof/Machine/Flags.lean ====
section
/-! DEFINITION. The block has no condition flags (`10_state.md` R30). Its only Booleans are the three
valid bits, and what a command reports is the status word of its own response (R26, R63, R140). -/

namespace Sys2Proof.Machine

/-- CR0, `MOD_V` (R27). -/
def State.modValid (s : State) : Bool := s.mod.isSome

/-- CR4, `DM_V` (R27). -/
def State.dmValid (s : State) : Bool := s.dm.isSome

/-- CR8, `CH_V` (R27). -/
def State.chValid (s : State) : Bool := s.ch.isSome

/-- The status code (R140). -/
def statusCode : Status → BitVec 8
  | .ok => 0x00
  | .invalidConfiguration => 0x01
  | .invalidInput => 0x02
  | .randomSource => 0x03
  | .notConfigured => 0x04
  | .illegalCommand => 0x05

/-- The status word on `RSP`: the code in bits 7..0, zeros in bits 31..8 (R63). -/
def statusWord (e : Status) : Word32 := (0 : BitVec 24) ++ statusCode e

end Sys2Proof.Machine
end

