-- ==== Sys2Proof/Machine/Binary64.lean ====
section
/-! DEFINITION. Binary64 values: classes, exact values, and rounding of exact reals to nearest, ties to
even (`00_scope.md` R8). Exact values are integers in units of `2^-1074`, the least positive binary64
value; a rounding reads its exact real in units of `2^-1075`, in which every binary64 value and every
midpoint between two of them is an integer. -/

namespace Sys2Proof.Machine

/-- `2^n` as an integer, by the power of naturals. -/
def pow2 (n : Nat) : Int := ((2 ^ n : Nat) : Int)

/-- Bit 63. -/
def signBit (x : F64) : Bool := x.getLsbD 63

/-- Bits 62..52. -/
def exponentField (x : F64) : Nat := (x.extractLsb' 52 11).toNat

/-- Bits 51..0. -/
def fractionField (x : F64) : Nat := (x.extractLsb' 0 52).toNat

/-- `finite(x)`: neither an infinity nor a NaN (R8). -/
def isFinite (x : F64) : Bool := exponentField x != 2047

/-- `+0` or `-0`. -/
def isZero (x : F64) : Bool := exponentField x == 0 && fractionField x == 0

/-- `+inf`. -/
def plusInf : F64 := 0x7FF0000000000000

/-- `1.0`, the default signal power (R102). -/
def oneF64 : F64 := 0x3FF0000000000000

/-- `x > 0`: true of positive finite values and of `+inf`, false of NaN, zeros and negatives (R102). -/
def isPositive (x : F64) : Bool := !signBit x && !isZero x && (isFinite x || x == plusInf)

/-- `|⟦x⟧|` of a finite `x`, in units of `2^-1074`. -/
def magnitude (x : F64) : Nat :=
  if exponentField x = 0 then fractionField x
  else (2 ^ 52 + fractionField x) * 2 ^ (exponentField x - 1)

/-- `⟦x⟧` of a finite `x`, in units of `2^-1074` (R8). -/
def exactValue (x : F64) : Int := if signBit x then -(magnitude x : Int) else magnitude x

/-- The floor of `log2 n` for `1 ≤ n < 2^(2^levels)`, one bit of the result for each level. -/
def halvingLog2 (n : Nat) : (levels : Nat) → Nat
  | 0 => 0
  | k + 1 => if 2 ^ 2 ^ k ≤ n then 2 ^ k + halvingLog2 (n / 2 ^ 2 ^ k) k else halvingLog2 n k

/-- The floor of `log2 n`, in few operations for the numbers that arise here. -/
def floorLog2 (n : Nat) : Nat := if n < 2 ^ 2 ^ 13 then halvingLog2 n 13 else n.log2

/-- How many low bits of `q`, in units of `2^-1075`, a 53-bit significand drops: at least the one below
the least positive value. -/
def droppedBits (q : Nat) : Nat := floorLog2 q - 53 + 1

/-- Whether the significand kept of `q` after dropping `d` bits is rounded up: the dropped part is above
a half, or is a half and something lies below it or the kept significand is odd. -/
def roundsUp (q d : Nat) (inexact : Bool) : Bool :=
  decide (2 ^ (d - 1) < q % 2 ^ d) ||
    (decide (q % 2 ^ d = 2 ^ (d - 1)) && (inexact || q / 2 ^ d % 2 == 1))

/-- The bits below the sign of `RN(t)` for the real `t ≥ 0` whose floor in units of `2^-1075` is `q`;
`inexact` says that `t` lies above that floor. A significand that rounds up to `2^53` carries into the
exponent, and the largest exponent into the infinity (R8). -/
def roundMagnitude (q : Nat) (inexact : Bool) : Nat :=
  let d := droppedBits q
  min 0x7FF0000000000000 ((d - 1) * 2 ^ 52 + q / 2 ^ d + (roundsUp q d inexact).toNat)

/-- The value with the given sign and the given bits below it. -/
def withSign (negative : Bool) (bits : Nat) : F64 :=
  BitVec.ofNat 64 (if negative then 2 ^ 63 + bits else bits)

/-- `RN(t)` for the real `t` whose floor in units of `2^-1075` is `n`; `inexact` says that `t` lies above
that floor. An exact 0 gives `+0`; a negative `t` keeps its sign when it rounds to zero (R8; log
entry 5). -/
def roundFloor (n : Int) (inexact : Bool) : F64 :=
  match n with
  | .ofNat q => withSign false (roundMagnitude q inexact)
  | .negSucc q => withSign true (if inexact then roundMagnitude q true else roundMagnitude (q + 1) false)

/-- `RN(num / den)` for `den > 0` (R8). -/
def roundRatio (num : Int) (den : Nat) : F64 :=
  roundFloor (num * pow2 1075 / den) (num * pow2 1075 % den != 0)

/-- The floor of the square root, by Newton's iteration from above. Each round at least halves the
excess of the guess over the root, so a round for each bit of the first guess suffices. -/
def newtonSqrt (n : Nat) : (fuel guess : Nat) → Nat
  | 0, guess => guess
  | fuel + 1, guess =>
    let next := (guess + n / guess) / 2
    if next < guess then newtonSqrt n fuel next else guess

/-- The floor of the square root of `n`. -/
def floorSqrt (n : Nat) : Nat := newtonSqrt n (floorLog2 n / 2 + 2) (2 ^ (floorLog2 n / 2 + 1))

end Sys2Proof.Machine
end

