-- ==== Sys2Proof/Machine/Operands.lean ====
section
/-! DEFINITION. The operand and payload checks the commands share (`60_exceptions.md` R141, R142). -/

namespace Sys2Proof.Machine

/-- A power of two. -/
def isPowerOfTwo (n : Nat) : Bool := 2 ^ n.log2 == n

/-- `M` is a power of two with `2 <= M <= 2^KMAX` (R22, R85). -/
def legalOrder (p : Params) (order : Nat) : Bool :=
  isPowerOfTwo order && decide (2 ≤ order) && decide (order ≤ 2 ^ p.kmax)

/-- The value checks of `MODCFG` and `DMCFG`: the order, then the phase (R85, R120). -/
def legalPsk (p : Params) (order : Nat) (phase : F64) : Bool := legalOrder p order && isFinite phase

/-- The value checks of `CHCFG`: the SNR, then the signal power (R102). -/
def legalChannel (snr sp : F64) : Bool := isPositive snr && (isFinite sp && isPositive sp)

/-- `SP`, 1.0 when the operand is absent (R54, R102). -/
def powerOperand (sp : Option F64) : F64 := sp.getD oneF64

/-- A symbol is finite when both parts are (R9). -/
def finiteSym (s : Sym) : Bool := isFinite s.re && isFinite s.im

/-- Every component of a symbol payload is finite (R142). -/
def finitePayload (syms : List Sym) : Bool := syms.all finiteSym

end Sys2Proof.Machine
end

