-- ==== Sys2Proof/Machine/Ops.lean ====
section
/-! DEFINITION. The operations the commands share: responding, raising, drawing, resetting
(`00_scope.md` R10; `60_exceptions.md` R147, R151; `70_reset_and_hazards.md` R160). -/

namespace Sys2Proof.Machine

/-- `respond(status, out)`: emit the one response of a command (R10, R63). -/
def State.respond (s : State) (status : Status) (out : List Item) : State :=
  { s with rsp := s.rsp ++ [⟨status, out⟩] }

/-- `raise E`: the response carries `E` and nothing else; no register is written, nothing is saved and
nothing is redirected (R147). There is no return from an error: the next command runs normally
(R148). -/
def State.raise (s : State) (e : Status) : State := s.respond e []

/-- How a sequence of draws ends. -/
inductive DrawEnd where
  /-- Every draw was answered with a finite value. -/
  | complete
  /-- A draw was answered `UNAVAILABLE` or with a value that is not finite (R143). -/
  | failed
  /-- A draw is not answered (R167). -/
  | unanswered
  deriving DecidableEq, Repr

/-- What a sequence of draws leaves: how it ended, the values it gave, the answers not consumed, and
how many were consumed. -/
structure DrawRun where
  ended : DrawEnd
  zs : List F64
  rest : List Answer
  used : Nat
  deriving DecidableEq, Repr

/-- `n` calls of `Draw()` in issue order, up to the first that fails or is not answered
(R104, R106). -/
def takeDraws : (n : Nat) → List Answer → DrawRun
  | 0, answers => ⟨.complete, [], answers, 0⟩
  | _ + 1, [] => ⟨.unanswered, [], [], 0⟩
  | _ + 1, .unavailable :: rest => ⟨.failed, [], rest, 1⟩
  | n + 1, .value z :: rest =>
    if isFinite z then
      let run := takeDraws n rest
      ⟨run.ended, z :: run.zs, run.rest, run.used + 1⟩
    else ⟨.failed, [], rest, 1⟩

/-- Take what a sequence of draws consumed from the source (R104, R147). -/
def State.consume (s : State) (run : DrawRun) : State :=
  { s with gauss := run.rest, drawn := s.drawn + run.used }

/-- The last command the host sent has no response: it waits for a draw, or a reset took its response and
none has been emitted since (R167, R169). -/
def State.lastUnanswered (s : State) : Bool :=
  s.wait.isSome || (s.run.cut && s.rsp.length == s.run.rspBefore)

/-- Reset: every unit unconfigured, nothing in flight, no response, and a new run starts. The source, what it
has yet to answer and the host's next events are not touched (R160 to R162, R169). -/
def State.startRun (s : State) (cut : Bool) : State :=
  { s with mod := none, dm := none, ch := none, wait := none, run := ⟨s.rsp.length, s.drawn, cut⟩ }

/-- Reset between commands, or while an `AWGN` waits for a draw (R160, R161). DESIGN CHOICE: when an earlier
reset took a response and none has been emitted since, this one carries that mark over, so a run of no command
that it starts has not ended (R169 does not say; log entry 14). -/
def State.resetBlock (s : State) : State := s.startRun s.lastUnanswered

end Sys2Proof.Machine
end

