-- ==== Sys2Proof/Machine/Channel.lean ====
section
/-! DEFINITION. The AWGN channel: `CHCFG` and `AWGN` (`42_channel.md` R100 to R106). -/

namespace Sys2Proof.Machine

/-- The floor of `|σ·⟦z⟧|` in units of `2^-1075` for a finite SNR, and whether it lies above that floor.
Its square is `2·⟦z⟧²·⟦sp⟧/⟦snr⟧`, all in units of `2^-1074` (R101, R105). -/
def noiseMagnitude (cfg : ChCfg) (z : F64) : Nat × Bool :=
  let num := 2 * magnitude z ^ 2 * magnitude cfg.sp
  let den := magnitude cfg.snr
  let root := floorSqrt (num / den)
  (root, root ^ 2 * den != num)

/-- `noisy(s, z)`: the component itself when `σ·⟦z⟧ = 0`, else `RN(⟦s⟧ + σ·⟦z⟧)` with an exact `σ` and
one rounding (R105; `93_implementation_defined.md` I28). -/
def noisy (cfg : ChCfg) (s z : F64) : F64 :=
  if cfg.snr = plusInf ∨ isZero z then s
  else
    let noise := noiseMagnitude cfg z
    if signBit z then roundFloor (2 * exactValue s - noise.1 - noise.2.toNat) noise.2
    else roundFloor (2 * exactValue s + noise.1) noise.2

/-- The noisy symbols: draws `2i` and `2i + 1` are the real and the imaginary noise of symbol `i`
(R104, R106). -/
def addNoise (cfg : ChCfg) : List Sym → List F64 → List Sym
  | s :: syms, zre :: zim :: zs => ⟨noisy cfg s.re zre, noisy cfg s.im zim⟩ :: addNoise cfg syms zs
  | _, _ => []

/-- Issue the draws an `AWGN` in flight still lacks, and end it when they are answered: `OK` with the
noisy symbols, `RANDOM_SOURCE`, or waiting on for a draw not answered (R104, R106, R167). -/
def State.runAwgn (s : State) (w : Wait) : State :=
  let run := takeDraws (2 * w.syms.length - w.zs.length) s.gauss
  let s' := s.consume run
  match run.ended with
  | .complete => s'.respond .ok ((addNoise w.cfg w.syms (w.zs ++ run.zs)).map .sym)
  | .failed => s'.raise .randomSource
  | .unanswered => { s' with wait := some { w with zs := w.zs ++ run.zs } }

/-- `CHCFG` (R102). -/
def execChcfg (snr : F64) (sp : Option F64) (s : State) : Host.Outcome State Fault Refusal :=
  if legalChannel snr (powerOperand sp) then
    .next (State.respond { s with ch := some ⟨snr, powerOperand sp⟩ } .ok [])
  else .next (s.raise .invalidConfiguration)

/-- `AWGN` (R106). No draw is issued unless every check passed (R146). -/
def execAwgn (count : Nat) (syms : List Sym) (s : State) : Host.Outcome State Fault Refusal :=
  match s.ch with
  | none => .next (s.raise .notConfigured)
  | some cfg =>
    if syms.length = count ∧ finitePayload syms then .next (s.runAwgn ⟨cfg, syms, []⟩)
    else .next (s.raise .invalidInput)

end Sys2Proof.Machine
end

