-- ==== Sys2Proof/Machine/Constellation.lean ====
section
/-! DEFINITION. The constellation table (`41_modulator.md` R80): `RN(cos θ)` and `RN(sin θ)` for
`θ = ⟦PHASE⟧ + 2π·j/M`, by enclosures that are sound at every precision and are refined until both
ends round to one binary64 value (`93_implementation_defined.md` I27). The refinement has no bound: it ends
for every legal input (`Laws/Refinement.lean`; log entry 4). -/

namespace Sys2Proof.Machine

/-- The first `terms` terms of `2^p · arctan(1/x)`, each rounded down. -/
def arctanSum (x p : Nat) : (terms : Nat) → Int
  | 0 => 0
  | n + 1 =>
    let term : Int := (2 ^ p / ((2 * n + 1) * x ^ (2 * n + 1)) : Nat)
    arctanSum x p n + (if n % 2 = 0 then term else -term)

/-- An integer enclosure `[lo, hi]` of `2^p · π`, by Machin's formula
`π = 16·arctan(1/5) - 4·arctan(1/239)`: a sum of `n` terms is off by less than `n + 1`. -/
def piEnclosure (p : Nat) : Int × Int :=
  let n₅ := p / 4 + 1
  let n₂₃₉ := p / 15 + 1
  let mid := 16 * arctanSum 5 p n₅ - 4 * arctanSum 239 p n₂₃₉
  let err : Int := 16 * (n₅ + 1) + 4 * (n₂₃₉ + 1)
  (mid - err, mid + err)

/-- The integer nearest to `θ / (π/2)` as far as the lower end `piLo` of an enclosure of `2^p · π` tells,
for `θ = x·2^-1074 + 2π·j/2^k`. Any integer would do for soundness. -/
def quarterTurns (p : Nat) (piLo x : Int) (k j : Nat) : Int :=
  let den := piLo * pow2 (1074 + k)
  (2 * (x * pow2 (p + k + 1) + 4 * j * piLo * pow2 1074) + den) / (2 * den)

/-- An enclosure, in units of `2^-w`, of `x·2^-1074 + π·c/2^(k+1)`, from an enclosure of `2^p · π`. -/
def residualEnclosure (w p : Nat) (pi : Int × Int) (x c : Int) (k : Nat) : Int × Int :=
  let lo := x * pow2 (p + k + 1) + c * (if 0 ≤ c then pi.1 else pi.2) * pow2 1074
  let hi := x * pow2 (p + k + 1) + c * (if 0 ≤ c then pi.2 else pi.1) * pow2 1074
  (lo * pow2 w / pow2 (1074 + p + k + 1), -(-hi * pow2 w / pow2 (1074 + p + k + 1)))

/-- `steps` nested terms of the series of `exp(i·y)` at `y = a/2^w`, from the term of index `m` on, as
real part, imaginary part and common denominator:
`1 + (iy/(m+1))·(1 + (iy/(m+2))·(1 + ...))`. -/
def expSeries (a : Int) (w : Nat) : (steps m : Nat) → Int × Int × Nat
  | 0, _ => (0, 0, 1)
  | steps + 1, m =>
    let (re, im, den) := expSeries a w steps (m + 1)
    let den' := 2 ^ w * (m + 1) * den
    ((den' : Int) - a * im, a * re, den')

/-- How many terms the series takes at `p` bits. -/
def seriesTerms (p : Nat) : Nat := p / 6 + 20

/-- Enclosures of `2^w · cos y` and `2^w · sin y` for every `y` with `a ≤ 2^w · y ≤ b`: the series at `a`,
its remainder, and the width `b - a`. -/
def trigEnclosure (w terms : Nat) (a b : Int) : (Int × Int) × (Int × Int) :=
  if a.natAbs ≤ 2 ^ w then
    let (re, im, den) := expSeries a w terms 0
    let err : Int := (2 ^ (w + 1) / terms.factorial : Nat) + 1 + (b - a)
    let c := re * pow2 w / den
    let s := im * pow2 w / den
    ((c - err, c + 1 + err), (s - err, s + 1 + err))
  else ((-pow2 w, pow2 w), (-pow2 w, pow2 w))

/-- The enclosure of the negated value. -/
def negEnclosure (e : Int × Int) : Int × Int := (-e.2, -e.1)

/-- Cosine and sine after `n` further quarter turns. -/
def rotateEnclosure (n : Int) (cs : (Int × Int) × (Int × Int)) : (Int × Int) × (Int × Int) :=
  if n % 4 = 0 then cs
  else if n % 4 = 1 then (negEnclosure cs.2, cs.1)
  else if n % 4 = 2 then (negEnclosure cs.1, negEnclosure cs.2)
  else (cs.2, negEnclosure cs.1)

/-- The fraction bits of an enclosure made at `p` bits. -/
def enclosureBits (p : Nat) : Nat := p + 8

/-- Enclosures of `cos θ` and `sin θ` in units of `2^-(p + 8)`, for `θ = x·2^-1074 + 2π·j/2^k`. A large
`x` is met by that many more bits of `π`, and the errors of many terms by a few more. -/
def pointEnclosure (p : Nat) (x : Int) (k j : Nat) : (Int × Int) × (Int × Int) :=
  let w := enclosureBits p
  let q := w + 24 + floorLog2 w + (floorLog2 x.natAbs - 1074)
  let pi := piEnclosure q
  let n := quarterTurns q pi.1 x k j
  let r := residualEnclosure w q pi x (4 * j - n * pow2 k) k
  rotateEnclosure n (trigEnclosure w (seriesTerms p) r.1 r.2)

/-- The binary64 values that the two ends of an enclosure in units of `2^-w` round to. -/
def roundEnds (w : Nat) (e : Int × Int) : F64 × F64 := (roundRatio e.1 (2 ^ w), roundRatio e.2 (2 ^ w))

/-- The one value both ends round to, for both coordinates; `none` when the precision does not tell. -/
def decidedPoint (p : Nat) (x : Int) (k j : Nat) : Option Sym :=
  let e := pointEnclosure p x k j
  let re := roundEnds (enclosureBits p) e.1
  let im := roundEnds (enclosureBits p) e.2
  if re.1 = re.2 ∧ im.1 = im.2 then some ⟨re.1, im.1⟩ else none

/-- The first precisions of the refinement, in order. -/
def firstPrecisions : List Nat := [128, 384, 1280, 2560]

/-- The refinement from `p` bits on, twice as many each time, until a precision decides (I27). -/
def refinePoint (x : Int) (k j p : Nat) : Option Sym :=
  match decidedPoint p x k j with
  | some s => some s
  | none => refinePoint x k j (2 * p)
partial_fixpoint

/-- The rounded point: the first precisions, then the refinement beyond them. It ends for every point that
is not exact, so the last value is never taken (log entry 4). -/
def refinedPoint (x : Int) (k j : Nat) : Sym :=
  ((firstPrecisions.findSome? fun p => decidedPoint p x k j) <|> refinePoint x k j 5120).getD ⟨0, 0⟩

/-- The points at multiples of a quarter turn, which are exact (R80; I27). -/
def exactPoint (quarter : Nat) : Sym :=
  match quarter % 4 with
  | 0 => ⟨0x3FF0000000000000, 0⟩
  | 1 => ⟨0, 0x3FF0000000000000⟩
  | 2 => ⟨0xBFF0000000000000, 0⟩
  | _ => ⟨0, 0xBFF0000000000000⟩

/-- Point `j` of `constellation(M, PHASE)` for `M = 2^k` (R80). -/
def point (phase : F64) (order k j : Nat) : Sym :=
  if isZero phase ∧ 4 * j % order = 0 then exactPoint (4 * j / order) else refinedPoint (exactValue phase) k j

/-- `constellation(M, PHASE)`, point `j` at index `j` (R80). -/
def constellation (order : Nat) (phase : F64) : List Sym :=
  (List.range order).map (point phase order order.log2)

end Sys2Proof.Machine
end

