-- ==== Sys2Proof/Machine/Labels.lean ====
section
/-! DEFINITION. Bit groups and point labels (`00_scope.md` R7, R10; `41_modulator.md` R81 to R84;
`43_demodulator.md` R122). -/

namespace Sys2Proof.Machine

/-- `k = log2(M)` (R81). -/
def bitsPerSymbol (order : Nat) : Nat := order.log2

/-- `bits_msb(v, k)`: the `k` bits of `v`, most significant first (R10). -/
def bitsMsb (v : Nat) : (k : Nat) → List Bit
  | 0 => []
  | k + 1 => v.testBit k :: bitsMsb v k

/-- `val_msb(c)`: the value of a bit sequence, most significant first (R10). -/
def valMsb (c : List Bit) : Nat := c.foldl (fun v b => 2 * v + b.toNat) 0

/-- `count` chunks of `k` bits each, in original order (R7). -/
def chunks (k : Nat) : (count : Nat) → List Bit → List (List Bit)
  | 0, _ => []
  | count + 1, b => b.take k :: chunks k count (b.drop k)

/-- The binary-reflected Gray code, `j XOR (j >> 1)` (R83). -/
def gray (j : Nat) : Nat := j ^^^ (j >>> 1)

/-- `v XOR (v >> 1) XOR ... XOR (v >> (k-1))` (R83). -/
def grayInverse (v : Nat) : (k : Nat) → Nat
  | 0 => 0
  | k + 1 => grayInverse v k ^^^ (v >>> k)

/-- `LABEL_M(j)` for `M = 2^k` (R82, R83). -/
def labelOf (l : Labelling) (k j : Nat) : Nat :=
  match l with
  | .gray => gray j
  | .table rows => (rows.getD (k - 1) []).getD j 0

/-- `LABEL_M⁻¹(v)` for `M = 2^k` (R82, R83). -/
def indexOf (l : Labelling) (k v : Nat) : Nat :=
  match l with
  | .gray => grayInverse v k
  | .table rows => (rows.getD (k - 1) []).idxOf v

end Sys2Proof.Machine
end

