-- ==== Sys2Proof/Machine/Modulator.lean ====
section
/-! DEFINITION. The PSK modulator: `MODCFG` and `MODULATE` (`41_modulator.md` R84 to R86). -/

namespace Sys2Proof.Machine

/-- The register a successful `MODCFG` or `DMCFG` writes (R85, R120). -/
def pskCfg (order : Nat) (phase : F64) : PskCfg :=
  { order := order, phase := phase, pts := constellation order phase }

/-- The point a chunk maps to (R84). -/
def chunkPoint (l : Labelling) (cfg : PskCfg) (chunk : List Bit) : Sym :=
  cfg.pts.getD (indexOf l (bitsPerSymbol cfg.order) (valMsb chunk)) ⟨0, 0⟩

/-- The symbols of a message (R86). -/
def modulateBits (l : Labelling) (cfg : PskCfg) (bits : List Bit) : List Sym :=
  (chunks (bitsPerSymbol cfg.order) (bits.length / bitsPerSymbol cfg.order) bits).map (chunkPoint l cfg)

/-- `MODCFG` (R85). -/
def execModcfg (order : Nat) (phase : F64) (s : State) : Host.Outcome State Fault Refusal :=
  if legalPsk s.params order phase then
    .next (State.respond { s with mod := some (pskCfg order phase) } .ok [])
  else .next (s.raise .invalidConfiguration)

/-- `MODULATE` (R86). -/
def execModulate (count : Nat) (bits : List Bit) (s : State) : Host.Outcome State Fault Refusal :=
  match s.mod with
  | none => .next (s.raise .notConfigured)
  | some cfg =>
    if bits.length = count ∧ count % bitsPerSymbol cfg.order = 0 then
      .next (s.respond .ok ((modulateBits s.params.label cfg bits).map .sym))
    else .next (s.raise .invalidInput)

end Sys2Proof.Machine
end

