-- ==== Sys2Proof/Machine/Demodulator.lean ====
section
/-! DEFINITION. The PSK demodulator: `DMCFG` and `DEMODULATE` (`43_demodulator.md` R120 to R123). -/

namespace Sys2Proof.Machine

/-- The exact squared distance of finite symbols, in units of `2^-2148` (R9). -/
def dist2 (r p : Sym) : Int :=
  (exactValue r.re - exactValue p.re) ^ 2 + (exactValue r.im - exactValue p.im) ^ 2

/-- The least index at the least distance from `r`, given the best index so far, its distance, and the
points from index `next` on. A later point wins only when it is strictly nearer (R121). -/
def nearestFrom (r : Sym) (best : Nat) (bestDist : Int) (next : Nat) : List Sym → Nat
  | [] => best
  | p :: pts =>
    if dist2 r p < bestDist then nearestFrom r next (dist2 r p) (next + 1) pts
    else nearestFrom r best bestDist (next + 1) pts

/-- `decide(pts, r)` (R121). -/
def nearestPoint (pts : List Sym) (r : Sym) : Nat :=
  match pts with
  | [] => 0
  | p :: rest => nearestFrom r 0 (dist2 r p) 1 rest

/-- The bits emitted for a received symbol (R122). -/
def symbolBits (l : Labelling) (cfg : PskCfg) (r : Sym) : List Bit :=
  bitsMsb (labelOf l (bitsPerSymbol cfg.order) (nearestPoint cfg.pts r)) (bitsPerSymbol cfg.order)

/-- The recovered bits (R123). -/
def demodulateSyms (l : Labelling) (cfg : PskCfg) (syms : List Sym) : List Bit :=
  syms.flatMap (symbolBits l cfg)

/-- `DMCFG` (R120). -/
def execDmcfg (order : Nat) (phase : F64) (s : State) : Host.Outcome State Fault Refusal :=
  if legalPsk s.params order phase then
    .next (State.respond { s with dm := some (pskCfg order phase) } .ok [])
  else .next (s.raise .invalidConfiguration)

/-- `DEMODULATE` (R123). -/
def execDemodulate (count : Nat) (syms : List Sym) (s : State) : Host.Outcome State Fault Refusal :=
  match s.dm with
  | none => .next (s.raise .notConfigured)
  | some cfg =>
    if syms.length = count ∧ finitePayload syms then
      .next (s.respond .ok ((demodulateSyms s.params.label cfg syms).map .bit))
    else .next (s.raise .invalidInput)

end Sys2Proof.Machine
end

