-- ==== Sys2Proof/Machine/Dispatch.lean ====
section
/-! DEFINITION. One arm for each command (`30_encoding.md` R52, R69). -/

namespace Sys2Proof.Machine

def exec (i : Instr) (s : State) : Host.Outcome State Fault Refusal :=
  match i with
  | .modcfg order phase => Sys2Proof.Machine.execModcfg order phase s
  | .modulate count bits => Sys2Proof.Machine.execModulate count bits s
  | .chcfg snr sp => Sys2Proof.Machine.execChcfg snr sp s
  | .awgn count syms => Sys2Proof.Machine.execAwgn count syms s
  | .dmcfg order phase => Sys2Proof.Machine.execDmcfg order phase s
  | .demodulate count syms => Sys2Proof.Machine.execDemodulate count syms s

end Sys2Proof.Machine
end

