-- ==== Sys2Proof/Machine/Ports.lean ====
section
/-! DEFINITION. Taking the next event from the ports (`20_memory.md` R44, R45; `30_encoding.md` R62, R69;
`70_reset_and_hazards.md` R160, R161, R167). `step` only calls what stands here. -/

namespace Sys2Proof.Machine

/-- Execute one command packet that has arrived: decode it and run it, or raise `ILLEGAL_COMMAND`
(R62, R69). -/
def runPacket (c : Cmd) (s : State) : Host.Outcome State Fault Refusal :=
  match decode c with
  | .ok i => exec i s
  | .error _ => .next (s.raise .illegalCommand)

/-- The draws a command has consumed when the source has answered `answered` of them: none, unless it is
an `AWGN` that passes its input checks (R104, R161). -/
def drawsBefore (c : Cmd) (answered : Nat) (s : State) : DrawRun :=
  match decode c, s.ch with
  | .ok (.awgn count syms), some _ =>
    if syms.length = count ∧ finitePayload syms then takeDraws (min answered (2 * syms.length)) s.gauss
    else ⟨.complete, [], s.gauss, 0⟩
  | _, _ => ⟨.complete, [], s.gauss, 0⟩

/-- Reset while `c` executes: the command is abandoned without a response, and the draws it had issued
stay consumed (R161). -/
def abandon (c : Cmd) (answered : Nat) (s : State) : State :=
  (s.consume (drawsBefore c answered s)).startRun true

/-- The next event when no command is in flight. With no event the block is idle (R155). -/
def stepReady (s : State) : Host.Outcome State Fault Refusal :=
  match s.input with
  | [] => .next s
  | .cmd c :: rest => runPacket c { s with input := rest }
  | .rst :: rest => .next (State.resetBlock { s with input := rest })
  | .rstDuring c answered :: rest => .next (abandon c answered { s with input := rest })

/-- The next event while `w` waits for a draw: a reset abandons it, and else the source is asked again.
The next command starts only after the response (R45, R161, R167). DESIGN CHOICE: only an `RST` that is the next
event reaches the waiting `AWGN`. One that overtakes a packet standing on `CMD` is listed before it, and a
packet that follows an `RST` runs in the new run (log entry 15). -/
def stepWaiting (w : Wait) (s : State) : Host.Outcome State Fault Refusal :=
  match s.input with
  | .rst :: rest => .next (State.resetBlock { s with input := rest })
  | _ => .next (State.runAwgn { s with wait := none } w)

/-- The state whose next event is the command `c`: it arrives first on `CMD`, with no command in
flight. -/
def State.placePacket (s : State) (c : Cmd) : State :=
  { s with input := .cmd c :: s.input, wait := none }

end Sys2Proof.Machine
end

