-- ==== Sys2Proof/Machine/Step.lean ====
section
/-! DEFINITION. One step of the machine, and the word the host places for it to run. -/

namespace Sys2Proof.Machine

/-- One step: the `AWGN` in flight if there is one, else the next event at the ports (R45). -/
def step (s : State) : Host.Outcome State Fault Refusal :=
  match s.wait with
  | some w => stepWaiting w s
  | none => stepReady s

/-- `s` with the packet of the instruction word `w` first on `CMD` (log entry 7). -/
def State.withFetchWord (s : State) (nbits w : Nat) : State := s.placePacket (tablePacket nbits w)

end Sys2Proof.Machine
end

