-- ==== Sys2Proof/Machine/Assembler.lean ====
section
/-! DEFINITION. The textual form of a command and what it assembles to, with the pseudo-command
`LINKCFG` (`30_encoding.md` R65, R66). The block never sees text: this is the host's side of `CMD`. -/

namespace Sys2Proof.Machine

/-- An `<f64>` literal (R65). -/
inductive Literal where
  /-- `0f` and 16 hexadecimal digits: the raw bits. -/
  | raw (bits : F64)
  /-- A decimal literal, `mantissa · 10^exponent` with a sign. -/
  | decimal (negative : Bool) (mantissa : Nat) (exponent : Int)
  /-- `+inf` or `-inf`. -/
  | infinity (negative : Bool)
  /-- `PI/q` or `-PI/q`. -/
  | piOver (negative : Bool) (q : Nat)
  deriving DecidableEq, Repr

/-- One line of text (R65, R66); `count` is the explicit `N=`. -/
inductive AsmLine where
  | modcfg (order : Nat) (phase : Literal)
  | modulate (count : Option Nat) (bits : List Bit)
  | chcfg (snr : Literal) (sp : Option Literal)
  | awgn (count : Option Nat) (syms : List (Literal × Literal))
  | dmcfg (order : Nat) (phase : Literal)
  | demodulate (count : Option Nat) (syms : List (Literal × Literal))
  | linkcfg (order : Nat) (phase : Literal)
  deriving DecidableEq, Repr

/-- The value with its sign bit set (R65, `-PI/q`, `-inf`, a decimal literal with a minus; log
entries 5 and 6). -/
def setSign (negative : Bool) (x : F64) : F64 := if negative then x ||| 0x8000000000000000 else x

/-- The two roundings of `π/q` that an enclosure at `p` bits leaves. -/
def piOverEnds (p q : Nat) : F64 × F64 :=
  let e := piEnclosure p
  (roundRatio e.1 (2 ^ p * q), roundRatio e.2 (2 ^ p * q))

/-- The one value both roundings agree on. -/
def decidedPiOver (p q : Nat) : Option F64 :=
  if (piOverEnds p q).1 = (piOverEnds p q).2 then some (piOverEnds p q).1 else none

/-- The refinement from `p` bits on, twice as many each time, until a precision decides. -/
def refinePiOver (q p : Nat) : Option F64 :=
  match decidedPiOver p q with
  | some x => some x
  | none => refinePiOver q (2 * p)
partial_fixpoint

/-- The first precisions of the refinement of `PI/q`, in order. -/
def firstPiPrecisions : List Nat := [128, 384]

/-- `RN(π/q)`, by enclosures at the first precisions and then by refinement. It ends for every `q > 0`, so the
last value is never taken (R65; log entry 4). -/
def roundedPiOver (q : Nat) : F64 :=
  ((firstPiPrecisions.findSome? fun p => decidedPiOver p q) <|> refinePiOver q 768).getD 0

/-- The binary64 value of a literal; `PI/0` has none (R65). -/
def Literal.value : Literal → Option F64
  | .raw bits => some bits
  | .decimal negative m (.ofNat e) => some (setSign negative (roundRatio (m * 10 ^ e : Nat) 1))
  | .decimal negative m (.negSucc e) => some (setSign negative (roundRatio m (10 ^ (e + 1))))
  | .infinity negative => some (setSign negative plusInf)
  | .piOver negative q => if q = 0 ∨ 2 ^ 24 ≤ q then none else some (setSign negative (roundedPiOver q))

/-- The symbols of a payload of literals. -/
def literalSyms : List (Literal × Literal) → Option (List Sym)
  | [] => some []
  | (re, im) :: rest => do
    let x ← re.value
    let y ← im.value
    let ss ← literalSyms rest
    some (⟨x, y⟩ :: ss)

/-- The packet of a command whose `<uint>` is below `2^24`. -/
def encodeChecked (i : Instr) : Option Cmd := if i.wf then some (encode i) else none

/-- The packets of a line: one for a command, two for `LINKCFG`; `none` when the line is not legal text.
Without `N=` the count is the payload's (R65, R66). -/
def AsmLine.assemble : AsmLine → Option (List Cmd)
  | .modcfg order phase => do
    let x ← phase.value
    let c ← encodeChecked (.modcfg order x)
    some [c]
  | .modulate count bits => do
    let c ← encodeChecked (.modulate (count.getD bits.length) bits)
    some [c]
  | .chcfg snr none => do
    let x ← snr.value
    let c ← encodeChecked (.chcfg x none)
    some [c]
  | .chcfg snr (some sp) => do
    let x ← snr.value
    let y ← sp.value
    let c ← encodeChecked (.chcfg x (some y))
    some [c]
  | .awgn count syms => do
    let ss ← literalSyms syms
    let c ← encodeChecked (.awgn (count.getD ss.length) ss)
    some [c]
  | .dmcfg order phase => do
    let x ← phase.value
    let c ← encodeChecked (.dmcfg order x)
    some [c]
  | .demodulate count syms => do
    let ss ← literalSyms syms
    let c ← encodeChecked (.demodulate (count.getD ss.length) ss)
    some [c]
  | .linkcfg order phase => do
    let x ← phase.value
    let c ← encodeChecked (.modcfg order x)
    let d ← encodeChecked (.dmcfg order x)
    some [c, d]

/-- A token: a word, or one of the marks `, : = ( )`. -/
inductive Token where
  | word (w : List Char)
  | mark (c : Char)
  deriving DecidableEq, Repr

/-- A collected word as a token; no token for an empty one. -/
def flushWord (w : List Char) : List Token := if w.isEmpty then [] else [.word w]

/-- Split text into tokens; `w` is the word read so far. -/
def tokens (w : List Char) : List Char → List Token
  | [] => flushWord w
  | c :: cs =>
    if c == ' ' || c == '\t' then flushWord w ++ tokens [] cs
    else if [',', ':', '=', '(', ')'].contains c then flushWord w ++ .mark c :: tokens [] cs
    else tokens (w ++ [c]) cs

/-- The value of a digit in bases up to 16. -/
def digitValue (c : Char) : Option Nat :=
  let n := c.toNat
  if 48 ≤ n && n ≤ 57 then some (n - 48)
  else if 65 ≤ n && n ≤ 70 then some (n - 55)
  else if 97 ≤ n && n ≤ 102 then some (n - 87)
  else none

/-- The value of digits in a base, after the value `acc` of the digits before them. -/
def digitsFrom (base acc : Nat) : List Char → Option Nat
  | [] => some acc
  | c :: cs =>
    match digitValue c with
    | some d => if d < base then digitsFrom base (base * acc + d) cs else none
    | none => none

/-- A number of at least one digit. -/
def digits (base : Nat) (cs : List Char) : Option Nat :=
  if cs.isEmpty then none else digitsFrom base 0 cs

/-- `<uint>`: decimal, or hexadecimal after `0x` (R65). -/
def parseUint : List Char → Option Nat
  | '0' :: 'x' :: cs => digits 16 cs
  | cs => digits 10 cs

/-- A decimal exponent with an optional sign. -/
def parseExponent : List Char → Option Int
  | '-' :: cs => (digits 10 cs).map fun n : Nat => -(n : Int)
  | '+' :: cs => (digits 10 cs).map fun n : Nat => (n : Int)
  | cs => (digits 10 cs).map fun n : Nat => (n : Int)

/-- The part before the first mark that `stop` accepts, and the part after it when there is one. -/
def splitAtMark (stop : Char → Bool) : List Char → List Char × Option (List Char)
  | [] => ([], none)
  | c :: cs => if stop c then ([], some cs) else ((c :: (splitAtMark stop cs).1), (splitAtMark stop cs).2)

/-- A decimal literal without its sign: digits, an optional fraction, an optional exponent. -/
def parseDecimal (negative : Bool) (cs : List Char) : Option Literal := do
  let (mantissa, exponent) := splitAtMark (fun c => c == 'e' || c == 'E') cs
  let e ← match exponent with
    | none => some 0
    | some ds => parseExponent ds
  let (whole, fraction) := splitAtMark (· == '.') mantissa
  let tail := fraction.getD []
  let m ← digits 10 (whole ++ tail)
  some (.decimal negative m (e - tail.length))

/-- `<f64>` (R65). Which decimal literals there are is the model's choice (log entry 6). -/
def parseLiteral : List Char → Option Literal
  | '0' :: 'f' :: cs =>
    if cs.length = 16 then (digits 16 cs).map fun n => .raw (BitVec.ofNat 64 n) else none
  | ['+', 'i', 'n', 'f'] => some (.infinity false)
  | ['-', 'i', 'n', 'f'] => some (.infinity true)
  | 'P' :: 'I' :: '/' :: cs => (parseUint cs).map (.piOver false)
  | '-' :: 'P' :: 'I' :: '/' :: cs => (parseUint cs).map (.piOver true)
  | '-' :: cs => parseDecimal true cs
  | '+' :: cs => parseDecimal false cs
  | cs => parseDecimal false cs

/-- A payload of bits (R65). -/
def parseBits : List Token → Option (List Bit)
  | [] => some []
  | .word ['0'] :: rest => (parseBits rest).map (false :: ·)
  | .word ['1'] :: rest => (parseBits rest).map (true :: ·)
  | _ => none

/-- A payload of symbols (R65). -/
def parseSyms : List Token → Option (List (Literal × Literal))
  | [] => some []
  | .mark '(' :: .word x :: .mark ',' :: .word y :: .mark ')' :: rest => do
    let re ← parseLiteral x
    let im ← parseLiteral y
    let ss ← parseSyms rest
    some ((re, im) :: ss)
  | _ => none

/-- `[N=<uint>] :` and the payload after it (R65). -/
def parseCounted : List Token → Option (Option Nat × List Token)
  | .mark ':' :: rest => some (none, rest)
  | .word ['N'] :: .mark '=' :: .word n :: .mark ':' :: rest => (parseUint n).map fun k => (some k, rest)
  | _ => none

/-- `M=<uint>, PHASE=<f64>` (R65, R66). -/
def parsePsk : List Token → Option (Nat × Literal)
  | [.word ['M'], .mark '=', .word m, .mark ',', .word ['P', 'H', 'A', 'S', 'E'], .mark '=', .word p] => do
    let order ← parseUint m
    let phase ← parseLiteral p
    some (order, phase)
  | _ => none

/-- `SNR=<f64> [, SP=<f64>]` (R65). -/
def parseChannel : List Token → Option AsmLine
  | [.word ['S', 'N', 'R'], .mark '=', .word x] => (parseLiteral x).map fun snr => .chcfg snr none
  | [.word ['S', 'N', 'R'], .mark '=', .word x, .mark ',', .word ['S', 'P'], .mark '=', .word y] => do
    let snr ← parseLiteral x
    let sp ← parseLiteral y
    some (.chcfg snr (some sp))
  | _ => none

/-- A data command of bits. -/
def parseBitLine (ts : List Token) : Option AsmLine := do
  let (count, payload) ← parseCounted ts
  let bits ← parseBits payload
  some (.modulate count bits)

/-- A data command of symbols. -/
def parseSymLine (mk : Option Nat → List (Literal × Literal) → AsmLine) (ts : List Token) : Option AsmLine := do
  let (count, payload) ← parseCounted ts
  let syms ← parseSyms payload
  some (mk count syms)

/-- One line of text (R65, R66). -/
def parseLine (text : List Char) : Option AsmLine :=
  match tokens [] text with
  | .word ['M', 'O', 'D', 'C', 'F', 'G'] :: ts => (parsePsk ts).map fun a => .modcfg a.1 a.2
  | .word ['M', 'O', 'D', 'U', 'L', 'A', 'T', 'E'] :: ts => parseBitLine ts
  | .word ['C', 'H', 'C', 'F', 'G'] :: ts => parseChannel ts
  | .word ['A', 'W', 'G', 'N'] :: ts => parseSymLine .awgn ts
  | .word ['D', 'M', 'C', 'F', 'G'] :: ts => (parsePsk ts).map fun a => .dmcfg a.1 a.2
  | .word ['D', 'E', 'M', 'O', 'D', 'U', 'L', 'A', 'T', 'E'] :: ts => parseSymLine .demodulate ts
  | .word ['L', 'I', 'N', 'K', 'C', 'F', 'G'] :: ts => (parsePsk ts).map fun a => .linkcfg a.1 a.2
  | _ => none

/-- The packets a line of text stands for (R65, R66). -/
def assembleText (text : List Char) : Option (List Cmd) := (parseLine text).bind AsmLine.assemble

end Sys2Proof.Machine
end

