-- ==== Sys2Proof/Safety.lean ====
section
/-! DEFINITION. The terms claims use: the exact reals of the spec and its rounding (`00_scope.md` R8, R9;
`41_modulator.md` R80; `42_channel.md` R101), what the registers may hold (`10_state.md` R22 to R25), and
what is observed of a run (`70_reset_and_hazards.md` R169). -/

namespace Sys2Proof

/-- `LABEL` is a bijection onto `0 .. M-1` for every legal order (R82). -/
def Labelling.wf (kmax : Nat) : Labelling → Prop
  | .gray => True
  | .table rows => ∀ k, 1 ≤ k → k ≤ kmax →
      (rows.getD (k - 1) []).length = 2 ^ k ∧ (rows.getD (k - 1) []).Nodup ∧
        ∀ v ∈ rows.getD (k - 1) [], v < 2 ^ k

/-- The parameters are as R5 allows. -/
def Params.wf (p : Params) : Prop := 2 ≤ p.kmax ∧ p.kmax ≤ 23 ∧ Labelling.wf p.kmax p.label

end Sys2Proof

namespace Sys2Proof.Machine

/-- `⟦x⟧` of a finite `x` (R8). -/
noncomputable def realValue (x : F64) : ℝ := (exactValue x : ℝ) / 2 ^ 1074

/-- `-inf`. -/
def minusInf : F64 := 0xFFF0000000000000

/-- The magnitude from which `RN` gives an infinity (R8). -/
noncomputable def overflowThreshold : ℝ := 2 ^ 1024 - 2 ^ 970

/-- `v = RN(r)` as R8 defines it, but for the sign of a nonzero `r` that rounds to zero (log entry 5). -/
structure IsRN (r : ℝ) (v : F64) : Prop where
  /-- An exact 0 gives `+0`. -/
  zero : r = 0 → v = 0
  /-- Overflow gives the infinity of the sign of `r`. -/
  overflow : overflowThreshold ≤ |r| → v = if 0 < r then plusInf else minusInf
  /-- Otherwise the result is a nearest finite value. -/
  nearest : |r| < overflowThreshold →
    isFinite v = true ∧ ∀ u : F64, isFinite u = true → |r - realValue v| ≤ |r - realValue u|
  /-- Of two equally near, the one whose significand's least significant bit is 0. -/
  even : |r| < overflowThreshold →
    ∀ u : F64, isFinite u = true → realValue u ≠ realValue v → |r - realValue u| = |r - realValue v| →
      v.getLsbD 0 = false

/-- `θ_j` of R80. -/
noncomputable def pointAngle (phase : F64) (order j : Nat) : ℝ :=
  realValue phase + 2 * Real.pi * j / order

/-- `σ` of R101. -/
noncomputable def noiseSigma (cfg : ChCfg) : ℝ :=
  if cfg.snr = plusInf then 0 else Real.sqrt (realValue cfg.sp / (2 * realValue cfg.snr))

/-- The squared distance of R9. -/
noncomputable def realDist2 (r p : Sym) : ℝ :=
  (realValue r.re - realValue p.re) ^ 2 + (realValue r.im - realValue p.im) ^ 2

/-- The squared distance of point `i` of a table from a pair of reals. -/
noncomputable def pointDist2 (pts : List Sym) (x y : ℝ) (i : Nat) : ℝ :=
  (x - realValue (pts.getD i ⟨0, 0⟩).re) ^ 2 + (y - realValue (pts.getD i ⟨0, 0⟩).im) ^ 2

/-- The decision of R121 for a received pair of reals, which need not be binary64 values (the exact-real
idealisation of R107). -/
def RealDecided (pts : List Sym) (x y : ℝ) (j : Nat) : Prop :=
  (∀ i, i < pts.length → pointDist2 pts x y j ≤ pointDist2 pts x y i) ∧
  ∀ i, i < j → pointDist2 pts x y j < pointDist2 pts x y i

/-- A legal order: a power of two from 2 to `2^KMAX` (R22). -/
def LegalOrder (p : Params) (order : Nat) : Prop := ∃ k, 1 ≤ k ∧ k ≤ p.kmax ∧ order = 2 ^ k

/-- A value above 0: `+inf`, or a finite value whose real is (R102). -/
def Positive (x : F64) : Prop := x = plusInf ∨ (isFinite x = true ∧ 0 < realValue x)

/-- Every component of every symbol is finite (R106, R123). -/
def FiniteSyms (syms : List Sym) : Prop := ∀ a ∈ syms, isFinite a.re = true ∧ isFinite a.im = true

/-- An answer of the source that makes an `AWGN` fail (R143). -/
def Answer.Fails : Answer → Prop
  | .unavailable => True
  | .value z => isFinite z = false

/-- The packets of R59 to R61, by the value of the header word. -/
def Malformed (c : Cmd) : Prop :=
  let opc := c.hdr.toNat % 256
  opc = 0 ∨ 7 ≤ opc
  ∨ ((opc = 1 ∨ opc = 5) ∧ (c.ops.length ≠ 1 ∨ c.pay ≠ []))
  ∨ (opc = 3 ∧ (512 ≤ c.hdr.toNat ∨ c.ops.length ≠ 1 + c.hdr.toNat / 256 % 2 ∨ c.pay ≠ []))
  ∨ (opc = 2 ∧ (c.ops ≠ [] ∨ ∃ x ∈ c.pay, ∀ b, x ≠ Item.bit b))
  ∨ ((opc = 4 ∨ opc = 6) ∧ (c.ops ≠ [] ∨ ∃ x ∈ c.pay, ∀ a, x ≠ Item.sym a))

/-- A data command addressed to a unit that holds no configuration (R144). -/
def Unconfigured (s : State) : Instr → Prop
  | .modulate _ _ => s.mod = none
  | .awgn _ _ => s.ch = none
  | .demodulate _ _ => s.dm = none
  | .modcfg _ _ => False
  | .chcfg _ _ => False
  | .dmcfg _ _ => False

/-- The causes of `INVALID_CONFIGURATION` (R141). -/
def BadConfiguration (p : Params) : Instr → Prop
  | .modcfg order phase => ¬ LegalOrder p order ∨ isFinite phase = false
  | .dmcfg order phase => ¬ LegalOrder p order ∨ isFinite phase = false
  | .chcfg snr sp => ¬ Positive snr ∨ ∃ x, sp = some x ∧ ¬ (isFinite x = true ∧ Positive x)
  | .modulate _ _ => False
  | .awgn _ _ => False
  | .demodulate _ _ => False

/-- The causes of `INVALID_INPUT` (R142). -/
def BadInput (s : State) : Instr → Prop
  | .modulate count bits => bits.length ≠ count ∨ ∃ cfg, s.mod = some cfg ∧ count % cfg.order.log2 ≠ 0
  | .awgn count syms => syms.length ≠ count ∨ ¬ FiniteSyms syms
  | .demodulate count syms => syms.length ≠ count ∨ ¬ FiniteSyms syms
  | .modcfg _ _ => False
  | .chcfg _ _ => False
  | .dmcfg _ _ => False

/-- The causes of `RANDOM_SOURCE`: one of the draws an `AWGN` issues is answered by a failing answer
(R143). -/
def BadDraw (s : State) : Instr → Prop
  | .awgn count _ => ∃ (zs : List F64) (a : Answer) (rest : List Answer), s.gauss = zs.map .value ++ a :: rest ∧
      zs.length < 2 * count ∧ (∀ z ∈ zs, isFinite z = true) ∧ a.Fails
  | .modulate _ _ => False
  | .demodulate _ _ => False
  | .modcfg _ _ => False
  | .chcfg _ _ => False
  | .dmcfg _ _ => False

/-- The command `i`, executed in `s`, ends with the one response whose status is `e`. -/
def Responds (i : Instr) (s : State) (e : Status) : Prop :=
  ∃ t out, exec i s = .next t ∧ t.rsp = s.rsp ++ [⟨e, out⟩]

/-- What a `PskCfg` may hold: a legal order, a finite phase, and the table computed from the two
(R22, R23). -/
structure PskCfg.Legal (p : Params) (c : PskCfg) : Prop where
  order : LegalOrder p c.order
  phase : isFinite c.phase = true
  table : c.pts = constellation c.order c.phase

/-- What a `ChCfg` may hold: a positive SNR, `+inf` included, and a finite positive power (R25). -/
structure ChCfg.Legal (c : ChCfg) : Prop where
  snr : isPositive c.snr = true
  sp : isPositive c.sp = true ∧ isFinite c.sp = true

/-- What an `AWGN` in flight may hold: a legal channel, finite symbols, finite draws, and not all the
draws it needs (R106, R167). -/
structure Wait.Legal (w : Wait) : Prop where
  cfg : w.cfg.Legal
  syms : finitePayload w.syms = true
  zs : ∀ z ∈ w.zs, isFinite z = true
  lacking : w.zs.length < 2 * w.syms.length

/-- The invariant: every register holds a legal value or none, only an `OK` response has output, and the
run in progress started in the past (R22, R23, R25, R63, R169). -/
structure State.Inv (s : State) : Prop where
  mod : ∀ c, s.mod = some c → c.Legal s.params
  dm : ∀ c, s.dm = some c → c.Legal s.params
  ch : ∀ c, s.ch = some c → c.Legal
  wait : ∀ w, s.wait = some w → w.Legal
  rsp : ∀ r ∈ s.rsp, r.status ≠ .ok → r.out = []
  rspBefore : s.run.rspBefore ≤ s.rsp.length
  drawnBefore : s.run.drawnBefore ≤ s.drawn

/-- What is observed of a run: the responses, the number of draws consumed, and the final
registers (R169). -/
structure Observation where
  responses : List Rsp
  draws : Nat
  mod : Option PskCfg
  dm : Option PskCfg
  ch : Option ChCfg
  deriving DecidableEq, Repr

/-- The observation of the run in progress at `s`: what was emitted and drawn since its reset (R169). -/
def State.observe (s : State) : Observation :=
  ⟨s.rsp.drop s.run.rspBefore, s.drawn - s.run.drawnBefore, s.mod, s.dm, s.ch⟩

/-- The host's next event belongs to a command of the run in progress: it is a packet, or the reset that takes
the response of one. `RST` between commands is no command and belongs to no run (R68, R160, R169). -/
def commandNext : List Input → Bool
  | [] => false
  | .cmd _ :: _ => true
  | .rst :: _ => false
  | .rstDuring _ _ :: _ => true

/-- The run in progress has ended normally: the host sends it no further command, and the last one sent has its
response, which neither an unanswered draw nor a reset took (R169). -/
def State.ended (s : State) : Bool := !commandNext s.input && !s.lastUnanswered

/-- A word of a line of text: some characters, none of which separates words (R65; log entry 6). -/
def PlainWord (w : List Char) : Prop := w ≠ [] ∧ ∀ c ∈ w, c ∉ [' ', '\t', ',', ':', '=', '(', ')']

/-- A payload of bits as text (R65). -/
def bitText (bits : List Bit) : List Char := bits.flatMap fun b => [' ', if b then '1' else '0']

/-- A payload of symbols as text, each written `(re, im)` (R65). -/
def symbolText (words : List (List Char × List Char)) : List Char :=
  words.flatMap fun w => " (".toList ++ w.1 ++ ", ".toList ++ w.2 ++ [')']

/-- The same state with another host byte order (R5, R42). -/
def State.withByteOrder (s : State) (o : ByteOrder) : State :=
  { s with params := { s.params with hostByteOrder := o } }

/-- The same outcome with a function applied to its next state. -/
def mapNext (f : State → State) : Host.Outcome State Fault Refusal → Host.Outcome State Fault Refusal
  | .next s => .next (f s)
  | .fault r => .fault r
  | .refused r => .refused r

end Sys2Proof.Machine
end

