-- ==== Sys2Proof/Certificates/Slice0/Obligations.lean ====
section
/-! DEFINITION. The statements for the provers, from the numbered rules of the spec. The families are those of
the opcode table: MOD (`MODCFG`, `MODULATE`), CHAN (`CHCFG`, `AWGN`) and DEMOD (`DMCFG`, `DEMODULATE`). -/

section

open Sys2Proof Sys2Proof.Machine

/-! ## Reset, the registers and the order of commands -/

/-- R32: after reset every unit is unconfigured, and each data command raises `NOT_CONFIGURED` before it
reads a register. -/
def Obligations.ResetLeavesUnitsUnconfigured : Prop :=
  (State.reset.mod = none ∧ State.reset.dm = none ∧ State.reset.ch = none) ∧
  (State.reset.modValid = false ∧ State.reset.dmValid = false ∧ State.reset.chValid = false) ∧
  (∀ n bits, exec (.modulate n bits) State.reset = .next { State.reset with rsp := [⟨.notConfigured, []⟩] }) ∧
  (∀ n syms, exec (.awgn n syms) State.reset = .next { State.reset with rsp := [⟨.notConfigured, []⟩] }) ∧
  (∀ n syms, exec (.demodulate n syms) State.reset = .next { State.reset with rsp := [⟨.notConfigured, []⟩] })

/-- R160, R161, R162: `RST` between commands, or while an `AWGN` waits for a draw, unconfigures every unit,
gives no response, does not touch the source and starts a new run; nothing but a reset unconfigures a unit.
That it comes before an answer to a waiting `AWGN` is the model's choice (log entry 3), and so are that the
draw count goes on and only its mark moves (log entry 14) and that packets still listed stay (log entry 15). -/
def Obligations.ResetClearsEveryUnit : Prop :=
  (∀ (s : State) (rest : List Input), s.input = .rst :: rest →
    step s = .next { s with mod := none, dm := none, ch := none, wait := none, input := rest,
                            run := ⟨s.rsp.length, s.drawn, s.lastUnanswered⟩ }) ∧
  (∀ s t : State, step s = .next t →
    (s.mod ≠ none ∧ t.mod = none) ∨ (s.dm ≠ none ∧ t.dm = none) ∨ (s.ch ≠ none ∧ t.ch = none) →
    ∃ rest, s.input = .rst :: rest ∨ ∃ c answered, s.input = .rstDuring c answered :: rest)

/-- R161: a reset while a command executes abandons it. No response; `S` is the reset value; the `m` draws
it had issued stay consumed, which are none unless it is an `AWGN` past its checks, and then the answers the
source had given, up to the first that failed. That a reset comes before an answer to a waiting `AWGN`, and that
a draw issued but not answered is not consumed, are the model's choices (log entry 3), and so are that the draw
count goes on and the mark of the run says that its reset cut a command off (log entry 14), and that packets
still listed stay (log entry 15). -/
def Obligations.ResetAbandonsTheCommand : Prop :=
  (∀ (s : State) (w : Wait) (rest : List Input), s.wait = some w → s.input = .rst :: rest →
    step s = .next { s with mod := none, dm := none, ch := none, wait := none, input := rest,
                            run := ⟨s.rsp.length, s.drawn, true⟩ }) ∧
  (∀ (s : State) (c : Cmd) (answered : Nat) (rest : List Input),
    s.wait = none → s.input = .rstDuring c answered :: rest →
    ∃ m, step s = .next { s with mod := none, dm := none, ch := none, wait := none, input := rest,
                                  gauss := s.gauss.drop m, drawn := s.drawn + m,
                                  run := ⟨s.rsp.length, s.drawn + m, true⟩ } ∧
      ((∀ i, decode c = .ok i → (∀ n y, i ≠ .awgn n y) ∨ Unconfigured s i ∨ BadInput s i) → m = 0) ∧
      (∀ n y, decode c = .ok (.awgn n y) → ¬ Unconfigured s (.awgn n y) → ¬ BadInput s (.awgn n y) →
        m ≤ min answered (2 * n) ∧ m ≤ s.gauss.length ∧
        (∀ k, k + 1 < m → ¬ (s.gauss.getD k .unavailable).Fails) ∧
        (m < min answered (2 * n) → m = s.gauss.length ∨ (0 < m ∧ (s.gauss.getD (m - 1) .unavailable).Fails))))

/-- From R33: a step that changes `S` is a successful configuration command, after which its own unit's register
holds exactly its operands, or a reset, after which all three are clear. That these commands do write is stated
by `ModcfgConfigures`, `ChcfgConfigures` and
`DmcfgConfigures`, and that a reset clears by `ResetClearsEveryUnit`. -/
def Obligations.RegistersChangeInTwoWays : Prop :=
  ∀ s t : State, step s = .next t →
    (t.mod = s.mod ∧ t.dm = s.dm ∧ t.ch = s.ch) ∨
    ((∃ rest, s.input = .rst :: rest ∨ ∃ c answered, s.input = .rstDuring c answered :: rest) ∧
      t.mod = none ∧ t.dm = none ∧ t.ch = none) ∨
    (∃ c rest, s.wait = none ∧ s.input = .cmd c :: rest ∧ t.rsp = s.rsp ++ [⟨.ok, []⟩] ∧
      ((∃ order phase, decode c = .ok (.modcfg order phase) ∧
          t.mod = some ⟨order, phase, constellation order phase⟩ ∧ t.dm = s.dm ∧ t.ch = s.ch) ∨
       (∃ order phase, decode c = .ok (.dmcfg order phase) ∧
          t.dm = some ⟨order, phase, constellation order phase⟩ ∧ t.mod = s.mod ∧ t.ch = s.ch) ∨
       (∃ snr sp, decode c = .ok (.chcfg snr sp) ∧
          t.ch = some ⟨snr, sp.getD oneF64⟩ ∧ t.mod = s.mod ∧ t.dm = s.dm)))

/-- R45, R69: with no command in flight, a step on a packet that decodes to `i` is `exec i` on the state
that has taken the packet from `CMD`. -/
def Obligations.StepRunsTheDecodedCommand : Prop :=
  ∀ (s : State) (c : Cmd) (rest : List Input) (i : Instr), s.wait = none → s.input = .cmd c :: rest →
    decode c = .ok i → step s = exec i { s with input := rest }

/-- R45, R167: while an `AWGN` waits for a draw no further command is taken from `CMD`; only a reset takes
an event. That the reset must be the next event is the model's choice (log entry 15). -/
def Obligations.WaitingTakesNoCommand : Prop :=
  ∀ (s t : State) (w : Wait), s.wait = some w → step s = .next t →
    t.input = s.input ∨ (s.input = .rst :: t.input ∧ t.wait = none ∧ t.rsp = s.rsp)

/-- R155: with no command in flight and nothing at the ports the block is idle, and its state persists. -/
def Obligations.IdleBlockKeepsItsState : Prop :=
  ∀ s : State, s.wait = none → s.input = [] → step s = .next s

/-- R165, R163: a successful configuration takes effect for the very next command. After it the unit's data
command completes on an empty payload; before it, it raises `NOT_CONFIGURED`. -/
def Obligations.ConfigurationTakesEffectAtOnce : Prop :=
  ∀ (s : State) (i d : Instr),
    ((∃ order phase, i = .modcfg order phase) ∧ d = .modulate 0 []) ∨
    ((∃ snr sp, i = .chcfg snr sp) ∧ d = .awgn 0 []) ∨
    ((∃ order phase, i = .dmcfg order phase) ∧ d = .demodulate 0 []) →
    (¬ BadConfiguration s.params i → ∃ t, exec i s = .next t ∧ t.rsp = s.rsp ++ [⟨.ok, []⟩] ∧ Responds d t .ok) ∧
    (BadConfiguration s.params i → Unconfigured s d →
      ∃ t, exec i s = .next t ∧ t.rsp = s.rsp ++ [⟨.invalidConfiguration, []⟩] ∧ Responds d t .notConfigured)

/-- R160, R161, R169: a reset starts a new run, of which nothing has been observed. A run has ended when the
last command the host sends it has its response: nothing follows, or a reset between commands, which is no
command and takes nothing from a run that had ended. A response taken by a reset (R161) or a draw never answered
(R167) leaves it not ended. That the counts of a run start at its reset, and when a run of no command has ended
(not, when the last command sent before it was cut off), are the model's choices (log entry 14). -/
def Obligations.RunEndsWithItsLastResponse : Prop :=
  State.reset.observe = ⟨[], 0, none, none, none⟩ ∧
  (∀ s : State, s.wait ≠ none ∨ (∃ c rest, s.input = .cmd c :: rest) ∨
    (∃ c answered rest, s.input = .rstDuring c answered :: rest) → s.ended = false) ∧
  (∀ (s t : State) (rest : List Input), s.input = .rst :: rest → step s = .next t →
    t.observe = ⟨[], 0, none, none, none⟩ ∧
    (t.ended = true ↔ s.ended = true ∧ (rest = [] ∨ ∃ more, rest = .rst :: more))) ∧
  (∀ (s t : State) (c : Cmd) (answered : Nat) (rest : List Input),
    s.wait = none → s.input = .rstDuring c answered :: rest → step s = .next t →
    t.observe = ⟨[], 0, none, none, none⟩ ∧ t.ended = false) ∧
  (∀ s t : State, s.Inv → step s = .next t → t.rsp ≠ s.rsp →
    ∃ r : Rsp, t.rsp = s.rsp ++ [r] ∧ t.observe.responses = s.observe.responses ++ [r] ∧
      t.observe.draws = s.observe.draws + (t.drawn - s.drawn) ∧
      (t.ended = true ↔ t.input = [] ∨ ∃ rest, t.input = .rst :: rest))

/-! ## Encoding and decoding -/

/-- R62: a packet that does not decode writes no register, emits no output and consumes no draw, and the
next packet is decoded normally. -/
def Obligations.IllegalCommandWritesNothing : Prop :=
  ∀ (s : State) (c : Cmd) (rest : List Input) (e : DecodeError), s.wait = none → s.input = .cmd c :: rest →
    decode c = .error e →
    step s = .next { s with input := rest, rsp := s.rsp ++ [⟨.illegalCommand, []⟩] } ∧
    ∀ (c' : Cmd) (rest' : List Input) (i : Instr), rest = .cmd c' :: rest' → decode c' = .ok i →
      step { s with input := rest, rsp := s.rsp ++ [⟨.illegalCommand, []⟩] } =
        exec i { s with input := rest', rsp := s.rsp ++ [⟨.illegalCommand, []⟩] }

/-- R145, R59 to R61: exactly the malformed packets raise `ILLEGAL_COMMAND`, and no command that decodes
does. -/
def Obligations.IllegalCommandCauses : Prop :=
  (∀ c : Cmd, (∃ e, decode c = .error e) ↔ Malformed c) ∧
  (∀ (s : State) (c : Cmd) (rest : List Input), s.wait = none → s.input = .cmd c :: rest → Malformed c →
    step s = .next { s with input := rest, rsp := s.rsp ++ [⟨.illegalCommand, []⟩] }) ∧
  (∀ (i : Instr) (s : State), ¬ Responds i s .illegalCommand)

/-- R64, R51, R57: a packet decodes to a command exactly when its header is the opcode and the argument, its
operand words are the command's, and its payload is the command's items in order; every other packet is
rejected. -/
def Obligations.DecodeReadsFields : Prop :=
  (∀ c : Cmd, (∃ i, decode c = .ok i) ∨ ∃ e, decode c = .error e) ∧
  (∀ c order phase, decode c = .ok (.modcfg order phase) ↔
    c.hdr.toNat = 0x01 + 256 * order ∧ c.ops = [phase] ∧ c.pay = []) ∧
  (∀ c count bits, decode c = .ok (.modulate count bits) ↔
    c.hdr.toNat = 0x02 + 256 * count ∧ c.ops = [] ∧ c.pay = bits.map Item.bit) ∧
  (∀ c snr, decode c = .ok (.chcfg snr none) ↔ c.hdr.toNat = 0x03 ∧ c.ops = [snr] ∧ c.pay = []) ∧
  (∀ c snr sp, decode c = .ok (.chcfg snr (some sp)) ↔ c.hdr.toNat = 0x103 ∧ c.ops = [snr, sp] ∧ c.pay = []) ∧
  (∀ c count syms, decode c = .ok (.awgn count syms) ↔
    c.hdr.toNat = 0x04 + 256 * count ∧ c.ops = [] ∧ c.pay = syms.map Item.sym) ∧
  (∀ c order phase, decode c = .ok (.dmcfg order phase) ↔
    c.hdr.toNat = 0x05 + 256 * order ∧ c.ops = [phase] ∧ c.pay = []) ∧
  (∀ c count syms, decode c = .ok (.demodulate count syms) ↔
    c.hdr.toNat = 0x06 + 256 * count ∧ c.ops = [] ∧ c.pay = syms.map Item.sym)

/-- Every command with an encoding decodes from it, with every operand at every value. -/
def Obligations.DecodeOfEncode : Prop := ∀ i : Instr, i.wf = true → decode (encode i) = .ok i

/-- No two packets decode to one command, and what decodes has an encoding. -/
def Obligations.EncodeOfDecode : Prop :=
  ∀ (c : Cmd) (i : Instr), decode c = .ok i → encode i = c ∧ i.wf = true

/-- Words written out in the spec's own examples (`95_test_vectors.md` V-EN1) decode to the commands they
stand for. -/
def Obligations.SpecWordsDecode : Prop :=
  decode ⟨0x00000401, [0x3FE921FB54442D18], []⟩ = .ok (.modcfg 4 0x3FE921FB54442D18) ∧
  decode ⟨0x80000001, [0], []⟩ = .ok (.modcfg 0x800000 0) ∧
  decode ⟨0x00000202, [], [.bit false, .bit true]⟩ = .ok (.modulate 2 [false, true]) ∧
  decode ⟨0x00000103, [0x3FEFAE147AE147AE, 0x3FF0000000000000], []⟩ =
    .ok (.chcfg 0x3FEFAE147AE147AE (some 0x3FF0000000000000)) ∧
  decode ⟨0x00000003, [0x7FF0000000000000], []⟩ = .ok (.chcfg 0x7FF0000000000000 none) ∧
  decode ⟨0x00000104, [], [.sym ⟨0x3FF0000000000000, 0⟩]⟩ = .ok (.awgn 1 [⟨0x3FF0000000000000, 0⟩]) ∧
  decode ⟨0x00000405, [0x3FE921FB54442D18], []⟩ = .ok (.dmcfg 4 0x3FE921FB54442D18) ∧
  decode ⟨0x00000006, [], []⟩ = .ok (.demodulate 0 [])

/-- R56: the value of a finite word is that of its sign, biased exponent and trailing significand fields. -/
def Obligations.OperandWordsAreBinary64 : Prop :=
  ∀ x : F64, (isFinite x = true ↔ (x.extractLsb' 52 11).toNat ≠ 2047) ∧ realValue x =
    (if x.getLsbD 63 then -1 else 1) *
      (if (x.extractLsb' 52 11).toNat = 0 then ((x.extractLsb' 0 52).toNat : ℝ) * (2 : ℝ) ^ (-1074 : ℤ)
       else (2 ^ 52 + ((x.extractLsb' 0 52).toNat : ℝ)) * (2 : ℝ) ^ (((x.extractLsb' 52 11).toNat : ℤ) - 1075))

/-- R65: the packets of a line are the encodings of well-formed commands; without `N=` the count is the
payload's, and an explicit `N=` is encoded as written; `CHCFG` encodes `P = 0` without a power and `P = 1` with
one. Each form of a line is read as it is written, whatever its words and its payload (which blanks may stand
where is log entry 6's). -/
def Obligations.AssembledLinesDecode : Prop :=
  (∀ (l : AsmLine) (cs : List Cmd), l.assemble = some cs →
    ∀ c ∈ cs, ∃ i : Instr, i.wf = true ∧ c = encode i ∧ decode c = .ok i) ∧
  (∀ bits : List Bit,
    (bits.length < 2 ^ 24 → (AsmLine.modulate none bits).assemble = some [encode (.modulate bits.length bits)]) ∧
    ∀ n, n < 2 ^ 24 → (AsmLine.modulate (some n) bits).assemble = some [encode (.modulate n bits)]) ∧
  (∀ (syms : List (Literal × Literal)) (ss : List Sym), literalSyms syms = some ss →
    (ss.length < 2 ^ 24 → (AsmLine.awgn none syms).assemble = some [encode (.awgn ss.length ss)] ∧
      (AsmLine.demodulate none syms).assemble = some [encode (.demodulate ss.length ss)]) ∧
    ∀ n, n < 2 ^ 24 → (AsmLine.awgn (some n) syms).assemble = some [encode (.awgn n ss)] ∧
      (AsmLine.demodulate (some n) syms).assemble = some [encode (.demodulate n ss)]) ∧
  (∀ (snr : Literal) (x : F64), snr.value = some x →
    (AsmLine.chcfg snr none).assemble = some [⟨0x00000003, [x], []⟩] ∧
    ∀ (sp : Literal) (y : F64), sp.value = some y →
      (AsmLine.chcfg snr (some sp)).assemble = some [⟨0x00000103, [x, y], []⟩]) ∧
  (∀ m p : List Char, PlainWord m → PlainWord p →
    let operands := (parseUint m).bind fun n => (parseLiteral p).map fun x => (n, x)
    parseLine ("MODCFG M=".toList ++ m ++ ", PHASE=".toList ++ p) = operands.map (fun a => .modcfg a.1 a.2) ∧
    parseLine ("DMCFG M=".toList ++ m ++ ", PHASE=".toList ++ p) = operands.map (fun a => .dmcfg a.1 a.2) ∧
    parseLine ("LINKCFG M=".toList ++ m ++ ", PHASE=".toList ++ p) = operands.map (fun a => .linkcfg a.1 a.2)) ∧
  (∀ x y : List Char, PlainWord x → PlainWord y →
    parseLine ("CHCFG SNR=".toList ++ x) = (parseLiteral x).map (.chcfg · none) ∧
    parseLine ("CHCFG SNR=".toList ++ x ++ ", SP=".toList ++ y) =
      (parseLiteral x).bind fun snr => (parseLiteral y).map fun sp => .chcfg snr (some sp)) ∧
  (∀ (bits : List Bit) (n : List Char), PlainWord n →
    parseLine ("MODULATE :".toList ++ bitText bits) = some (.modulate none bits) ∧
    parseLine ("MODULATE N=".toList ++ n ++ " :".toList ++ bitText bits) =
      (parseUint n).map fun k => .modulate (some k) bits) ∧
  (∀ (words : List (List Char × List Char)) (n : List Char), PlainWord n →
    (∀ w ∈ words, PlainWord w.1 ∧ PlainWord w.2) →
    let syms := words.mapM fun w => (parseLiteral w.1).bind fun x => (parseLiteral w.2).map fun y => (x, y)
    parseLine ("AWGN :".toList ++ symbolText words) = syms.map (.awgn none) ∧
    parseLine ("DEMODULATE :".toList ++ symbolText words) = syms.map (.demodulate none) ∧
    parseLine ("AWGN N=".toList ++ n ++ " :".toList ++ symbolText words) =
      (parseUint n).bind (fun k => syms.map (.awgn (some k))) ∧
    parseLine ("DEMODULATE N=".toList ++ n ++ " :".toList ++ symbolText words) =
      (parseUint n).bind (fun k => syms.map (.demodulate (some k))))

/-- R66: `LINKCFG` expands to `MODCFG` and then `DMCFG` with the same operands. -/
def Obligations.LinkcfgExpands : Prop :=
  ∀ (order : Nat) (phase : Literal) (x : F64), phase.value = some x → order < 2 ^ 24 →
    (AsmLine.modcfg order phase).assemble = some [encode (.modcfg order x)] ∧
    (AsmLine.dmcfg order phase).assemble = some [encode (.dmcfg order x)] ∧
    (AsmLine.linkcfg order phase).assemble = some [encode (.modcfg order x), encode (.dmcfg order x)] ∧
    ∀ s t u : State, exec (.modcfg order x) s = .next t → exec (.dmcfg order x) t = .next u →
      ∃ a b : Rsp, u.rsp = s.rsp ++ [a, b] ∧ (a.status = .ok → b.status = .ok ∧ u.mod = u.dm ∧ u.dm ≠ none)

/-- R65: a decimal literal is converted to the nearest binary64 with ties to even, `PI/q` and `-PI/q` to
`RN(π/q)` and `RN(-π/q)`, raw bits stand for themselves, and `+inf` and `-inf` are the infinities. Digits are
read in their base, raw bits from exactly 16 of them (what a decimal literal looks like is log entry 6's). -/
def Obligations.LiteralsAreRounded : Prop :=
  (∀ (negative : Bool) (m : Nat) (e : Int), (m ≠ 0 ∨ negative = false) →
    ∃ x, (Literal.decimal negative m e).value = some x ∧
      IsRN ((if negative then -1 else 1) * (m : ℝ) * (10 : ℝ) ^ e) x) ∧
  (∀ (negative : Bool) (q : Nat), 0 < q → q < 2 ^ 24 →
    ∃ x, (Literal.piOver negative q).value = some x ∧ IsRN ((if negative then -1 else 1) * (Real.pi / q)) x) ∧
  (∀ bits : F64, (Literal.raw bits).value = some bits) ∧
  (Literal.infinity false).value = some 0x7FF0000000000000 ∧
  (Literal.infinity true).value = some 0xFFF0000000000000 ∧
  (∀ ds : List Nat, ds ≠ [] → (∀ d ∈ ds, d < 10) →
    parseUint (ds.map Nat.digitChar) = some (Nat.ofDigits 10 ds.reverse)) ∧
  (∀ ds : List Nat, ds ≠ [] → (∀ d ∈ ds, d < 16) →
    parseUint ("0x".toList ++ ds.map Nat.digitChar) = some (Nat.ofDigits 16 ds.reverse)) ∧
  (∀ ds : List Nat, ds.length = 16 → (∀ d ∈ ds, d < 16) →
    parseLiteral ("0f".toList ++ ds.map Nat.digitChar) = some (.raw (BitVec.ofNat 64 (Nat.ofDigits 16 ds.reverse)))) ∧
  (∀ cs : List Char, cs.length ≠ 16 → parseLiteral ("0f".toList ++ cs) = none) ∧
  parseLiteral "+inf".toList = some (.infinity false) ∧ parseLiteral "-inf".toList = some (.infinity true) ∧
  (∀ q : List Char, parseLiteral ("PI/".toList ++ q) = (parseUint q).map (.piOver false) ∧
    parseLiteral ("-PI/".toList ++ q) = (parseUint q).map (.piOver true)) ∧
  (∀ ds fs es : List Nat, ds ≠ [] → es ≠ [] → (∀ d ∈ ds ++ fs ++ es, d < 10) →
    let m : Nat := Nat.ofDigits 10 (ds ++ fs).reverse
    let e : Nat := Nat.ofDigits 10 es.reverse
    let text := ds.map Nat.digitChar ++ '.' :: fs.map Nat.digitChar
    parseLiteral (ds.map Nat.digitChar) = some (.decimal false (Nat.ofDigits 10 ds.reverse) 0) ∧
    parseLiteral text = some (.decimal false m (-fs.length)) ∧
    parseLiteral ('-' :: text) = some (.decimal true m (-fs.length)) ∧
    parseLiteral (text ++ 'e' :: es.map Nat.digitChar) = some (.decimal false m (e - fs.length)) ∧
    parseLiteral (text ++ 'e' :: '-' :: es.map Nat.digitChar) = some (.decimal false m (-e - fs.length)))

/-! ## Responses and errors -/

/-- R140: the status codes, and the status word that carries them. -/
def Obligations.StatusCodes : Prop :=
  (statusCode .ok = 0x00 ∧ statusCode .invalidConfiguration = 0x01 ∧ statusCode .invalidInput = 0x02 ∧
    statusCode .randomSource = 0x03 ∧ statusCode .notConfigured = 0x04 ∧ statusCode .illegalCommand = 0x05) ∧
  (∀ e : Status, (statusCode e).toNat ≤ 0x05) ∧
  (∀ e : Status, (statusWord e).extractLsb' 0 8 = statusCode e ∧ (statusWord e).extractLsb' 8 24 = 0)

/-- R63: each packet gets exactly one response, whose output is empty unless its status is `OK`; the one
exception is the `AWGN` that still waits for a draw (R167), which has none yet. -/
def Obligations.OneResponsePerCommand : Prop :=
  ∀ (s t : State) (c : Cmd) (rest : List Input), s.wait = none → s.input = .cmd c :: rest → step s = .next t →
    t.input = rest ∧
    ((t.wait = none ∧ ∃ r : Rsp, t.rsp = s.rsp ++ [r] ∧ (r.status ≠ .ok → r.out = []) ∧
        (statusWord r.status).toNat = (statusCode r.status).toNat) ∨
     (t.wait ≠ none ∧ t.rsp = s.rsp ∧ ∃ n y, decode c = .ok (.awgn n y)))

/-- R141: `INVALID_CONFIGURATION` has exactly these causes. -/
def Obligations.InvalidConfigurationCauses : Prop :=
  ∀ (i : Instr) (s : State), Responds i s .invalidConfiguration ↔ BadConfiguration s.params i

/-- R142: `INVALID_INPUT` has exactly these causes, in a command whose unit is configured. -/
def Obligations.InvalidInputCauses : Prop :=
  ∀ (i : Instr) (s : State), Responds i s .invalidInput ↔ ¬ Unconfigured s i ∧ BadInput s i

/-- R143: `RANDOM_SOURCE` has exactly these causes, in an `AWGN` past its checks; the block is then ready for
the next command. -/
def Obligations.RandomSourceCauses : Prop :=
  (∀ (i : Instr) (s : State), Responds i s .randomSource ↔ ¬ Unconfigured s i ∧ ¬ BadInput s i ∧ BadDraw s i) ∧
  (∀ (i : Instr) (s t : State), exec i s = .next t → t.rsp = s.rsp ++ [⟨.randomSource, []⟩] → t.wait = s.wait)

/-- R144: `NOT_CONFIGURED` has exactly one cause. -/
def Obligations.NotConfiguredCause : Prop :=
  ∀ (i : Instr) (s : State), Responds i s .notConfigured ↔ Unconfigured s i

/-- R146: a packet reports the first check that fails: decoding, then the unit's register, then the
configuration values, then the input, then the draws; and no draw is issued unless the checks before the
draws passed. -/
def Obligations.FirstFailingCheckIsReported : Prop :=
  ∀ (s t : State) (c : Cmd) (rest : List Input), s.wait = none → s.input = .cmd c :: rest → step s = .next t →
    (Malformed c → t.rsp = s.rsp ++ [⟨.illegalCommand, []⟩]) ∧
    (∀ i, decode c = .ok i → Unconfigured s i → t.rsp = s.rsp ++ [⟨.notConfigured, []⟩]) ∧
    (∀ i, decode c = .ok i → ¬ Unconfigured s i → BadConfiguration s.params i →
      t.rsp = s.rsp ++ [⟨.invalidConfiguration, []⟩]) ∧
    (∀ i, decode c = .ok i → ¬ Unconfigured s i → BadInput s i → t.rsp = s.rsp ++ [⟨.invalidInput, []⟩]) ∧
    (∀ i, decode c = .ok i → ¬ Unconfigured s i → ¬ BadInput s i → BadDraw s i →
      t.rsp = s.rsp ++ [⟨.randomSource, []⟩]) ∧
    (t.drawn ≠ s.drawn ∨ t.gauss ≠ s.gauss →
      ∃ n y, decode c = .ok (.awgn n y) ∧ ¬ Unconfigured s (.awgn n y) ∧ ¬ BadInput s (.awgn n y))

/-- R147: an error emits its status and nothing else, writes no register and saves nothing; draws issued
before it stay consumed. -/
def Obligations.ErrorsWriteNothing : Prop :=
  ∀ (i : Instr) (s t : State) (e : Status) (out : List Item), exec i s = .next t →
    t.rsp = s.rsp ++ [⟨e, out⟩] → e ≠ .ok →
    out = [] ∧ ∃ m, t = { s with rsp := s.rsp ++ [⟨e, []⟩], gauss := s.gauss.drop m, drawn := s.drawn + m } ∧
      (e ≠ .randomSource → m = 0)

/-- R148, R30: no command reads an earlier response, and after its own response the block is ready for the
next command. -/
def Obligations.NoErrorIsSticky : Prop :=
  (∀ (i : Instr) (s t : State) (earlier : List Rsp), exec i s = .next t →
    exec i { s with rsp := earlier } = .next { t with rsp := earlier ++ t.rsp.drop s.rsp.length }) ∧
  (∀ (i : Instr) (s t : State), s.wait = none → exec i s = .next t → t.rsp ≠ s.rsp → t.wait = none)

/-- R64, R147, R148, R167: every command and every step answers a next state, so the machine never stops. That
nothing faults or is refused is read from these rules (log entry 9), and that a waiting `AWGN` steps to itself
rather than stops is the model's choice (log entry 3). -/
def Obligations.NothingStopsTheBlock : Prop :=
  (∀ (i : Instr) (s : State), ∃ t, exec i s = .next t) ∧ (∀ s : State, ∃ t, step s = .next t)

/-- What a command leaves unchanged, for all six: the parameters, the host's events, where the run started,
every response emitted before, every register but its own unit's for a configuration command, and, for every command but
`AWGN`, the source and the command in flight. `AWGN` only takes answers from the front and counts them. -/
def Obligations.CommandFrame : Prop :=
  ∀ (i : Instr) (s t : State), exec i s = .next t →
    t.params = s.params ∧ t.input = s.input ∧ t.run = s.run ∧ (∃ r : List Rsp, t.rsp = s.rsp ++ r ∧ r.length ≤ 1) ∧
    ((∀ order phase, i ≠ .modcfg order phase) → t.mod = s.mod) ∧
    ((∀ order phase, i ≠ .dmcfg order phase) → t.dm = s.dm) ∧
    ((∀ snr sp, i ≠ .chcfg snr sp) → t.ch = s.ch) ∧
    ((∀ n y, i ≠ .awgn n y) → t.gauss = s.gauss ∧ t.drawn = s.drawn ∧ t.wait = s.wait) ∧
    ∃ m, t.gauss = s.gauss.drop m ∧ t.drawn = s.drawn + m ∧ m ≤ s.gauss.length

/-- Every step keeps the invariant: registers hold legal values with the table of their order and phase, an
`AWGN` in flight is one the checks let through, only an `OK` response has output, and the run in progress
started no later than now. -/
def Obligations.StepKeepsInvariant : Prop := ∀ s t : State, s.Inv → step s = .next t → t.Inv

/-- The invariant holds at reset. -/
def Obligations.ResetHasInvariant : Prop := State.reset.Inv

/-- R42: a symbol slot carries `re` in bits 127..64 and `im` in bits 63..0 and nothing else, and the host's
byte order cannot change what the block computes. -/
def Obligations.ByteOrderIsInert : Prop :=
  (∀ a : Sym, (symbolSlot a).extractLsb' 64 64 = a.re ∧ (symbolSlot a).extractLsb' 0 64 = a.im ∧
    slotSymbol (symbolSlot a) = a) ∧
  (∀ v : BitVec 128, symbolSlot (slotSymbol v) = v) ∧
  (∀ (s : State) (o : ByteOrder), step (s.withByteOrder o) = mapNext (·.withByteOrder o) (step s))

/-- R33, R34, R86, R106, R123: each unit's commands read and write its own register only; the others' registers neither change
nor change what happens. -/
def Obligations.UnitsAreSeparate : Prop :=
  ∀ (s : State) (m d : Option PskCfg) (h : Option ChCfg),
    (∀ i, (∃ order phase, i = .modcfg order phase) ∨ (∃ n bits, i = .modulate n bits) →
      exec i { s with dm := d, ch := h } = mapNext (fun t => { t with dm := d, ch := h }) (exec i s)) ∧
    (∀ i, (∃ snr sp, i = .chcfg snr sp) ∨ (∃ n syms, i = .awgn n syms) →
      exec i { s with mod := m, dm := d } = mapNext (fun t => { t with mod := m, dm := d }) (exec i s)) ∧
    (∀ i, (∃ order phase, i = .dmcfg order phase) ∨ (∃ n syms, i = .demodulate n syms) →
      exec i { s with mod := m, ch := h } = mapNext (fun t => { t with mod := m, ch := h }) (exec i s))

/-! ## The modulator -/

/-- R85: `MODCFG` on a legal order and a finite phase loads the whole register; on any other it raises
`INVALID_CONFIGURATION`. The sign of a zero phase does not matter, the phase is not reduced modulo `2π`, and
the example loads the table of R80. -/
def Obligations.ModcfgConfigures : Prop :=
  (∀ (s : State) (order : Nat) (phase : F64), LegalOrder s.params order → isFinite phase = true →
    exec (.modcfg order phase) s =
      .next { s with mod := some ⟨order, phase, constellation order phase⟩, rsp := s.rsp ++ [⟨.ok, []⟩] }) ∧
  (∀ (s : State) (order : Nat) (phase : F64), ¬ LegalOrder s.params order ∨ isFinite phase = false →
    exec (.modcfg order phase) s = .next { s with rsp := s.rsp ++ [⟨.invalidConfiguration, []⟩] }) ∧
  (∀ order, constellation order 0x8000000000000000 = constellation order 0) ∧
  constellation 2 0x401921FB54442D18 ≠ constellation 2 0 ∧
  constellation 4 0x3FE921FB54442D18 =
    [⟨0x3FE6A09E667F3BCD, 0x3FE6A09E667F3BCC⟩, ⟨0xBFE6A09E667F3BCC, 0x3FE6A09E667F3BCD⟩,
     ⟨0xBFE6A09E667F3BCD, 0xBFE6A09E667F3BCC⟩, ⟨0x3FE6A09E667F3BCC, 0xBFE6A09E667F3BCD⟩]

/-- R86: `MODULATE` maps chunk `j`, the bits `j·k` to `j·k + k - 1`, to the table point of its label, in
order; it checks the unit, the count and the multiple of `k`. Everything but the response stays. It speaks of
every register: for one that no run holds, the symbol of an index outside its table is log entry 8's. -/
def Obligations.ModulateMapsChunks : Prop :=
  ∀ (s : State) (n : Nat) (bits : List Bit),
    (s.mod = none → exec (.modulate n bits) s = .next { s with rsp := s.rsp ++ [⟨.notConfigured, []⟩] }) ∧
    ∀ cfg, s.mod = some cfg →
      (bits.length ≠ n ∨ n % cfg.order.log2 ≠ 0 →
        exec (.modulate n bits) s = .next { s with rsp := s.rsp ++ [⟨.invalidInput, []⟩] }) ∧
      (bits.length = n → n % cfg.order.log2 = 0 →
        exec (.modulate n bits) s = .next { s with rsp := s.rsp ++ [⟨.ok,
          (List.range (n / cfg.order.log2)).map fun j =>
            .sym (cfg.pts.getD (indexOf s.params.label cfg.order.log2
              (valMsb ((bits.drop (j * cfg.order.log2)).take cfg.order.log2))) ⟨0, 0⟩)⟩] })

/-- R84, R82: for every labelling, `MODULATE` emits table points bit for bit, and the labels of the points
it chose, most significant bit first, are the message. -/
def Obligations.ModulateEmitsTablePoints : Prop :=
  ∀ (s : State) (cfg : PskCfg) (bits : List Bit), s.params.wf → s.mod = some cfg → cfg.Legal s.params →
    bits.length % cfg.order.log2 = 0 →
    ∃ js : List Nat, (∀ j ∈ js, j < cfg.pts.length) ∧ js.length = bits.length / cfg.order.log2 ∧
      (js.flatMap fun j => bitsMsb (labelOf s.params.label cfg.order.log2 j) cfg.order.log2) = bits ∧
      exec (.modulate bits.length bits) s =
        .next { s with rsp := s.rsp ++ [⟨.ok, js.map fun j => .sym (cfg.pts.getD j ⟨0, 0⟩)⟩] }

/-- R10, R84, R122: `bits_msb` lists the `k` bits of a value from the most significant on, and `val_msb` is
its inverse. -/
def Obligations.BitOrderIsMostSignificantFirst : Prop :=
  (∀ v k i, i < k → (bitsMsb v k)[i]? = some (v.testBit (k - 1 - i))) ∧
  (∀ v k, (bitsMsb v k).length = k) ∧
  (∀ v k, v < 2 ^ k → valMsb (bitsMsb v k) = v) ∧
  (∀ c : List Bit, valMsb c < 2 ^ c.length ∧ bitsMsb (valMsb c) c.length = c)

/-- R82: every labelling a block may be built with is a bijection of the indices onto the `k`-bit labels,
with `indexOf` its inverse. -/
def Obligations.LabelMapIsBijective : Prop :=
  ∀ (kmax : Nat) (l : Labelling) (k : Nat), l.wf kmax → 1 ≤ k → k ≤ kmax →
    (∀ j, j < 2 ^ k → labelOf l k j < 2 ^ k ∧ indexOf l k (labelOf l k j) = j) ∧
    (∀ v, v < 2 ^ k → indexOf l k v < 2 ^ k ∧ labelOf l k (indexOf l k v) = v)

/-- R83: the default labelling is the binary-reflected Gray code; its tables for 2, 4 and 8 points; points
next to each other on the circle have labels that differ in one bit. -/
def Obligations.DefaultLabelsAreGray : Prop :=
  (∀ k j, labelOf .gray k j = j ^^^ (j >>> 1)) ∧
  (∀ k v, indexOf .gray k v = (List.range k).foldl (fun a i => a ^^^ (v >>> i)) 0) ∧
  (∀ k v, v < 2 ^ k → labelOf .gray k (indexOf .gray k v) = v) ∧
  (List.range 2).map (labelOf .gray 1) = [0, 1] ∧
  (List.range 4).map (labelOf .gray 2) = [0, 1, 3, 2] ∧
  (List.range 8).map (labelOf .gray 3) = [0, 1, 3, 2, 6, 7, 5, 4] ∧
  (∀ k j, 1 ≤ k → j < 2 ^ k →
    ∃ i, i < k ∧ labelOf .gray k j ^^^ labelOf .gray k ((j + 1) % 2 ^ k) = 2 ^ i)

/-- R80: every coordinate of every table is the one rounding of the exact cosine or sine, and an exact 0 is
`+0`. -/
def Obligations.TableIsCorrectlyRounded : Prop :=
  ∀ (p : Params) (order : Nat) (phase : F64) (j : Nat), LegalOrder p order → isFinite phase = true → j < order →
    ∃ a : Sym, (constellation order phase)[j]? = some a ∧
      IsRN (Real.cos (pointAngle phase order j)) a.re ∧ IsRN (Real.sin (pointAngle phase order j)) a.im

/-- R80, R87: a table has as many points as its order, all finite, all of squared magnitude within `2^-52`
of 1; before rounding, neighbours are `2π/M` apart. -/
def Obligations.PointsHaveUnitMagnitude : Prop :=
  ∀ (p : Params) (order : Nat) (phase : F64), LegalOrder p order → isFinite phase = true →
    (constellation order phase).length = order ∧
    (∀ j, pointAngle phase order (j + 1) - pointAngle phase order j = 2 * Real.pi / order) ∧
    ∀ a ∈ constellation order phase, isFinite a.re = true ∧ isFinite a.im = true ∧
      |realValue a.re ^ 2 + realValue a.im ^ 2 - 1| ≤ (2 : ℝ)⁻¹ ^ 52

/-- R87: before rounding the points sum to exactly 0; after it, each coordinate of the sum has magnitude at
most `M·2^-53`. -/
def Obligations.PointsAreBalanced : Prop :=
  ∀ (p : Params) (order : Nat) (phase : F64), LegalOrder p order → isFinite phase = true →
    ((List.range order).map fun j => Real.cos (pointAngle phase order j)).sum = 0 ∧
    ((List.range order).map fun j => Real.sin (pointAngle phase order j)).sum = 0 ∧
    |((constellation order phase).map fun a => realValue a.re).sum| ≤ order * (2 : ℝ)⁻¹ ^ 53 ∧
    |((constellation order phase).map fun a => realValue a.im).sum| ≤ order * (2 : ℝ)⁻¹ ^ 53

/-- R87: the rounded points of a table are pairwise at a positive distance. -/
def Obligations.PointsAreDistinct : Prop :=
  ∀ (p : Params) (order : Nat) (phase : F64) (i j : Nat) (a b : Sym), p.wf → LegalOrder p order →
    isFinite phase = true → i < j →
    (constellation order phase)[i]? = some a → (constellation order phase)[j]? = some b → 0 < realDist2 a b

/-! ## The channel -/

/-- R102: `CHCFG` on a positive SNR and a finite positive power loads the whole register, the power being
1.0 when absent; on any other it raises `INVALID_CONFIGURATION`. -/
def Obligations.ChcfgConfigures : Prop :=
  (∀ (s : State) (snr : F64) (sp : Option F64), Positive snr → isFinite (sp.getD oneF64) = true →
    Positive (sp.getD oneF64) →
    exec (.chcfg snr sp) s = .next { s with ch := some ⟨snr, sp.getD oneF64⟩, rsp := s.rsp ++ [⟨.ok, []⟩] }) ∧
  (∀ (s : State) (snr : F64) (sp : Option F64),
    ¬ (Positive snr ∧ isFinite (sp.getD oneF64) = true ∧ Positive (sp.getD oneF64)) →
    exec (.chcfg snr sp) s = .next { s with rsp := s.rsp ++ [⟨.invalidConfiguration, []⟩] }) ∧
  oneF64 = 0x3FF0000000000000 ∧ realValue oneF64 = 1 ∧ Positive plusInf ∧ Positive 0x0000000000000001 ∧
  ¬ Positive 0 ∧ ¬ Positive 0x8000000000000000 ∧ ¬ Positive minusInf ∧ ¬ Positive 0x7FF8000000000000

/-- R104, R106: an `AWGN` past its checks that meets `2N` finite draws consumes exactly these, gives symbol
`i` the draws `2i` and `2i + 1`, and answers `OK`. Nothing else changes. -/
def Obligations.AwgnAddsNoise : Prop :=
  ∀ (s : State) (cfg : ChCfg) (n : Nat) (syms : List Sym) (zs : List F64) (rest : List Answer),
    s.ch = some cfg → syms.length = n → FiniteSyms syms →
    s.gauss = zs.map Answer.value ++ rest → zs.length = 2 * n → (∀ z ∈ zs, isFinite z = true) →
    exec (.awgn n syms) s = .next { s with
      gauss := rest
      drawn := s.drawn + 2 * n
      rsp := s.rsp ++ [⟨.ok, (List.range n).map fun i =>
        .sym ⟨noisy cfg (syms.getD i ⟨0, 0⟩).re (zs.getD (2 * i) 0),
              noisy cfg (syms.getD i ⟨0, 0⟩).im (zs.getD (2 * i + 1) 0)⟩⟩] }

/-- R106: an `AWGN` on an unconfigured channel raises `NOT_CONFIGURED`, and one with a wrong count or a
component that is not finite raises `INVALID_INPUT`; neither issues a draw. -/
def Obligations.AwgnChecksItsInput : Prop :=
  ∀ (s : State) (n : Nat) (syms : List Sym),
    (s.ch = none → exec (.awgn n syms) s = .next { s with rsp := s.rsp ++ [⟨.notConfigured, []⟩] }) ∧
    (s.ch ≠ none → syms.length ≠ n ∨ ¬ FiniteSyms syms →
      exec (.awgn n syms) s = .next { s with rsp := s.rsp ++ [⟨.invalidInput, []⟩] })

/-- R143, R106: the first draw answered `UNAVAILABLE` or by a value that is not finite ends the command with
`RANDOM_SOURCE`; that draw and those before it stay consumed. -/
def Obligations.AwgnReportsTheSource : Prop :=
  ∀ (s : State) (cfg : ChCfg) (n : Nat) (syms : List Sym) (zs : List F64) (a : Answer) (rest : List Answer),
    s.ch = some cfg → syms.length = n → FiniteSyms syms → s.gauss = zs.map Answer.value ++ a :: rest →
    zs.length < 2 * n → (∀ z ∈ zs, isFinite z = true) → a.Fails →
    exec (.awgn n syms) s = .next { s with
      gauss := rest, drawn := s.drawn + zs.length + 1, rsp := s.rsp ++ [⟨.randomSource, []⟩] }

/-- R167: an `AWGN` with a draw that the source does not answer waits with no response, and the block is
stuck until it is answered or reset. That the reset is one that is the next event is the model's choice (log
entry 15). -/
def Obligations.UnansweredDrawLeavesTheBlockStuck : Prop :=
  (∀ (s : State) (cfg : ChCfg) (n : Nat) (syms : List Sym) (zs : List F64),
    s.ch = some cfg → syms.length = n → FiniteSyms syms → s.gauss = zs.map Answer.value →
    zs.length < 2 * n → (∀ z ∈ zs, isFinite z = true) →
    exec (.awgn n syms) s = .next { s with
      gauss := [], drawn := s.drawn + zs.length, wait := some ⟨cfg, syms, zs⟩ }) ∧
  (∀ (s : State) (w : Wait), s.wait = some w → w.zs.length < 2 * w.syms.length → s.gauss = [] →
    (∀ rest, s.input ≠ .rst :: rest) → step s = .next s)

/-- R48, R104, R143, R147: when the source answers at last, the waiting `AWGN` goes on where it stood. With all
the draws it lacks its response is the one of the whole draw sequence; a failing answer ends it with
`RANDOM_SOURCE`, and the answers up to that one stay consumed; with too few it holds them and waits on. That an
`RST` which is the next event comes first is the model's choice (log entries 3, 15). -/
def Obligations.WaitingAwgnResumes : Prop :=
  ∀ (s : State) (w : Wait) (zs : List F64) (rest : List Answer), s.wait = some w →
    (∀ more, s.input ≠ .rst :: more) → (∀ z ∈ zs, isFinite z = true) → s.gauss = zs.map Answer.value ++ rest →
    (w.zs.length + zs.length = 2 * w.syms.length →
      step s = .next { s with
        wait := none
        gauss := rest
        drawn := s.drawn + zs.length
        rsp := s.rsp ++ [⟨.ok, (List.range w.syms.length).map fun i =>
          .sym ⟨noisy w.cfg (w.syms.getD i ⟨0, 0⟩).re ((w.zs ++ zs).getD (2 * i) 0),
                noisy w.cfg (w.syms.getD i ⟨0, 0⟩).im ((w.zs ++ zs).getD (2 * i + 1) 0)⟩⟩] }) ∧
    (∀ (a : Answer) (after : List Answer), w.zs.length + zs.length < 2 * w.syms.length → rest = a :: after →
      a.Fails →
      step s = .next { s with
        wait := none
        gauss := after
        drawn := s.drawn + zs.length + 1
        rsp := s.rsp ++ [⟨.randomSource, []⟩] }) ∧
    (w.zs.length + zs.length < 2 * w.syms.length → rest = [] →
      step s = .next { s with
        wait := some { w with zs := w.zs ++ zs }
        gauss := []
        drawn := s.drawn + zs.length })

/-- R105: the component passes bit for bit when `σ·⟦z⟧ = 0`; otherwise the result is the one rounding of
`⟦s⟧ + σ·⟦z⟧`, with `σ` the exact real of R101. -/
def Obligations.NoisyRoundsOnce : Prop :=
  ∀ (cfg : ChCfg) (s z : F64), cfg.Legal → isFinite s = true → isFinite z = true →
    (noiseSigma cfg * realValue z = 0 → noisy cfg s z = s) ∧
    (noiseSigma cfg * realValue z ≠ 0 → IsRN (realValue s + noiseSigma cfg * realValue z) (noisy cfg s z)) ∧
    (noiseSigma cfg * realValue z = 0 ↔ cfg.snr = plusInf ∨ isZero z = true)

/-- R100, R105, R107: what `AWGN` answers for a component is the one rounding of its pre-rounding sum, or the
component itself where the sum is that component; and under the source contract of R103 the pre-rounding parts
of a noisy symbol are independent Gaussians around the symbol's parts, each of variance `noise_power / 2`. -/
def Obligations.NoiseIsGaussian : Prop :=
  (∀ (cfg : ChCfg) (s z : F64), cfg.Legal → isFinite s = true → isFinite z = true →
    IsRN (realValue s + noiseSigma cfg * realValue z) (noisy cfg s z) ∨
    (realValue s + noiseSigma cfg * realValue z = realValue s ∧ noisy cfg s z = s)) ∧
  ∀ (cfg : ChCfg) (a : Sym), cfg.Legal → cfg.snr ≠ plusInf →
    ∃ v : NNReal, (v : ℝ) = realValue cfg.sp / realValue cfg.snr / 2 ∧
      MeasureTheory.Measure.map
        (fun z : ℝ × ℝ => (realValue a.re + noiseSigma cfg * z.1, realValue a.im + noiseSigma cfg * z.2))
        ((ProbabilityTheory.gaussianReal 0 1).prod (ProbabilityTheory.gaussianReal 0 1)) =
      (ProbabilityTheory.gaussianReal (realValue a.re) v).prod (ProbabilityTheory.gaussianReal (realValue a.im) v)

/-! ## The demodulator -/

/-- R120: `DMCFG` on a legal order and a finite phase loads the whole register, with the table a `MODCFG` of
the same operands loads; on any other it raises `INVALID_CONFIGURATION`. -/
def Obligations.DmcfgConfigures : Prop :=
  (∀ (s : State) (order : Nat) (phase : F64), LegalOrder s.params order → isFinite phase = true →
    exec (.dmcfg order phase) s =
      .next { s with dm := some ⟨order, phase, constellation order phase⟩, rsp := s.rsp ++ [⟨.ok, []⟩] }) ∧
  (∀ (s : State) (order : Nat) (phase : F64), ¬ LegalOrder s.params order ∨ isFinite phase = false →
    exec (.dmcfg order phase) s = .next { s with rsp := s.rsp ++ [⟨.invalidConfiguration, []⟩] }) ∧
  (∀ (s t u : State) (order : Nat) (phase : F64), exec (.modcfg order phase) s = .next t →
    t.rsp = s.rsp ++ [⟨.ok, []⟩] → exec (.dmcfg order phase) t = .next u → u.dm = u.mod)

/-- R123: `DEMODULATE` emits, for each symbol in order, the label of the decided point, most significant bit
first; it checks the unit, the count and the components. Everything but the response stays. It speaks of every
register: that an empty table, which no run holds, decides index 0 is log entry 8's. -/
def Obligations.DemodulateEmitsLabels : Prop :=
  ∀ (s : State) (n : Nat) (syms : List Sym),
    (s.dm = none → exec (.demodulate n syms) s = .next { s with rsp := s.rsp ++ [⟨.notConfigured, []⟩] }) ∧
    ∀ cfg, s.dm = some cfg →
      (syms.length ≠ n ∨ ¬ FiniteSyms syms →
        exec (.demodulate n syms) s = .next { s with rsp := s.rsp ++ [⟨.invalidInput, []⟩] }) ∧
      (syms.length = n → FiniteSyms syms → ∃ bits : List Bit, bits.length = n * cfg.order.log2 ∧
        (∀ i b, i < n → b < cfg.order.log2 → bits[i * cfg.order.log2 + b]? = some
          ((labelOf s.params.label cfg.order.log2 (nearestPoint cfg.pts (syms.getD i ⟨0, 0⟩))).testBit
            (cfg.order.log2 - 1 - b))) ∧
        exec (.demodulate n syms) s = .next { s with rsp := s.rsp ++ [⟨.ok, bits.map Item.bit⟩] })

/-- R121: the decided index is the least among those at the least exact distance. -/
def Obligations.DecisionIsLeastNearest : Prop :=
  ∀ (pts : List Sym) (r : Sym), pts ≠ [] →
    nearestPoint pts r < pts.length ∧
    (∀ i, i < pts.length →
      realDist2 r (pts.getD (nearestPoint pts r) ⟨0, 0⟩) ≤ realDist2 r (pts.getD i ⟨0, 0⟩)) ∧
    (∀ i, i < nearestPoint pts r →
      realDist2 r (pts.getD (nearestPoint pts r) ⟨0, 0⟩) < realDist2 r (pts.getD i ⟨0, 0⟩))

/-- R121, R123: a decision reads only the exact values of a symbol, and its region is star-shaped about its
own point: what lies on the way from a received symbol to the point it is decided as is decided alike. -/
def Obligations.DecisionRegionsAreStarShaped : Prop :=
  ∀ (pts : List Sym) (r r' : Sym) (q : ℝ), pts ≠ [] → 0 ≤ q → q ≤ 1 →
    (∀ i j, i < j → j < pts.length → 0 < realDist2 (pts.getD i ⟨0, 0⟩) (pts.getD j ⟨0, 0⟩)) →
    realValue r'.re = realValue (pts.getD (nearestPoint pts r) ⟨0, 0⟩).re +
      q * (realValue r.re - realValue (pts.getD (nearestPoint pts r) ⟨0, 0⟩).re) →
    realValue r'.im = realValue (pts.getD (nearestPoint pts r) ⟨0, 0⟩).im +
      q * (realValue r.im - realValue (pts.getD (nearestPoint pts r) ⟨0, 0⟩).im) →
    nearestPoint pts r' = nearestPoint pts r

/-- R107, the exact-real idealisation: the decision on reals is that of `DEMODULATE` on what a symbol holds, and
under the source contract of R103 a transmitted point is mistaken for another no less often when the SNR
falls. -/
def Obligations.SymbolErrorsGrowAsSnrFalls : Prop :=
  (∀ (pts : List Sym) (r : Sym) (j : Nat), j < pts.length →
    (nearestPoint pts r = j ↔ RealDecided pts (realValue r.re) (realValue r.im) j)) ∧
  (∀ (a b : ChCfg) (pts : List Sym) (j : Nat), a.Legal → b.Legal → a.sp = b.sp →
    a.snr = plusInf ∨ (b.snr ≠ plusInf ∧ realValue b.snr ≤ realValue a.snr) → j < pts.length →
    (∀ i, i < pts.length → i ≠ j → 0 < realDist2 (pts.getD j ⟨0, 0⟩) (pts.getD i ⟨0, 0⟩)) →
    (ProbabilityTheory.gaussianReal 0 1).prod (ProbabilityTheory.gaussianReal 0 1)
        {z | ¬ RealDecided pts (realValue (pts.getD j ⟨0, 0⟩).re + noiseSigma a * z.1)
          (realValue (pts.getD j ⟨0, 0⟩).im + noiseSigma a * z.2) j} ≤
      (ProbabilityTheory.gaussianReal 0 1).prod (ProbabilityTheory.gaussianReal 0 1)
        {z | ¬ RealDecided pts (realValue (pts.getD j ⟨0, 0⟩).re + noiseSigma b * z.1)
          (realValue (pts.getD j ⟨0, 0⟩).im + noiseSigma b * z.2) j})

/-- R125: a demodulator configured unlike the modulator follows its own register alone: no error, and
`N·log2(S.dm.M)` bits whatever `S.mod` holds. -/
def Obligations.MismatchIsNotAnError : Prop :=
  ∀ (s : State) (cfg : PskCfg) (n : Nat) (syms : List Sym), s.dm = some cfg → syms.length = n → FiniteSyms syms →
    ∃ out : List Item, out.length = n * cfg.order.log2 ∧
      ∀ m : Option PskCfg, exec (.demodulate n syms) { s with mod := m } =
        .next { s with mod := m, rsp := s.rsp ++ [⟨.ok, out⟩] }

/-- R124: with `S.mod` and `S.dm` configured alike, `DEMODULATE` of what `MODULATE` answered is the
message, for every labelling. -/
def Obligations.NoiselessRoundTrip : Prop :=
  ∀ (s : State) (cfg : PskCfg) (bits : List Bit), s.params.wf → s.mod = some cfg → s.dm = some cfg →
    cfg.Legal s.params → bits.length % cfg.order.log2 = 0 → bits.length < 2 ^ 24 →
    ∃ (syms : List Sym) (t u : State), syms.length = bits.length / cfg.order.log2 ∧
      exec (.modulate bits.length bits) s = .next t ∧ t.rsp = s.rsp ++ [⟨.ok, syms.map Item.sym⟩] ∧
      exec (.demodulate syms.length syms) t = .next u ∧ u.rsp = t.rsp ++ [⟨.ok, bits.map Item.bit⟩]

/-- R124 through the channel: with an infinite SNR and a source that supplies finite draws, what `MODULATE`
answered passes `AWGN` bit for bit, at the price of two draws a symbol, and `DEMODULATE` gives the
message. -/
def Obligations.NoiselessRoundTripThroughChannel : Prop :=
  ∀ (s : State) (cfg : PskCfg) (sp : F64) (bits : List Bit) (zs : List F64) (rest : List Answer),
    s.params.wf → s.mod = some cfg → s.dm = some cfg → s.ch = some ⟨plusInf, sp⟩ → cfg.Legal s.params →
    bits.length % cfg.order.log2 = 0 → bits.length < 2 ^ 24 → s.gauss = zs.map Answer.value ++ rest →
    zs.length = 2 * (bits.length / cfg.order.log2) → (∀ z ∈ zs, isFinite z = true) →
    ∃ (syms : List Sym) (t u v : State), exec (.modulate bits.length bits) s = .next t ∧
      t.rsp = s.rsp ++ [⟨.ok, syms.map Item.sym⟩] ∧
      exec (.awgn syms.length syms) t = .next u ∧ u.rsp = t.rsp ++ [⟨.ok, syms.map Item.sym⟩] ∧
      u.drawn = s.drawn + zs.length ∧ u.gauss = rest ∧
      exec (.demodulate syms.length syms) u = .next v ∧ v.rsp = u.rsp ++ [⟨.ok, bits.map Item.bit⟩]

end
end

