-- ==== Sys2Proof/Laws/Assembler.lean ====
section
/-! SUPPORT. What the assembler's check lets through (`30_encoding.md` R65). -/

namespace Sys2Proof.Machine

theorem fitsArg_of_lt {n : Nat} (h : n < 2 ^ 24) : fitsArg n = true := decide_eq_true h

theorem encodeChecked_of_wf {i : Instr} (h : i.wf = true) : encodeChecked i = some (encode i) := by
  unfold encodeChecked; rw [if_pos h]

theorem encodeChecked_eq_some_iff {i : Instr} {c : Cmd} :
    encodeChecked i = some c ↔ i.wf = true ∧ c = encode i := by
  unfold encodeChecked
  split
  · next h =>
    constructor
    · intro e
      exact ⟨h, (Option.some.inj e).symm⟩
    · intro e
      rw [e.2]
  · next h =>
    constructor
    · intro e
      cases e
    · intro e
      exact absurd e.1 h

end Sys2Proof.Machine
end

