-- ==== Sys2Proof/Laws/Binary64.lean ====
section
/-! SUPPORT. The rounding of `Machine/Binary64.lean` is the rounding of `00_scope.md` R8, and its square root
is the floor of the square root. The cited lemmas are `isRN_roundFloor`, `isRN_roundRatio` and
`floorSqrt_eq_sqrt`; the others lead to them. -/

namespace Sys2Proof.Machine

theorem halvingLog2_eq_log2 (k : Nat) : ∀ n, n < 2 ^ 2 ^ k → halvingLog2 n k = n.log2 := by
  induction k with
  | zero =>
    intro n hn
    have : n = 0 ∨ n = 1 := by norm_num at hn; omega
    rcases this with rfl | rfl <;> rfl
  | succ k ih =>
    intro n hn
    have hsq : (2 : Nat) ^ 2 ^ (k + 1) = 2 ^ 2 ^ k * 2 ^ 2 ^ k := by rw [← pow_add]; congr 1; ring
    unfold halvingLog2
    split
    · rename_i h
      have hd : n / 2 ^ 2 ^ k < 2 ^ 2 ^ k := Nat.div_lt_of_lt_mul (by rwa [← hsq])
      rw [ih _ hd]
      have hpos : n / 2 ^ 2 ^ k ≠ 0 := by
        have := Nat.div_pos h (by positivity)
        omega
      have hn0 : n ≠ 0 := by
        have := Nat.two_pow_pos (2 ^ k)
        omega
      symm
      rw [Nat.log2_eq_iff hn0]
      have h1 := (Nat.log2_eq_iff hpos).mp rfl
      have hp : 0 < 2 ^ 2 ^ k := Nat.two_pow_pos _
      constructor
      · rw [pow_add]
        calc 2 ^ 2 ^ k * 2 ^ (n / 2 ^ 2 ^ k).log2 ≤ 2 ^ 2 ^ k * (n / 2 ^ 2 ^ k) := Nat.mul_le_mul_left _ h1.1
          _ ≤ n := Nat.mul_div_le _ _
      · have := h1.2
        rw [Nat.div_lt_iff_lt_mul hp] at this
        calc n < _ := this
          _ = _ := by rw [← pow_add]; congr 1; ring
    · exact ih _ (by omega)

theorem floorLog2_eq_log2 (n : Nat) : floorLog2 n = n.log2 := by
  unfold floorLog2
  split
  · exact halvingLog2_eq_log2 13 n ‹_›
  · rfl

theorem droppedBits_pos (q : Nat) : 1 ≤ droppedBits q := by unfold droppedBits; omega

theorem kept_lt (q : Nat) : q / 2 ^ droppedBits q < 2 ^ 53 := by
  rw [Nat.div_lt_iff_lt_mul (Nat.two_pow_pos _), ← pow_add]
  refine lt_of_lt_of_le (Nat.lt_log2_self) ?_
  apply Nat.pow_le_pow_right (by norm_num)
  unfold droppedBits; rw [floorLog2_eq_log2]; omega

theorem le_kept {q : Nat} (h : 1 < droppedBits q) : 2 ^ 52 ≤ q / 2 ^ droppedBits q := by
  rw [Nat.le_div_iff_mul_le (Nat.two_pow_pos _), ← pow_add]
  have hq : q ≠ 0 := by
    rintro rfl; simp [droppedBits, floorLog2_eq_log2] at h
  refine le_trans ?_ (Nat.log2_self_le hq)
  apply Nat.pow_le_pow_right (by norm_num)
  unfold droppedBits at h ⊢; rw [floorLog2_eq_log2] at h ⊢; omega

/-- magnitude of bits below the sign -/
def bitsMagnitude (n : Nat) : Nat := if n / 2 ^ 52 = 0 then n else (2 ^ 52 + n % 2 ^ 52) * 2 ^ (n / 2 ^ 52 - 1)

theorem bitsMagnitude_significand {d m : Nat} (hd : 1 ≤ d) (hm : m ≤ 2 ^ 53) (h : d = 1 ∨ 2 ^ 52 ≤ m) :
    bitsMagnitude ((d - 1) * 2 ^ 52 + m) = m * 2 ^ (d - 1) := by
  obtain ⟨e, rfl⟩ : ∃ e, d = e + 1 := ⟨d - 1, by omega⟩
  simp only [Nat.add_sub_cancel]
  unfold bitsMagnitude
  by_cases h1 : m < 2 ^ 52
  · have he : e = 0 := by omega
    subst he
    have h5 : (0 * 2 ^ 52 + m) / 2 ^ 52 = 0 := by omega
    rw [if_pos h5]; simp
  · push Not at h1
    by_cases h2 : m = 2 ^ 53
    · subst h2
      have : (e * 2 ^ 52 + 2 ^ 53) / 2 ^ 52 = e + 2 := by omega
      have h3 : (e * 2 ^ 52 + 2 ^ 53) % 2 ^ 52 = 0 := by omega
      rw [this, h3]
      simp [pow_succ]; ring
    · have : (e * 2 ^ 52 + m) / 2 ^ 52 = e + 1 := by omega
      have h3 : (e * 2 ^ 52 + m) % 2 ^ 52 = m - 2 ^ 52 := by omega
      rw [this, h3]
      rw [if_neg (Nat.succ_ne_zero e), Nat.add_sub_cancel' h1, Nat.add_sub_cancel]

theorem exponentField_eq (x : F64) : exponentField x = x.toNat / 2 ^ 52 % 2 ^ 11 := by
  simp [exponentField, BitVec.extractLsb'_toNat, Nat.shiftRight_eq_div_pow]

theorem fractionField_eq (x : F64) : fractionField x = x.toNat % 2 ^ 52 := by
  simp [fractionField, BitVec.extractLsb'_toNat]

theorem signBit_eq (x : F64) : signBit x = decide (2 ^ 63 ≤ x.toNat) := by
  have h := x.isLt
  rw [signBit, BitVec.getLsbD, Nat.testBit_eq_decide_div_mod_eq]
  congr 1
  apply propext
  omega

theorem isFinite_iff (x : F64) : isFinite x = true ↔ x.toNat / 2 ^ 52 % 2 ^ 11 ≠ 2047 := by
  simp [isFinite, exponentField_eq]

theorem magnitude_eq (x : F64) : magnitude x = bitsMagnitude (x.toNat % 2 ^ 63) := by
  rw [magnitude, bitsMagnitude, exponentField_eq, fractionField_eq]
  have h1 : x.toNat % 2 ^ 63 / 2 ^ 52 = x.toNat / 2 ^ 52 % 2 ^ 11 := by omega
  have h2 : x.toNat % 2 ^ 63 % 2 ^ 52 = x.toNat % 2 ^ 52 := by omega
  rw [h1, h2]
  split
  · omega
  · rfl

theorem withSign_toNat {s : Bool} {n : Nat} (h : n < 2 ^ 63) :
    (withSign s n).toNat = (if s then 2 ^ 63 else 0) + n := by
  unfold withSign
  rw [BitVec.toNat_ofNat]
  cases s <;> simp <;> omega

theorem magnitude_withSign {s : Bool} {n : Nat} (h : n < 2 ^ 63) : magnitude (withSign s n) = bitsMagnitude n := by
  rw [magnitude_eq, withSign_toNat h]
  congr 1
  cases s <;> simp <;> omega

theorem signBit_withSign {s : Bool} {n : Nat} (h : n < 2 ^ 63) : signBit (withSign s n) = s := by
  rw [signBit_eq, withSign_toNat h]
  cases s <;> simp <;> omega

theorem isFinite_withSign {s : Bool} {n : Nat} (h : n < 2047 * 2 ^ 52) : isFinite (withSign s n) = true := by
  rw [isFinite_iff, withSign_toNat (by omega)]
  cases s <;> simp <;> omega

theorem roundMagnitude_lt (q : Nat) (b : Bool) : roundMagnitude q b < 2 ^ 63 := by
  unfold roundMagnitude; simp only; omega

/-- kept significand after rounding -/
def significand (q : Nat) (b : Bool) : Nat := q / 2 ^ droppedBits q + (roundsUp q (droppedBits q) b).toNat

theorem significand_le (q : Nat) (b : Bool) : significand q b ≤ 2 ^ 53 := by
  have := kept_lt q
  have h2 := Bool.toNat_le (roundsUp q (droppedBits q) b)
  unfold significand; omega

theorem significand_ge (q : Nat) (b : Bool) : droppedBits q = 1 ∨ 2 ^ 52 ≤ significand q b := by
  have h1 := droppedBits_pos q
  by_cases h : droppedBits q = 1
  · exact .inl h
  · right
    have := le_kept (q := q) (by omega)
    unfold significand; omega

theorem roundMagnitude_eq (q : Nat) (b : Bool) :
    roundMagnitude q b = min (2047 * 2 ^ 52) ((droppedBits q - 1) * 2 ^ 52 + significand q b) := by
  unfold roundMagnitude significand; simp only [Nat.add_assoc]; rfl

theorem value_gap (q n : Nat) :
    2 * bitsMagnitude n ≤ q / 2 ^ droppedBits q * 2 ^ droppedBits q ∨
      (q / 2 ^ droppedBits q + 1) * 2 ^ droppedBits q ≤ 2 * bitsMagnitude n := by
  obtain ⟨F, E, hE, hF, hU⟩ : ∃ F E, 1 ≤ E ∧ F < 2 ^ 53 ∧ 2 * bitsMagnitude n = F * 2 ^ E := by
    unfold bitsMagnitude
    split
    · exact ⟨n, 1, le_refl _, by omega, by ring⟩
    · rename_i h
      refine ⟨2 ^ 52 + n % 2 ^ 52, n / 2 ^ 52, by omega, by omega, ?_⟩
      obtain ⟨e, he⟩ : ∃ e, n / 2 ^ 52 = e + 1 := ⟨n / 2 ^ 52 - 1, by omega⟩
      rw [he, Nat.add_sub_cancel, pow_succ]; ring
  rw [hU]
  have h1 := droppedBits_pos q
  by_cases hd : droppedBits q ≤ E
  · obtain ⟨c, rfl⟩ := Nat.exists_eq_add_of_le hd
    have : F * 2 ^ (droppedBits q + c) = (F * 2 ^ c) * 2 ^ droppedBits q := by rw [pow_add]; ring
    rw [this]
    rcases Nat.lt_or_ge (q / 2 ^ droppedBits q) (F * 2 ^ c) with h | h
    · exact .inr (Nat.mul_le_mul_right _ h)
    · exact .inl (Nat.mul_le_mul_right _ h)
  · left
    push Not at hd
    have hm := le_kept (q := q) (by omega)
    obtain ⟨c, hc⟩ := Nat.exists_eq_add_of_lt hd
    calc F * 2 ^ E ≤ 2 ^ 53 * 2 ^ E := Nat.mul_le_mul_right _ hF.le
      _ ≤ 2 ^ 53 * 2 ^ (E + c) := Nat.mul_le_mul_left _ (Nat.pow_le_pow_right (by norm_num) (by omega))
      _ = 2 ^ 52 * 2 ^ droppedBits q := by
        rw [hc]; generalize E + c = z; rw [pow_succ 2 z]; ring
      _ ≤ _ := Nat.mul_le_mul_right _ hm

/-- the value rounded to, in units of `2^-1075` -/
theorem rounding_cases (q : Nat) (b : Bool) (T : ℝ) (h0 : (q : ℝ) ≤ T) (h1 : T < q + 1) (hb : b = true ↔ T ≠ q) :
    ∀ d m, droppedBits q = d → q / 2 ^ d = m →
    (significand q b = m ∧ T - (m * 2 ^ d : ℕ) ≤ 2 ^ (d - 1) ∧ (T - (m * 2 ^ d : ℕ) = 2 ^ (d - 1) → m % 2 = 0)) ∨
    (significand q b = m + 1 ∧ ((m + 1) * 2 ^ d : ℕ) - T ≤ 2 ^ (d - 1) ∧
      (((m + 1) * 2 ^ d : ℕ) - T = 2 ^ (d - 1) → m % 2 = 1)) := by
  intro d m hD hM
  have hd : 1 ≤ d := hD ▸ droppedBits_pos q
  obtain ⟨e, he⟩ : ∃ e, d = e + 1 := ⟨d - 1, by omega⟩
  have hdm : 2 ^ d * m + q % 2 ^ d = q := hM ▸ Nat.div_add_mod q (2 ^ d)
  have h2 : (2 : Nat) ^ d = 2 * 2 ^ e := by rw [he, pow_succ]; ring
  set rem := q % 2 ^ d with hrem
  have hremlt : rem < 2 ^ d := Nat.mod_lt _ (Nat.two_pow_pos _)
  have hq : (q : ℝ) = (m * 2 ^ d : ℕ) + rem := by rw [← hdm]; push_cast; ring
  have hhi : (((m + 1) * 2 ^ d : ℕ) : ℝ) = (m * 2 ^ d : ℕ) + 2 * 2 ^ e := by
    rw [Nat.add_mul, Nat.one_mul, h2]; push_cast; ring
  have hde : d - 1 = e := by omega
  rw [hde, hhi]
  by_cases hup : roundsUp q d b = true
  · right
    have hs : significand q b = m + 1 := by unfold significand; rw [hD, hM, hup]; rfl
    refine ⟨hs, ?_⟩
    simp only [roundsUp, Bool.or_eq_true, Bool.and_eq_true, decide_eq_true_eq, beq_iff_eq, hde, hM] at hup
    rw [← hrem] at hup
    rcases hup with h | ⟨h, h'⟩
    · have : ((2 ^ e + 1 : ℕ) : ℝ) ≤ rem := by exact_mod_cast h
      push_cast at this
      constructor
      · linarith
      · intro; linarith
    · have hr : (rem : ℝ) = 2 ^ e := by rw [h]; push_cast; rfl
      constructor
      · linarith
      · intro ht
        have hTq : T = q := by linarith
        rcases h' with h' | h'
        · exact absurd hTq (hb.mp h')
        · exact h'
  · left
    have hs : significand q b = m := by unfold significand; rw [Bool.not_eq_true] at hup; rw [hD, hM, hup]; rfl
    refine ⟨hs, ?_⟩
    simp only [roundsUp, Bool.or_eq_true, Bool.and_eq_true, decide_eq_true_eq, beq_iff_eq, hde, hM, not_or, not_and] at hup
    rw [← hrem] at hup
    obtain ⟨hup1, hup2⟩ := hup
    rcases Nat.lt_or_ge rem (2 ^ e) with h | h
    · have : ((rem + 1 : ℕ) : ℝ) ≤ ((2 ^ e : ℕ) : ℝ) := by exact_mod_cast h
      push_cast at this
      constructor
      · linarith
      · intro; linarith
    · have hre : rem = 2 ^ e := by omega
      have hr : (rem : ℝ) = 2 ^ e := by rw [hre]; push_cast; rfl
      obtain ⟨h3, h4⟩ := hup2 hre
      have hTq : T = q := by
        by_contra hne; exact h3 (hb.mpr hne)
      constructor
      · linarith
      · intro _
        change ¬ (m % 2 = 1) at h4
        omega

theorem nearest_in_units (q : Nat) (b : Bool) (T : ℝ) (h0 : (q : ℝ) ≤ T) (h1 : T < q + 1) (hb : b = true ↔ T ≠ q)
    (n : Nat) :
    |T - (significand q b * 2 ^ droppedBits q : ℕ)| ≤ |T - (2 * bitsMagnitude n : ℕ)| ∧
    (|T - (2 * bitsMagnitude n : ℕ)| = |T - (significand q b * 2 ^ droppedBits q : ℕ)| →
      2 * bitsMagnitude n ≠ significand q b * 2 ^ droppedBits q → significand q b % 2 = 0) := by
  have hc := rounding_cases q b T h0 h1 hb _ _ rfl rfl
  have hg := value_gap q n
  set d := droppedBits q
  set m := q / 2 ^ d
  set U := 2 * bitsMagnitude n
  obtain ⟨e, he⟩ : ∃ e, d = e + 1 := ⟨d - 1, by have := droppedBits_pos q; omega⟩
  have hde : d - 1 = e := by omega
  simp only [hde] at hc
  have hhi : (((m + 1) * 2 ^ d : ℕ) : ℝ) = (m * 2 ^ d : ℕ) + 2 * 2 ^ e := by
    rw [Nat.add_mul, Nat.one_mul, he]; push_cast; ring
  have hlo : ((m * 2 ^ d : ℕ) : ℝ) ≤ T := le_trans (by exact_mod_cast Nat.div_mul_le_self q _) h0
  have hlt : T < ((m + 1) * 2 ^ d : ℕ) := by
    have : q + 1 ≤ (m + 1) * 2 ^ d := by
      have := Nat.lt_div_mul_add (a := q) (Nat.two_pow_pos d)
      rw [Nat.add_mul, Nat.one_mul]; exact this
    have h3 : ((q + 1 : ℕ) : ℝ) ≤ ((m + 1) * 2 ^ d : ℕ) := by exact_mod_cast this
    push_cast at h3 ⊢; linarith
  have hhalf : (0 : ℝ) < 2 ^ e := by positivity
  rcases hc with ⟨hs, hle, heq⟩ | ⟨hs, hle, heq⟩
  · rw [hs, abs_of_nonneg (by linarith : 0 ≤ T - ((m * 2 ^ d : ℕ) : ℝ))]
    rcases hg with hg | hg
    · have hg' : (U : ℝ) ≤ ((m * 2 ^ d : ℕ) : ℝ) := by exact_mod_cast hg
      rw [abs_of_nonneg (by linarith)]
      refine ⟨by linarith, fun h hne => absurd ?_ hne⟩
      have : (U : ℝ) = ((m * 2 ^ d : ℕ) : ℝ) := by linarith
      exact_mod_cast this
    · have hg' : (((m + 1) * 2 ^ d : ℕ) : ℝ) ≤ U := by exact_mod_cast hg
      rw [abs_of_nonpos (by linarith)]
      exact ⟨by linarith, fun h _ => heq (by linarith)⟩
  · rw [hs, abs_of_nonpos (by linarith : T - (((m + 1) * 2 ^ d : ℕ) : ℝ) ≤ 0)]
    rcases hg with hg | hg
    · have hg' : (U : ℝ) ≤ ((m * 2 ^ d : ℕ) : ℝ) := by exact_mod_cast hg
      rw [abs_of_nonneg (by linarith)]
      refine ⟨by linarith, fun h _ => ?_⟩
      have := heq (by linarith); omega
    · have hg' : (((m + 1) * 2 ^ d : ℕ) : ℝ) ≤ U := by exact_mod_cast hg
      rw [abs_of_nonpos (by linarith)]
      refine ⟨by linarith, fun h hne => absurd ?_ hne⟩
      have : (U : ℝ) = (((m + 1) * 2 ^ d : ℕ) : ℝ) := by linarith
      exact_mod_cast this

/-- overflow threshold in units of 2^-1075 -/
theorem overflow_iff (q : Nat) (b : Bool) (T : ℝ) (h0 : (q : ℝ) ≤ T) (h1 : T < q + 1) (hb : b = true ↔ T ≠ q) :
    2047 * 2 ^ 52 ≤ (droppedBits q - 1) * 2 ^ 52 + significand q b ↔ (2 ^ 54 - 1) * 2 ^ 2045 ≤ T := by
  have hc := rounding_cases q b T h0 h1 hb _ _ rfl rfl
  have hsle := significand_le q b
  have hklt := kept_lt q
  have hdp := droppedBits_pos q
  have hlo : ((q / 2 ^ droppedBits q * 2 ^ droppedBits q : ℕ) : ℝ) ≤ T := le_trans (by exact_mod_cast Nat.div_mul_le_self q _) h0
  have hlt : T < ((q / 2 ^ droppedBits q + 1) * 2 ^ droppedBits q : ℕ) := by
    have : q + 1 ≤ (q / 2 ^ droppedBits q + 1) * 2 ^ droppedBits q := by
      have := Nat.lt_div_mul_add (a := q) (Nat.two_pow_pos (droppedBits q))
      rw [Nat.add_mul, Nat.one_mul]; exact this
    have h3 : ((q + 1 : ℕ) : ℝ) ≤ ((q / 2 ^ droppedBits q + 1) * 2 ^ droppedBits q : ℕ) := by exact_mod_cast this
    push_cast at h3 ⊢; linarith
  have hge : droppedBits q = 1 ∨ 2 ^ 52 ≤ q / 2 ^ droppedBits q := by
    by_cases h : droppedBits q = 1
    · exact .inl h
    · exact .inr (le_kept (by omega))
  generalize hD : droppedBits q = d at *
  generalize hM : q / 2 ^ d = m at *
  clear hM hD h0 h1 hb
  rcases Nat.lt_trichotomy d 2046 with hlt' | heq | hgt
  · have hl : ¬ 2047 * 2 ^ 52 ≤ (d - 1) * 2 ^ 52 + significand q b := by omega
    have hr : ¬ (2 ^ 54 - 1) * 2 ^ 2045 ≤ T := by
      push Not
      have h3 : (m + 1) * 2 ^ d ≤ 2 ^ 53 * 2 ^ 2045 :=
        Nat.mul_le_mul (by omega) (Nat.pow_le_pow_right (by norm_num) (by omega))
      have h4 : (((m + 1) * 2 ^ d : ℕ) : ℝ) ≤ 2 ^ 53 * 2 ^ 2045 := by exact_mod_cast h3
      have h5 : (2 : ℝ) ^ 53 * 2 ^ 2045 ≤ (2 ^ 54 - 1) * 2 ^ 2045 :=
        mul_le_mul_of_nonneg_right (by norm_num) (by positivity)
      exact lt_of_lt_of_le hlt (h4.trans h5)
    exact ⟨fun h => absurd h hl, fun h => absurd h hr⟩
  · subst heq
    have hpos : (0 : ℝ) < 2 ^ 2045 := by positivity
    have hstep : (2 : ℝ) ^ 2046 = 2 * 2 ^ 2045 := by rw [pow_succ]; ring
    have hmul : ∀ a : ℕ, ((a * 2 ^ 2046 : ℕ) : ℝ) = 2 * a * 2 ^ 2045 := by
      intro a; push_cast; rw [hstep]; ring
    simp only [hmul] at hlo hlt hc
    generalize (2 : ℝ) ^ 2045 = K at *
    have hK : (2046 : ℕ) - 1 = 2045 := rfl
    rw [hK] at *
    constructor
    · intro h
      have hs : significand q b = 2 ^ 53 := by omega
      rcases hc with ⟨h', h2, _⟩ | ⟨h', h2, _⟩
      · omega
      · have hm : m = 2 ^ 53 - 1 := by omega
        have : (m : ℝ) = 2 ^ 53 - 1 := by rw [hm]; norm_num
        push_cast at h2; rw [this] at h2
        nlinarith
    · intro h
      have hm : m = 2 ^ 53 - 1 := by
        by_contra hne
        have : m + 1 ≤ 2 ^ 53 - 1 := by omega
        have h3 : ((m + 1 : ℕ) : ℝ) ≤ 2 ^ 53 - 1 := by
          have : ((m + 1 : ℕ) : ℝ) ≤ ((2 ^ 53 - 1 : ℕ) : ℝ) := by exact_mod_cast this
          refine le_trans this ?_; norm_num
        have h4 := mul_le_mul_of_nonneg_right h3 hpos.le
        clear hstep hmul hc
        generalize ((m + 1 : ℕ) : ℝ) = M at *
        nlinarith
      have hmr : (m : ℝ) = 2 ^ 53 - 1 := by rw [hm]; norm_num
      rcases hc with ⟨h', h2, h3⟩ | ⟨h', h2, _⟩
      · rw [hmr] at h2 h3
        have : T - 2 * (2 ^ 53 - 1) * K = K := by nlinarith
        have := h3 this
        omega
      · rw [h']; omega
  · have hm : 2 ^ 52 ≤ m := by omega
    have hsg : 2 ^ 52 ≤ significand q b := by
      have := significand_ge q b
      omega
    have hl : 2047 * 2 ^ 52 ≤ (d - 1) * 2 ^ 52 + significand q b := by omega
    have hr : (2 ^ 54 - 1) * 2 ^ 2045 ≤ T := by
      have h3 : 2 ^ 52 * 2 ^ 2047 ≤ m * 2 ^ d :=
        Nat.mul_le_mul hm (Nat.pow_le_pow_right (by norm_num) (by omega))
      have h4 : (2 : ℝ) ^ 52 * 2 ^ 2047 ≤ ((m * 2 ^ d : ℕ) : ℝ) := by exact_mod_cast h3
      have h5 : (2 : ℝ) ^ 52 * 2 ^ 2047 = 2 ^ 54 * 2 ^ 2045 := by rw [← pow_add, ← pow_add]
      have h6 : ((2 : ℝ) ^ 54 - 1) * 2 ^ 2045 ≤ 2 ^ 54 * 2 ^ 2045 :=
        mul_le_mul_of_nonneg_right (by norm_num) (by positivity)
      exact h6.trans ((h5 ▸ h4).trans hlo)
    exact ⟨fun _ => hr, fun _ => hl⟩

theorem realValue_eq (x : F64) :
    realValue x = (if signBit x then -1 else 1) * ((2 * magnitude x : ℕ) : ℝ) / 2 ^ 1075 := by
  have h : (2 : ℝ) ^ 1075 = 2 * 2 ^ 1074 := by rw [pow_succ]; ring
  have hp : (2 : ℝ) ^ 1074 ≠ 0 := by positivity
  unfold realValue exactValue
  rw [h]
  generalize (2 : ℝ) ^ 1074 = K at *
  split <;> push_cast <;> field_simp

theorem isFinite_roundMagnitude {q : Nat} {b s : Bool}
    (h : (droppedBits q - 1) * 2 ^ 52 + significand q b < 2047 * 2 ^ 52) :
    isFinite (withSign s (roundMagnitude q b)) = true := by
  apply isFinite_withSign
  rw [roundMagnitude_eq]; omega

theorem realValue_roundMagnitude {q : Nat} {b s : Bool}
    (h : (droppedBits q - 1) * 2 ^ 52 + significand q b < 2047 * 2 ^ 52) :
    realValue (withSign s (roundMagnitude q b)) =
      (if s then -1 else 1) * ((significand q b * 2 ^ droppedBits q : ℕ) : ℝ) / 2 ^ 1075 := by
  have hlt := roundMagnitude_lt q b
  rw [realValue_eq, signBit_withSign hlt, magnitude_withSign hlt, roundMagnitude_eq, min_eq_right h.le,
    bitsMagnitude_significand (droppedBits_pos q) (significand_le q b) (significand_ge q b)]
  have h2 : 2 * (significand q b * 2 ^ (droppedBits q - 1)) = significand q b * 2 ^ droppedBits q := by
    obtain ⟨e, he⟩ : ∃ e, droppedBits q = e + 1 := ⟨droppedBits q - 1, by have := droppedBits_pos q; omega⟩
    rw [he, Nat.add_sub_cancel, pow_succ]; ring
  rw [h2]

theorem threshold_units : overflowThreshold * 2 ^ 1075 = (2 ^ 54 - 1) * 2 ^ 2045 := by
  unfold overflowThreshold
  rw [sub_mul, sub_mul, ← pow_add, ← pow_add, ← pow_add]; norm_num

theorem isRN_of_units (s : Bool) (q : Nat) (b : Bool) (T : ℝ) (h0 : (q : ℝ) ≤ T) (h1 : T < q + 1)
    (hb : b = true ↔ T ≠ q) (hT : T ≠ 0 ∨ s = false) :
    IsRN ((if s then -1 else 1) * T / 2 ^ 1075) (withSign s (roundMagnitude q b)) := by
  have hK : (0 : ℝ) < 2 ^ 1075 := by positivity
  have hT0 : 0 ≤ T := le_trans (Nat.cast_nonneg q) h0
  have hov := overflow_iff q b T h0 h1 hb
  have hsgn : |(if s then (-1 : ℝ) else 1)| = 1 := by cases s <;> simp
  have habs : |(if s then -1 else 1) * T / 2 ^ 1075| = T / 2 ^ 1075 := by
    rw [abs_div, abs_mul, hsgn, abs_of_pos hK, abs_of_nonneg hT0, one_mul]
  have hthr : overflowThreshold ≤ T / 2 ^ 1075 ↔ (2 ^ 54 - 1) * 2 ^ 2045 ≤ T := by
    rw [le_div_iff₀ hK, threshold_units]
  -- distance to any finite value, in units
  have hdist : ∀ u : F64, ∃ n : ℕ, (realValue u = (if signBit u then -1 else 1) * ((2 * bitsMagnitude n : ℕ) : ℝ) / 2 ^ 1075) := by
    intro u
    exact ⟨u.toNat % 2 ^ 63, by rw [realValue_eq, magnitude_eq]⟩
  have hscale : ∀ (s' : Bool) (U : ℝ), |(if s then -1 else 1) * T / 2 ^ 1075 - (if s' then -1 else 1) * U / 2 ^ 1075| =
      |(if s then -1 else 1) * T - (if s' then -1 else 1) * U| / 2 ^ 1075 := by
    intro s' U; rw [← sub_div, abs_div, abs_of_pos hK]
  constructor
  · intro h
    have hz : T = 0 := by
      rw [div_eq_zero_iff] at h
      rcases h with h | h
      · rcases mul_eq_zero.mp h with h | h
        · cases s <;> simp at h
        · exact h
      · exact absurd h hK.ne'
    have hs : s = false := hT.resolve_left (by simp [hz])
    have hq : q = 0 := by
      have : (q : ℝ) ≤ 0 := hz ▸ h0
      exact_mod_cast le_antisymm this (Nat.cast_nonneg q)
    have hbf : b = false := by
      cases b
      · rfl
      · exact absurd hz (by have := hb.mp rfl; rw [hq] at this; simpa using this)
    subst hs hq hbf
    decide +kernel
  · intro h
    rw [habs, hthr, ← hov] at h
    have hr : roundMagnitude q b = 2047 * 2 ^ 52 := by rw [roundMagnitude_eq, min_eq_left h]
    rw [hr]
    have hTpos : 0 < T := by
      have := hov.mp h
      refine lt_of_lt_of_le ?_ this
      exact mul_pos (by norm_num) (by positivity)
    cases s
    · have : 0 < (if false = true then (-1 : ℝ) else 1) * T / 2 ^ 1075 := by
        simp only [Bool.false_eq_true, if_false, one_mul]; positivity
      rw [if_pos this]; decide +kernel
    · have : ¬ 0 < (if true = true then (-1 : ℝ) else 1) * T / 2 ^ 1075 := by
        simp only [if_true, not_lt, neg_mul, one_mul, neg_div]
        have : 0 < T / 2 ^ 1075 := by positivity
        linarith
      rw [if_neg this]; decide +kernel
  · intro h
    rw [habs, ← not_le, hthr, ← hov, not_le] at h
    refine ⟨isFinite_roundMagnitude h, fun u _ => ?_⟩
    obtain ⟨n, hu⟩ := hdist u
    rw [realValue_roundMagnitude h, hu, hscale, hscale]
    apply div_le_div_of_nonneg_right _ hK.le
    have hn := (nearest_in_units q b T h0 h1 hb n).1
    have hn0 := (nearest_in_units q b T h0 h1 hb 0).1
    have hz : ((2 * bitsMagnitude 0 : ℕ) : ℝ) = 0 := by simp [bitsMagnitude]
    rw [hz, sub_zero, abs_of_nonneg hT0] at hn0
    have hU : (0 : ℝ) ≤ ((2 * bitsMagnitude n : ℕ) : ℝ) := Nat.cast_nonneg _
    generalize ((2 * bitsMagnitude n : ℕ) : ℝ) = U at *
    generalize ((significand q b * 2 ^ droppedBits q : ℕ) : ℝ) = V at *
    have key : |T - V| ≤ |T + U| := hn0.trans (by rw [abs_of_nonneg (by linarith)]; linarith)
    cases s <;> cases signBit u <;> simp only [if_true, Bool.false_eq_true, if_false, one_mul, neg_mul]
    · exact hn
    · rwa [sub_neg_eq_add]
    · rw [show -T - -V = -(T - V) by ring, show -T - U = -(T + U) by ring, abs_neg, abs_neg]; exact key
    · rw [show -T - -V = -(T - V) by ring, show -T - -U = -(T - U) by ring, abs_neg, abs_neg]; exact hn
  · intro h u _ hne heq
    rw [habs, ← not_le, hthr, ← hov, not_le] at h
    obtain ⟨n, hu⟩ := hdist u
    rw [realValue_roundMagnitude h, hu, hscale, hscale, div_left_inj' hK.ne'] at heq
    rw [realValue_roundMagnitude h, hu, ne_eq, div_left_inj' hK.ne'] at hne
    have hn := (nearest_in_units q b T h0 h1 hb n)
    have hn0 := (nearest_in_units q b T h0 h1 hb 0)
    have hz : ((2 * bitsMagnitude 0 : ℕ) : ℝ) = 0 := by simp [bitsMagnitude]
    have hz' : 2 * bitsMagnitude 0 = 0 := by simp [bitsMagnitude]
    have hlsb : significand q b % 2 = 0 → (withSign s (roundMagnitude q b)).getLsbD 0 = false := by
      intro he
      rw [BitVec.getLsbD, withSign_toNat (roundMagnitude_lt q b), roundMagnitude_eq, min_eq_right h.le,
        Nat.testBit_zero]
      have h2 : ((droppedBits q - 1) * 2 ^ 52) % 2 = 0 := by
        rw [show (2 : ℕ) ^ 52 = 2 * 2 ^ 51 by norm_num, ← mul_assoc, mul_comm _ 2, mul_assoc]; exact Nat.mul_mod_right _ _
      clear hov h h0 h1 hb hn hn0 hthr
      generalize (droppedBits q - 1) * 2 ^ 52 = A at *
      generalize significand q b = B at *
      have h3 : ((if s = true then 2 ^ 63 else 0) + (A + B)) % 2 = 0 := by split <;> omega
      rw [h3]; rfl
    apply hlsb
    rw [hz, sub_zero, abs_of_nonneg hT0, hz'] at hn0
    have hU : (0 : ℝ) ≤ ((2 * bitsMagnitude n : ℕ) : ℝ) := Nat.cast_nonneg _
    have hnn := hn.2
    have hcast : ((2 * bitsMagnitude n : ℕ) : ℝ) = ((significand q b * 2 ^ droppedBits q : ℕ) : ℝ) ↔
        2 * bitsMagnitude n = significand q b * 2 ^ droppedBits q := Nat.cast_inj
    have hcast0 : ((significand q b * 2 ^ droppedBits q : ℕ) : ℝ) = 0 ↔ 0 = significand q b * 2 ^ droppedBits q := by
      rw [Nat.cast_eq_zero]; exact eq_comm
    generalize 2 * bitsMagnitude n = Un at *
    generalize significand q b * 2 ^ droppedBits q = Vn at *
    generalize (Un : ℝ) = U at *
    generalize (Vn : ℝ) = V at *
    have same : |T - U| = |T - V| → U ≠ V → significand q b % 2 = 0 := fun h1 h2 =>
      hnn h1 (fun h3 => h2 (hcast.mpr h3))
    -- opposite signs: U must be 0 in effect
    have opp : |T + U| = |T - V| → U ≠ -V → significand q b % 2 = 0 := by
      intro h1 h2
      rw [abs_of_nonneg (by linarith : 0 ≤ T + U)] at h1
      have hU0 : U = 0 := by linarith [hn0.1]
      refine hn0.2 (by rw [← h1, hU0, add_zero]) (fun h3 => h2 ?_)
      rw [hU0, hcast0.mpr h3, neg_zero]
    clear hu hdist hscale habs hsgn hlsb
    generalize signBit u = su at *
    cases s <;> cases su <;> simp only [if_true, Bool.false_eq_true, if_false, one_mul, neg_mul] at heq hne
    · exact same heq hne
    · exact opp (by rwa [sub_neg_eq_add] at heq) (fun h => hne (by rw [h, neg_neg]))
    · refine opp ?_ hne
      rw [show -T - -V = -(T - V) by ring, show -T - U = -(T + U) by ring, abs_neg, abs_neg] at heq; exact heq
    · refine same ?_ (fun h => hne (by rw [h]))
      rw [show -T - -V = -(T - V) by ring, show -T - -U = -(T - U) by ring, abs_neg, abs_neg] at heq; exact heq

theorem roundFloor_ofNat (q : Nat) (b : Bool) :
    roundFloor (Int.ofNat q) b = withSign false (roundMagnitude q b) := by rw [roundFloor]

theorem roundFloor_negSucc_inexact (q : Nat) :
    roundFloor (Int.negSucc q) true = withSign true (roundMagnitude q true) := by rw [roundFloor, if_pos rfl]

theorem roundFloor_negSucc_exact (q : Nat) :
    roundFloor (Int.negSucc q) false = withSign true (roundMagnitude (q + 1) false) := by
  rw [roundFloor, if_neg (by decide)]

/-- `roundFloor` is `RN`. -/
theorem isRN_roundFloor (r : ℝ) (n : ℤ) (b : Bool) (h0 : (n : ℝ) ≤ r * 2 ^ 1075) (h1 : r * 2 ^ 1075 < n + 1)
    (hb : b = true ↔ r * 2 ^ 1075 ≠ n) : IsRN r (roundFloor n b) := by
  have hK : (2 : ℝ) ^ 1075 ≠ 0 := by positivity
  obtain ⟨T, hT⟩ : ∃ T, r * 2 ^ 1075 = T := ⟨_, rfl⟩
  have hr : r = T / 2 ^ 1075 := by rw [← hT, mul_div_cancel_right₀ _ hK]
  rw [hT] at h0 h1 hb
  rw [hr]
  clear hr hT hK
  have pos : ∀ q : ℕ, (q : ℝ) ≤ T → T < q + 1 → (b = true ↔ T ≠ q) →
      IsRN (T / 2 ^ 1075) (withSign false (roundMagnitude q b)) := by
    intro q h0 h1 hb
    have := isRN_of_units false q b T h0 h1 hb (.inr rfl)
    rwa [if_neg (by decide), one_mul] at this
  have neg : ∀ (q : ℕ) (b' : Bool), (q : ℝ) ≤ -T → -T < q + 1 → (b' = true ↔ -T ≠ q) → T ≠ 0 →
      IsRN (T / 2 ^ 1075) (withSign true (roundMagnitude q b')) := by
    intro q b' h0 h1 hb h
    have := isRN_of_units true q b' (-T) h0 h1 hb (.inl (neg_ne_zero.mpr h))
    rwa [if_pos rfl, neg_one_mul, neg_neg] at this
  cases n with
  | ofNat q => rw [roundFloor_ofNat]; exact pos q h0 h1 hb
  | negSucc q =>
    have hc : ((Int.negSucc q : ℤ) : ℝ) = -((q : ℝ) + 1) := by rw [Int.cast_negSucc]; push_cast; ring
    rw [hc] at h0 h1 hb
    have hq : (0 : ℝ) ≤ q := Nat.cast_nonneg q
    cases b with
    | true =>
      rw [roundFloor_negSucc_inexact]
      refine neg q true (by linarith) ?_ ?_ (by intro h; linarith)
      · rcases lt_or_eq_of_le h0 with h | h
        · linarith
        · exact absurd h.symm (hb.mp rfl)
      · exact ⟨fun _ h => by linarith, fun _ => rfl⟩
    | false =>
      have hTe : T = -((q : ℝ) + 1) := by
        by_contra h
        exact absurd (hb.mpr h) (by decide)
      rw [roundFloor_negSucc_exact]
      refine neg (q + 1) false (by rw [hTe]; push_cast; linarith) (by rw [hTe]; push_cast; linarith) ?_
        (by intro h; linarith)
      exact ⟨fun h => absurd h (by decide), fun h => absurd (by rw [hTe]; push_cast; ring) h⟩

theorem isRN_roundRatio (num : ℤ) (den : ℕ) (hd : 0 < den) : IsRN ((num : ℝ) / den) (roundRatio num den) := by
  have hdr : (0 : ℝ) < den := by exact_mod_cast hd
  have hdz : (den : ℤ) ≠ 0 := by exact_mod_cast hd.ne'
  have hp : ((pow2 1075 : ℤ) : ℝ) = 2 ^ 1075 := by unfold pow2; push_cast; rfl
  have hN : (num : ℝ) / den * 2 ^ 1075 = ((num * pow2 1075 : ℤ) : ℝ) / den := by rw [Int.cast_mul, hp]; ring
  unfold roundRatio
  generalize num * pow2 1075 = N at *
  have hdm := Int.mul_ediv_add_emod N den
  have hm0 := Int.emod_nonneg N hdz
  have hm1 := Int.emod_lt_of_pos N (by exact_mod_cast hd : (0 : ℤ) < den)
  have hdmr : (den : ℝ) * ((N / den : ℤ) : ℝ) + ((N % den : ℤ) : ℝ) = N := by exact_mod_cast hdm
  have hm0r : (0 : ℝ) ≤ ((N % den : ℤ) : ℝ) := by exact_mod_cast hm0
  have hm1r : ((N % den : ℤ) : ℝ) < den := by exact_mod_cast hm1
  apply isRN_roundFloor
  · rw [hN, le_div_iff₀ hdr]; linarith
  · rw [hN, div_lt_iff₀ hdr]; linarith
  · rw [hN, ne_eq, div_eq_iff hdr.ne', bne_iff_ne, ne_eq, not_iff_not]
    constructor
    · intro h; rw [h] at hdmr; rw [← hdmr]; push_cast; ring
    · intro h
      have : ((N % den : ℤ) : ℝ) = 0 := by linarith
      exact_mod_cast this

theorem newtonSqrt_eq_sqrt (n fuel : Nat) : ∀ g, Nat.sqrt n ≤ g → g - Nat.sqrt n < 2 ^ fuel →
    newtonSqrt n fuel g = Nat.sqrt n := by
  induction fuel with
  | zero => intro g h1 h2; unfold newtonSqrt; simp only [Nat.pow_zero] at h2; omega
  | succ fuel ih =>
    intro g h1 h2
    have hs1 : Nat.sqrt n * Nat.sqrt n ≤ n := Nat.sqrt_le n
    have hs2 : n < (Nat.sqrt n + 1) * (Nat.sqrt n + 1) := Nat.lt_succ_sqrt n
    generalize Nat.sqrt n = s at *
    unfold newtonSqrt
    simp only
    rcases Nat.lt_or_ge s g with h | h
    · have hg : 0 < g := by omega
      have hle : n / g ≤ s := by
        rw [← Nat.lt_succ_iff, Nat.div_lt_iff_lt_mul hg]
        exact lt_of_lt_of_le hs2 (Nat.mul_le_mul_left _ h)
      have hge : 2 * s ≤ g + n / g := by
        rcases Nat.lt_or_ge (2 * s) g with h3 | h3
        · exact le_trans h3.le (Nat.le_add_right _ _)
        · obtain ⟨c, hc⟩ := Nat.exists_eq_add_of_le h3
          have : c ≤ n / g := by
            rw [Nat.le_div_iff_mul_le hg]
            refine le_trans ?_ hs1
            have h5 : (c : ℤ) = 2 * s - g := by omega
            zify; rw [h5]; nlinarith [sq_nonneg ((g : ℤ) - s)]
          omega
      rw [pow_succ] at h2
      generalize n / g = t at *
      have hlt : (g + t) / 2 < g := by omega
      rw [if_pos hlt]
      apply ih
      · omega
      · omega
    · have hgs : g = s := by omega
      subst hgs
      rw [if_neg]
      intro h3
      rcases Nat.eq_zero_or_pos g with h4 | h4
      · exact absurd h3 (by rw [h4]; exact Nat.not_lt_zero _)
      · have : g ≤ n / g := by rw [Nat.le_div_iff_mul_le h4]; exact hs1
        generalize n / g = t at *
        omega

theorem floorSqrt_eq_sqrt (n : Nat) : floorSqrt n = Nat.sqrt n := by
  unfold floorSqrt
  rw [floorLog2_eq_log2]
  have h : n < 2 ^ (n.log2 / 2 + 1) * 2 ^ (n.log2 / 2 + 1) := by
    rw [← pow_add]
    exact lt_of_lt_of_le Nat.lt_log2_self (Nat.pow_le_pow_right (by norm_num) (by omega))
  have h1 : Nat.sqrt n < 2 ^ (n.log2 / 2 + 1) := Nat.sqrt_lt.mpr h
  apply newtonSqrt_eq_sqrt
  · exact h1.le
  · rw [pow_succ 2 (n.log2 / 2 + 1)]; omega

end Sys2Proof.Machine
end

