-- ==== Sys2Proof/Laws/Decode.lean ====
section
/-! SUPPORT. The header fields and the payload readers in plain arithmetic (`30_encoding.md` R51, R57). -/

namespace Sys2Proof

theorem opcode_eq (h : Word32) : opcode h = h.toNat % 256 := by
  simp [opcode, BitVec.extractLsb'_toNat]

theorem argument_eq (h : Word32) : argument h = h.toNat / 256 := by
  have := h.isLt
  simp only [argument, BitVec.extractLsb'_toNat, Nat.shiftRight_eq_div_pow]
  omega

theorem reservedBits_eq (h : Word32) : reservedBits h = h.toNat / 512 := by
  have := h.isLt
  simp only [reservedBits, BitVec.extractLsb'_toNat, Nat.shiftRight_eq_div_pow]
  omega

theorem powerPresent_eq (h : Word32) : powerPresent h = decide (h.toNat / 256 % 2 = 1) := by
  rw [powerPresent, BitVec.getLsbD, Nat.testBit_eq_decide_div_mod_eq]

theorem header_toNat {arg : Nat} (opc : BitVec 8) (h : arg < 2 ^ 24) :
    (header arg opc).toNat = opc.toNat + 256 * arg := by
  have h2 := opc.isLt
  rw [header, BitVec.toNat_append, BitVec.toNat_ofNat, Nat.mod_eq_of_lt h, Nat.shiftLeft_eq, Nat.mul_comm,
    ← Nat.two_pow_add_eq_or_of_lt h2]
  omega

theorem payloadBits_eq_some_iff (pay : List Item) (bits : List Bit) :
    payloadBits pay = some bits ↔ pay = bits.map Item.bit := by
  induction pay generalizing bits with
  | nil => cases bits <;> simp [payloadBits]
  | cons x pay ih =>
    cases x with
    | sym a => cases bits <;> simp [payloadBits]
    | bit b =>
      cases bits with
      | nil => simp [payloadBits]
      | cons c bits => simp [payloadBits, ih]; tauto

theorem payloadSyms_eq_some_iff (pay : List Item) (syms : List Sym) :
    payloadSyms pay = some syms ↔ pay = syms.map Item.sym := by
  induction pay generalizing syms with
  | nil => cases syms <;> simp [payloadSyms]
  | cons x pay ih =>
    cases x with
    | bit a => cases syms <;> simp [payloadSyms]
    | sym b =>
      cases syms with
      | nil => simp [payloadSyms]
      | cons c syms => simp [payloadSyms, ih]; tauto

theorem payloadBits_eq_none_iff (pay : List Item) :
    payloadBits pay = none ↔ ∃ x ∈ pay, ∀ b, x ≠ Item.bit b := by
  induction pay with
  | nil => simp [payloadBits]
  | cons x pay ih =>
    cases x with
    | sym a => simp [payloadBits]
    | bit b => simp [payloadBits, ih]

theorem payloadSyms_eq_none_iff (pay : List Item) :
    payloadSyms pay = none ↔ ∃ x ∈ pay, ∀ a, x ≠ Item.sym a := by
  induction pay with
  | nil => simp [payloadSyms]
  | cons x pay ih =>
    cases x with
    | bit a => simp [payloadSyms]
    | sym b => simp [payloadSyms, ih]

end Sys2Proof
end

