-- ==== Sys2Proof/Laws/Irrational.lean ====
section
/-! SUPPORT. The coordinates of a table point are irrational unless the point is exact: the cosine of a rational
other than 0 is irrational (by the exponential bounds behind Lindemann's theorem), and so is that of a fraction
of a turn that is no multiple of a quarter (by Niven's theorem). The spec's own proof is in
`93_implementation_defined.md` I27. -/

namespace Sys2Proof.Machine

open Polynomial

/-- An integer polynomial summed over the two roots of `b²x² + a²` has a bounded denominator. -/
theorem integral_root_sum (a b : ℤ) (hb : b ≠ 0) (g : ℤ[X]) (D : ℕ) (hD : g.natDegree ≤ D) :
    ∃ G : ℤ, (b : ℂ) ^ D * (aeval ((a / b : ℂ) * Complex.I) g + aeval (-((a / b : ℂ) * Complex.I)) g) = G := by
  have hbc : (b : ℂ) ≠ 0 := by exact_mod_cast hb
  rw [aeval_eq_sum_range' (Nat.lt_succ_of_le hD), aeval_eq_sum_range' (Nat.lt_succ_of_le hD),
    ← Finset.sum_add_distrib, Finset.mul_sum]
  have key : ∀ i ∈ Finset.range D.succ, ∃ z : ℤ, (b : ℂ) ^ D *
      (g.coeff i • ((a / b : ℂ) * Complex.I) ^ i + g.coeff i • (-((a / b : ℂ) * Complex.I)) ^ i) = z := by
    intro i hi
    have hi : i ≤ D := Nat.lt_succ_iff.mp (Finset.mem_range.mp hi)
    rcases Nat.even_or_odd i with he | ho
    · obtain ⟨l, rfl⟩ := he
      refine ⟨g.coeff (l + l) * (2 * (-1) ^ l * a ^ (l + l) * b ^ (D - (l + l))), ?_⟩
      rw [Even.neg_pow ⟨l, rfl⟩, mul_pow, div_pow, ← two_mul l, pow_mul Complex.I, Complex.I_sq, two_mul l]
      have : (b : ℂ) ^ D = b ^ (D - (l + l)) * b ^ (l + l) := by rw [← pow_add, Nat.sub_add_cancel hi]
      rw [this]
      simp only [zsmul_eq_mul]
      push_cast
      have : (b : ℂ) ^ (l + l) ≠ 0 := pow_ne_zero _ hbc
      field_simp
      ring
    · exact ⟨0, by rw [Odd.neg_pow ho]; simp⟩
  choose! z hz using key
  exact ⟨∑ i ∈ Finset.range D.succ, z i, by rw [Finset.sum_congr rfl hz]; push_cast; rfl⟩

/-- A nonzero rational is not the cosine of a nonzero rational. -/
theorem cos_ratio_nonzero (a b m A : ℤ) (ha : a ≠ 0) (hb : b ≠ 0) (hA : A ≠ 0) (hm : m ≠ 0) :
    Real.cos (a / b) ≠ m / A := by
  intro h
  set f : ℤ[X] := C (b ^ 2) * X ^ 2 + C (a ^ 2) with hf
  have hf0 : f.eval 0 = a ^ 2 := by simp [hf]
  have hf0' : f.eval 0 ≠ 0 := by rw [hf0]; exact pow_ne_zero _ ha
  obtain ⟨c, hc⟩ := LindemannWeierstrass.exp_polynomial_approx f hf0'
  have hdeg : f.natDegree = 2 := by
    rw [hf]; compute_degree!
  have hfne : f ≠ 0 := by intro h0; rw [h0] at hdeg; simp at hdeg
  have hroot : ∀ z : ℂ, z ^ 2 = -((a / b : ℂ) ^ 2) → z ∈ f.aroots ℂ := by
    intro z hz
    rw [mem_aroots]
    refine ⟨hfne, ?_⟩
    have hbc : (b : ℂ) ≠ 0 := by exact_mod_cast hb
    simp only [hf, map_add, map_mul, aeval_X, map_pow, aeval_C, hz]
    simp
    field_simp
    ring
  set z : ℂ := (a / b : ℂ) * Complex.I with hz
  have hz1 : z ∈ f.aroots ℂ := hroot z (by rw [hz, mul_pow, Complex.I_sq]; ring)
  have hz2 : -z ∈ f.aroots ℂ := hroot (-z) (by rw [neg_sq, hz, mul_pow, Complex.I_sq]; ring)
  have hexp : Complex.exp z + Complex.exp (-z) = 2 * m / A := by
    have h2 := Complex.two_cos (a / b : ℂ)
    have h3 : Complex.cos (a / b : ℂ) = (m / A : ℂ) := by
      have := congrArg (fun r : ℝ => (r : ℂ)) h
      push_cast at this
      exact this
    rw [hz, ← neg_mul, ← h2, h3]; ring
  -- a large prime
  have hlim : Filter.Tendsto (fun n : ℕ => 2 * |(A : ℝ)| * (b ^ 2 * c) * ((b ^ 2 * c) ^ n / n.factorial)) Filter.atTop (nhds 0) := by
    have := (FloorSemiring.tendsto_pow_div_factorial_atTop ((b : ℝ) ^ 2 * c)).const_mul (2 * |(A : ℝ)| * (b ^ 2 * c))
    simpa using this
  obtain ⟨N, hN⟩ := Filter.eventually_atTop.mp (hlim.eventually (gt_mem_nhds (zero_lt_one)))
  obtain ⟨p, hp, hprime⟩ := Nat.exists_infinite_primes (N + (a ^ 2).natAbs + m.natAbs + b.natAbs + A.natAbs + 5)
  obtain ⟨n, hn, gp, hgd, happ⟩ := hc p (by rw [hf0]; omega) hprime
  have h1 := happ hz1
  have h2 := happ hz2
  obtain ⟨G, hG⟩ := integral_root_sum a b hb gp (p * 2) (by rw [hdeg] at hgd; omega)
  rw [← hz] at hG
  have hAc : (A : ℂ) ≠ 0 := by exact_mod_cast hA
  have hint : (A : ℂ) * b ^ (p * 2) * ((n • Complex.exp z - p • aeval z gp) + (n • Complex.exp (-z) - p • aeval (-z) gp)) =
      ((2 * m * n * b ^ (p * 2) - p * A * G : ℤ) : ℂ) := by
    push_cast
    rw [← hG]
    have : n • Complex.exp z - p • aeval z gp + (n • Complex.exp (-z) - p • aeval (-z) gp) =
        n * (Complex.exp z + Complex.exp (-z)) - p * (aeval z gp + aeval (-z) gp) := by
      simp only [zsmul_eq_mul, nsmul_eq_mul]; ring
    rw [this, hexp]
    field_simp
  have hsmall : |((2 * m * n * b ^ (p * 2) - p * A * G : ℤ) : ℝ)| < 1 := by
    have e : |((2 * m * n * b ^ (p * 2) - p * A * G : ℤ) : ℝ)| = ‖((2 * m * n * b ^ (p * 2) - p * A * G : ℤ) : ℂ)‖ := by
      rw [Complex.norm_intCast]
    rw [e, ← hint, norm_mul, norm_mul, norm_pow, Complex.norm_intCast, Complex.norm_intCast]
    have hp1 := hN (p - 1) (by omega)
    have hsum := (norm_add_le (n • Complex.exp z - p • aeval z gp) (n • Complex.exp (-z) - p • aeval (-z) gp)).trans (add_le_add h1 h2)
    have hpow : |(b : ℝ)| ^ (p * 2) = (b ^ 2) ^ p := by rw [mul_comm, pow_mul, sq_abs]
    rw [hpow]
    have hK : 0 ≤ |(A : ℝ)| * ((b : ℝ) ^ 2) ^ p := by positivity
    refine lt_of_le_of_lt (mul_le_mul_of_nonneg_left hsum hK) ?_
    refine lt_of_eq_of_lt ?_ hp1
    obtain ⟨k, rfl⟩ : ∃ k, p = k + 1 := ⟨p - 1, by omega⟩
    simp only [Nat.add_sub_cancel]
    rw [mul_pow, pow_succ, pow_succ]; ring
  have hzero : 2 * m * n * b ^ (p * 2) - p * A * G = 0 := by
    rw [← Int.cast_abs] at hsmall
    have : |2 * m * n * b ^ (p * 2) - p * A * G| < 1 := by exact_mod_cast hsmall
    exact Int.abs_lt_one_iff.mp this
  have hdvd : (p : ℤ) ∣ 2 * m * n * b ^ (p * 2) := ⟨A * G, by linarith⟩
  have hpz : Prime (p : ℤ) := Nat.prime_iff_prime_int.mp hprime
  have small : ∀ y : ℤ, y ≠ 0 → y.natAbs < p → ¬ (p : ℤ) ∣ y := by
    intro y hy hlt hd
    have := Int.natAbs_dvd_natAbs.mpr hd
    rw [Int.natAbs_natCast] at this
    have := Nat.le_of_dvd (Int.natAbs_pos.mpr hy) this
    omega
  rcases hpz.dvd_or_dvd hdvd with h | h
  · rcases hpz.dvd_or_dvd h with h | h
    · rcases hpz.dvd_or_dvd h with h | h
      · exact small 2 (by norm_num) (by have : (2 : ℤ).natAbs = 2 := rfl; omega) h
      · exact small m hm (by omega) h
    · exact hn h
  · exact small b hb (by omega) (hpz.dvd_of_dvd_pow h)

/-- The cosine of a rational other than 0 is irrational. -/
theorem cos_rat_irrational (q : ℚ) (hq : q ≠ 0) : Irrational (Real.cos q) := by
  rintro ⟨r, hr⟩
  have hd : (q.den : ℤ) ≠ 0 := by exact_mod_cast q.den_nz
  have hrd : (r.den : ℤ) ≠ 0 := by exact_mod_cast r.den_nz
  have e : ∀ t : ℚ, (t : ℝ) = ((t.num : ℤ) : ℝ) / ((t.den : ℤ) : ℝ) := fun t => by
    rw [Rat.cast_def]; push_cast; rfl
  by_cases h0 : r = 0
  · have : Real.cos (((2 * q.num : ℤ) : ℝ) / ((q.den : ℤ) : ℝ)) = ((-1 : ℤ) : ℝ) / ((1 : ℤ) : ℝ) := by
      have : (((2 * q.num : ℤ) : ℝ) / ((q.den : ℤ) : ℝ)) = 2 * q := by rw [e q]; push_cast; ring
      rw [this, Real.cos_two_mul, ← hr, h0]; norm_num
    exact cos_ratio_nonzero _ _ _ _ (mul_ne_zero two_ne_zero (Rat.num_ne_zero.mpr hq)) hd one_ne_zero (by norm_num) this
  · exact cos_ratio_nonzero _ _ _ _ (Rat.num_ne_zero.mpr hq) hd hrd (Rat.num_ne_zero.mpr h0)
      (by rw [← e, ← e]; exact hr.symm)

/-- Rational cosines stay rational when the angle is doubled again and again. -/
theorem cos_doubled_rational {θ : ℝ} (h : ∃ q : ℚ, Real.cos θ = q) (n : ℕ) : ∃ q : ℚ, Real.cos (2 ^ n * θ) = q := by
  induction n with
  | zero => simpa using h
  | succ n ih =>
    obtain ⟨q, hq⟩ := ih
    exact ⟨2 * q ^ 2 - 1, by rw [pow_succ', mul_assoc, Real.cos_two_mul, hq]; push_cast; rfl⟩

/-- A half keeps coming back when its angle is doubled. -/
theorem cos_doubled_half {θ : ℝ} (h : Real.cos θ = 1 / 2 ∨ Real.cos θ = -1 / 2) (n : ℕ) : Real.cos (2 ^ n * θ) ≠ 1 := by
  have : Real.cos (2 ^ n * θ) = 1 / 2 ∨ Real.cos (2 ^ n * θ) = -1 / 2 := by
    induction n with
    | zero => simpa using h
    | succ n ih =>
      right
      rw [pow_succ', mul_assoc, Real.cos_two_mul]
      rcases ih with h | h <;> rw [h] <;> norm_num
  rcases this with h | h <;> rw [h] <;> norm_num

/-- The cosine of a table's angle is irrational unless the angle is a multiple of a quarter turn. -/
theorem cos_dyadic_irrational (X : ℚ) (k j : ℕ) (h : X ≠ 0 ∨ 4 * j % 2 ^ k ≠ 0) :
    Irrational (Real.cos (X + 2 * Real.pi * j / 2 ^ k)) := by
  rintro ⟨r, hr⟩
  have hk : (2 : ℝ) ^ k ≠ 0 := by positivity
  have turn : Real.cos (2 ^ k * (X + 2 * Real.pi * j / 2 ^ k)) = Real.cos (2 ^ k * X) := by
    rw [show 2 ^ k * ((X : ℝ) + 2 * Real.pi * j / 2 ^ k) = 2 ^ k * X + j * (2 * Real.pi) by field_simp]
    exact Real.cos_add_nat_mul_two_pi _ _
  by_cases hX : X = 0
  · have hj := h.resolve_left (fun h => h hX)
    subst hX
    have hθ : ((0 : ℚ) : ℝ) + 2 * Real.pi * j / 2 ^ k = ((2 * j / 2 ^ k : ℚ) : ℝ) * Real.pi := by push_cast; ring
    generalize (((0 : ℚ) : ℝ) + 2 * Real.pi * j / 2 ^ k) = θ at hr turn hθ
    have hone : Real.cos (2 ^ k * θ) = 1 := by rw [turn]; simp
    have hsin : Real.sin (2 * θ) = 0 := by
      have sin_zero (h : Real.cos θ ^ 2 = 1) : Real.sin θ = 0 :=
        pow_eq_zero_iff two_ne_zero |>.mp (by linarith [Real.sin_sq_add_cos_sq θ])
      rw [Real.sin_two_mul]
      rcases niven ⟨_, hθ⟩ ⟨r, hr.symm⟩ with h | h | h | h | h
      · rw [sin_zero (by rw [h]; norm_num)]; ring
      · exact absurd hone (cos_doubled_half (.inr h) k)
      · rw [h]; ring
      · exact absurd hone (cos_doubled_half (.inl h) k)
      · rw [sin_zero (by rw [h]; norm_num)]; ring
    obtain ⟨n, hn⟩ := Real.sin_eq_zero_iff.mp hsin
    rw [hθ] at hn
    have h4 : (n : ℝ) * 2 ^ k = 4 * j := by
      have := Real.pi_pos.ne'
      push_cast at hn
      field_simp at hn
      linarith
    have h4 : n * 2 ^ k = 4 * j := by exact_mod_cast h4
    apply hj
    have : ((4 * j : ℕ) : ℤ) % ((2 ^ k : ℕ) : ℤ) = 0 := by push_cast; rw [← h4]; simp
    exact_mod_cast this
  · obtain ⟨q, hq⟩ := cos_doubled_rational ⟨r, hr.symm⟩ k
    rw [turn] at hq
    exact cos_rat_irrational (2 ^ k * X) (mul_ne_zero (by positivity) hX) ⟨q, by push_cast; exact hq.symm⟩

/-- The same for the sine. -/
theorem sin_dyadic_irrational (X : ℚ) (k j : ℕ) (h : X ≠ 0 ∨ 4 * j % 2 ^ k ≠ 0) :
    Irrational (Real.sin (X + 2 * Real.pi * j / 2 ^ k)) := by
  have := cos_dyadic_irrational X (k + 2) (4 * j + 3 * 2 ^ k) (h.imp id fun h h4 => h (by
    rw [pow_add, show (2 : ℕ) ^ 2 = 4 by rfl, mul_comm (2 ^ k) 4, Nat.mul_mod_mul_left] at h4
    simpa [Nat.add_mul_mod_self_right] using h4))
  have e : (X : ℝ) + 2 * Real.pi * ((4 * j + 3 * 2 ^ k : ℕ) : ℝ) / 2 ^ (k + 2) =
      X + 2 * Real.pi * j / 2 ^ k + Real.pi + Real.pi / 2 := by
    rw [pow_add]; push_cast; field_simp; ring
  rwa [e, Real.cos_add_pi_div_two, Real.sin_add_pi, neg_neg] at this

end Sys2Proof.Machine
end

