-- ==== Sys2Proof/Laws/Labels.lean ====
section
/-! SUPPORT. Bit groups, chunks and the pairing of draws, index by index (`00_scope.md` R7, R10; `42_channel.md`
R104). -/

namespace Sys2Proof.Machine

@[simp] theorem bitsMsb_length (v k : Nat) : (bitsMsb v k).length = k := by
  induction k with
  | zero => rfl
  | succ k ih => simp [bitsMsb, ih]

theorem bitsMsb_getElem? (v k i : Nat) (h : i < k) : (bitsMsb v k)[i]? = some (v.testBit (k - 1 - i)) := by
  induction k generalizing i with
  | zero => omega
  | succ k ih =>
    cases i with
    | zero => simp [bitsMsb]
    | succ i =>
      simp only [bitsMsb, List.getElem?_cons_succ]
      rw [ih i (by omega)]
      congr 2
      omega

theorem foldl_msb (c : List Bit) (a : Nat) :
    c.foldl (fun v b => 2 * v + b.toNat) a = a * 2 ^ c.length + valMsb c := by
  unfold valMsb
  induction c generalizing a with
  | nil => simp
  | cons b c ih =>
    simp only [List.foldl_cons, List.length_cons]
    rw [ih, ih (2 * 0 + b.toNat)]
    ring

theorem valMsb_cons (b : Bit) (c : List Bit) : valMsb (b :: c) = b.toNat * 2 ^ c.length + valMsb c := by
  have := foldl_msb c b.toNat
  simpa [valMsb] using this

theorem valMsb_lt (c : List Bit) : valMsb c < 2 ^ c.length := by
  induction c with
  | nil => simp [valMsb]
  | cons b c ih =>
    have := Bool.toNat_le b
    rw [valMsb_cons, List.length_cons, pow_succ]
    nlinarith

theorem chunks_eq_range (k count : Nat) (b : List Bit) :
    chunks k count b = (List.range count).map fun j => (b.drop (j * k)).take k := by
  induction count generalizing b with
  | zero => rfl
  | succ count ih =>
    rw [chunks, ih, List.range_succ_eq_map, List.map_cons, List.map_map]
    simp only [Nat.zero_mul, List.drop_zero]
    congr 1
    apply List.map_congr_left
    intro j _
    simp only [Function.comp, List.drop_drop]
    congr 2
    rw [Nat.succ_mul, Nat.add_comm]

theorem addNoise_eq_range (cfg : ChCfg) (syms : List Sym) (zs : List F64) (h : zs.length = 2 * syms.length) :
    addNoise cfg syms zs = (List.range syms.length).map fun i =>
      ⟨noisy cfg (syms.getD i ⟨0, 0⟩).re (zs.getD (2 * i) 0),
        noisy cfg (syms.getD i ⟨0, 0⟩).im (zs.getD (2 * i + 1) 0)⟩ := by
  induction syms generalizing zs with
  | nil => rfl
  | cons a syms ih =>
    match zs, h with
    | z :: w :: zs, h =>
      rw [addNoise, ih zs (by simp at h; omega), List.length_cons, List.range_succ_eq_map, List.map_cons, List.map_map]
      rfl
    | [z], h => simp at h; omega
    | [], h => simp at h

end Sys2Proof.Machine
end

