-- ==== Sys2Proof/Laws/Noise.lean ====
section
/-! SUPPORT. What `noiseMagnitude` computes: the floor of `σ·|⟦z⟧|` in units of `2^-1075`, and whether the
product lies above it (`42_channel.md` R101, R105). -/

namespace Sys2Proof.Machine

theorem exactValue_pos_of_isPositive {x : F64} (h : isPositive x = true) :
    signBit x = false ∧ 0 < magnitude x := by
  simp only [isPositive, Bool.and_eq_true, Bool.not_eq_true', isZero] at h
  refine ⟨h.1.1, ?_⟩
  have h2 := h.1.2
  unfold magnitude
  split
  · rename_i he
    simp [he] at h2; omega
  · positivity

theorem realValue_of_positive {x : F64} (h : signBit x = false) : realValue x = (magnitude x : ℝ) / 2 ^ 1074 := by
  unfold realValue exactValue; rw [h]; simp

/-- `σ·|⟦z⟧|` in units of `2^-1075` -/
theorem noise_units (cfg : ChCfg) (z : F64) (hsnr : isPositive cfg.snr = true) (hsp : isPositive cfg.sp = true) :
    Real.sqrt (realValue cfg.sp / (2 * realValue cfg.snr)) * ((magnitude z : ℝ) / 2 ^ 1074) * 2 ^ 1075 =
      Real.sqrt ((2 * magnitude z ^ 2 * magnitude cfg.sp : ℕ) / (magnitude cfg.snr : ℝ)) := by
  obtain ⟨h1, h2⟩ := exactValue_pos_of_isPositive hsnr
  obtain ⟨h3, h4⟩ := exactValue_pos_of_isPositive hsp
  rw [realValue_of_positive h1, realValue_of_positive h3]
  have hK : (0 : ℝ) < 2 ^ 1074 := by positivity
  have hK2 : (2 : ℝ) ^ 1075 = 2 * 2 ^ 1074 := by rw [pow_succ]; ring
  rw [hK2]
  generalize (2 : ℝ) ^ 1074 = K at *
  have hA : (0 : ℝ) < magnitude cfg.snr := by exact_mod_cast h2
  have e1 : Real.sqrt ((magnitude cfg.sp : ℝ) / K / (2 * ((magnitude cfg.snr : ℝ) / K))) * ((magnitude z : ℝ) / K) * (2 * K) =
      2 * (magnitude z : ℝ) * Real.sqrt ((magnitude cfg.sp : ℝ) / K / (2 * ((magnitude cfg.snr : ℝ) / K))) := by
    field_simp
  rw [e1]
  have e2 : (2 * (magnitude z : ℝ)) = Real.sqrt ((2 * (magnitude z : ℝ)) ^ 2) := (Real.sqrt_sq (by positivity)).symm
  rw [e2, ← Real.sqrt_mul (by positivity)]
  congr 1
  push_cast
  field_simp

theorem noiseMagnitude_spec (cfg : ChCfg) (z : F64) (hsnr : 0 < magnitude cfg.snr) :
    ∀ W, W = Real.sqrt ((2 * magnitude z ^ 2 * magnitude cfg.sp : ℕ) / (magnitude cfg.snr : ℝ)) →
    ((noiseMagnitude cfg z).1 : ℝ) ≤ W ∧ W < (noiseMagnitude cfg z).1 + 1 ∧
      ((noiseMagnitude cfg z).2 = true ↔ W ≠ (noiseMagnitude cfg z).1) := by
  intro W hWdef
  unfold noiseMagnitude
  simp only [floorSqrt_eq_sqrt]
  generalize hA : 2 * magnitude z ^ 2 * magnitude cfg.sp = A at *
  generalize hB : magnitude cfg.snr = B at *
  have hBr : (0 : ℝ) < B := by exact_mod_cast hsnr
  have hWsq : W ^ 2 = (A : ℝ) / B := hWdef ▸ Real.sq_sqrt (div_nonneg (Nat.cast_nonneg A) hBr.le)
  have h1 : Nat.sqrt (A / B) * Nat.sqrt (A / B) ≤ A / B := Nat.sqrt_le _
  have h2 : A / B < (Nat.sqrt (A / B) + 1) * (Nat.sqrt (A / B) + 1) := Nat.lt_succ_sqrt _
  generalize Nat.sqrt (A / B) = s at *
  have hs : (0 : ℝ) ≤ s := Nat.cast_nonneg s
  have h3 : s * s * B ≤ A := (Nat.le_div_iff_mul_le hsnr).mp h1
  have h4 : A < (s + 1) * (s + 1) * B := (Nat.div_lt_iff_lt_mul hsnr).mp h2
  have h3r : (s : ℝ) * s * B ≤ A := by exact_mod_cast h3
  have h4r : (A : ℝ) < ((s : ℝ) + 1) * (s + 1) * B := by exact_mod_cast h4
  refine ⟨?_, ?_, ?_⟩
  · rw [hWdef]; refine Real.le_sqrt_of_sq_le ?_
    rw [le_div_iff₀ hBr]; nlinarith
  · rw [hWdef, Real.sqrt_lt' (by linarith), div_lt_iff₀ hBr]; nlinarith
  · rw [bne_iff_ne, ne_eq, ne_eq, not_iff_not]
    constructor
    · intro h
      have : (A : ℝ) / B = (s : ℝ) ^ 2 := by
        rw [div_eq_iff hBr.ne', ← h]; push_cast; ring
      rw [hWdef, this, Real.sqrt_sq hs]
    · intro h
      rw [h, eq_div_iff hBr.ne'] at hWsq
      exact_mod_cast hWsq

theorem two_exactValue (s : F64) : realValue s * 2 ^ 1075 = ((2 * exactValue s : ℤ) : ℝ) := by
  have hK : (0 : ℝ) < 2 ^ 1074 := by positivity
  have hK2 : (2 : ℝ) ^ 1075 = 2 * 2 ^ 1074 := by rw [pow_succ]; ring
  unfold realValue
  rw [hK2]
  generalize (2 : ℝ) ^ 1074 = K at *
  push_cast; field_simp

end Sys2Proof.Machine
end

