-- ==== Sys2Proof/Laws/State.lean ====
section
/-! SUPPORT. What each update of the state leaves in each field. -/

namespace Sys2Proof.Machine

@[simp] theorem State.respond_params (s : State) (e : Status) (out : List Item) : (s.respond e out).params = s.params := rfl
@[simp] theorem State.respond_mod (s : State) (e : Status) (out : List Item) : (s.respond e out).mod = s.mod := rfl
@[simp] theorem State.respond_dm (s : State) (e : Status) (out : List Item) : (s.respond e out).dm = s.dm := rfl
@[simp] theorem State.respond_ch (s : State) (e : Status) (out : List Item) : (s.respond e out).ch = s.ch := rfl
@[simp] theorem State.respond_wait (s : State) (e : Status) (out : List Item) : (s.respond e out).wait = s.wait := rfl
@[simp] theorem State.respond_input (s : State) (e : Status) (out : List Item) : (s.respond e out).input = s.input := rfl
@[simp] theorem State.respond_gauss (s : State) (e : Status) (out : List Item) : (s.respond e out).gauss = s.gauss := rfl
@[simp] theorem State.respond_drawn (s : State) (e : Status) (out : List Item) : (s.respond e out).drawn = s.drawn := rfl
@[simp] theorem State.respond_rsp (s : State) (e : Status) (out : List Item) : (s.respond e out).rsp = s.rsp ++ [⟨e, out⟩] := rfl
@[simp] theorem State.respond_run (s : State) (e : Status) (out : List Item) : (s.respond e out).run = s.run := rfl

@[simp] theorem State.raise_params (s : State) (e : Status) : (s.raise e).params = s.params := rfl
@[simp] theorem State.raise_mod (s : State) (e : Status) : (s.raise e).mod = s.mod := rfl
@[simp] theorem State.raise_dm (s : State) (e : Status) : (s.raise e).dm = s.dm := rfl
@[simp] theorem State.raise_ch (s : State) (e : Status) : (s.raise e).ch = s.ch := rfl
@[simp] theorem State.raise_wait (s : State) (e : Status) : (s.raise e).wait = s.wait := rfl
@[simp] theorem State.raise_input (s : State) (e : Status) : (s.raise e).input = s.input := rfl
@[simp] theorem State.raise_gauss (s : State) (e : Status) : (s.raise e).gauss = s.gauss := rfl
@[simp] theorem State.raise_drawn (s : State) (e : Status) : (s.raise e).drawn = s.drawn := rfl
@[simp] theorem State.raise_rsp (s : State) (e : Status) : (s.raise e).rsp = s.rsp ++ [⟨e, []⟩] := rfl
@[simp] theorem State.raise_run (s : State) (e : Status) : (s.raise e).run = s.run := rfl

@[simp] theorem State.consume_params (s : State) (r : DrawRun) : (s.consume r).params = s.params := rfl
@[simp] theorem State.consume_mod (s : State) (r : DrawRun) : (s.consume r).mod = s.mod := rfl
@[simp] theorem State.consume_dm (s : State) (r : DrawRun) : (s.consume r).dm = s.dm := rfl
@[simp] theorem State.consume_ch (s : State) (r : DrawRun) : (s.consume r).ch = s.ch := rfl
@[simp] theorem State.consume_wait (s : State) (r : DrawRun) : (s.consume r).wait = s.wait := rfl
@[simp] theorem State.consume_input (s : State) (r : DrawRun) : (s.consume r).input = s.input := rfl
@[simp] theorem State.consume_gauss (s : State) (r : DrawRun) : (s.consume r).gauss = r.rest := rfl
@[simp] theorem State.consume_drawn (s : State) (r : DrawRun) : (s.consume r).drawn = s.drawn + r.used := rfl
@[simp] theorem State.consume_rsp (s : State) (r : DrawRun) : (s.consume r).rsp = s.rsp := rfl
@[simp] theorem State.consume_run (s : State) (r : DrawRun) : (s.consume r).run = s.run := rfl

@[simp] theorem State.startRun_params (s : State) (cut : Bool) : (s.startRun cut).params = s.params := rfl
@[simp] theorem State.startRun_mod (s : State) (cut : Bool) : (s.startRun cut).mod = none := rfl
@[simp] theorem State.startRun_dm (s : State) (cut : Bool) : (s.startRun cut).dm = none := rfl
@[simp] theorem State.startRun_ch (s : State) (cut : Bool) : (s.startRun cut).ch = none := rfl
@[simp] theorem State.startRun_wait (s : State) (cut : Bool) : (s.startRun cut).wait = none := rfl
@[simp] theorem State.startRun_input (s : State) (cut : Bool) : (s.startRun cut).input = s.input := rfl
@[simp] theorem State.startRun_gauss (s : State) (cut : Bool) : (s.startRun cut).gauss = s.gauss := rfl
@[simp] theorem State.startRun_drawn (s : State) (cut : Bool) : (s.startRun cut).drawn = s.drawn := rfl
@[simp] theorem State.startRun_rsp (s : State) (cut : Bool) : (s.startRun cut).rsp = s.rsp := rfl
@[simp] theorem State.startRun_run (s : State) (cut : Bool) : (s.startRun cut).run = ⟨s.rsp.length, s.drawn, cut⟩ := rfl

@[simp] theorem State.resetBlock_params (s : State) : s.resetBlock.params = s.params := rfl
@[simp] theorem State.resetBlock_mod (s : State) : s.resetBlock.mod = none := rfl
@[simp] theorem State.resetBlock_dm (s : State) : s.resetBlock.dm = none := rfl
@[simp] theorem State.resetBlock_ch (s : State) : s.resetBlock.ch = none := rfl
@[simp] theorem State.resetBlock_wait (s : State) : s.resetBlock.wait = none := rfl
@[simp] theorem State.resetBlock_input (s : State) : s.resetBlock.input = s.input := rfl
@[simp] theorem State.resetBlock_gauss (s : State) : s.resetBlock.gauss = s.gauss := rfl
@[simp] theorem State.resetBlock_drawn (s : State) : s.resetBlock.drawn = s.drawn := rfl
@[simp] theorem State.resetBlock_rsp (s : State) : s.resetBlock.rsp = s.rsp := rfl
@[simp] theorem State.resetBlock_run (s : State) :
    s.resetBlock.run = ⟨s.rsp.length, s.drawn, s.lastUnanswered⟩ := rfl

@[simp] theorem State.placePacket_params (s : State) (c : Cmd) : (s.placePacket c).params = s.params := rfl
@[simp] theorem State.placePacket_mod (s : State) (c : Cmd) : (s.placePacket c).mod = s.mod := rfl
@[simp] theorem State.placePacket_dm (s : State) (c : Cmd) : (s.placePacket c).dm = s.dm := rfl
@[simp] theorem State.placePacket_ch (s : State) (c : Cmd) : (s.placePacket c).ch = s.ch := rfl
@[simp] theorem State.placePacket_wait (s : State) (c : Cmd) : (s.placePacket c).wait = none := rfl
@[simp] theorem State.placePacket_input (s : State) (c : Cmd) : (s.placePacket c).input = .cmd c :: s.input := rfl
@[simp] theorem State.placePacket_gauss (s : State) (c : Cmd) : (s.placePacket c).gauss = s.gauss := rfl
@[simp] theorem State.placePacket_drawn (s : State) (c : Cmd) : (s.placePacket c).drawn = s.drawn := rfl
@[simp] theorem State.placePacket_rsp (s : State) (c : Cmd) : (s.placePacket c).rsp = s.rsp := rfl
@[simp] theorem State.placePacket_run (s : State) (c : Cmd) : (s.placePacket c).run = s.run := rfl

@[simp] theorem State.withByteOrder_params (s : State) (o : ByteOrder) : (s.withByteOrder o).params = { s.params with hostByteOrder := o } := rfl
@[simp] theorem State.withByteOrder_mod (s : State) (o : ByteOrder) : (s.withByteOrder o).mod = s.mod := rfl
@[simp] theorem State.withByteOrder_dm (s : State) (o : ByteOrder) : (s.withByteOrder o).dm = s.dm := rfl
@[simp] theorem State.withByteOrder_ch (s : State) (o : ByteOrder) : (s.withByteOrder o).ch = s.ch := rfl
@[simp] theorem State.withByteOrder_wait (s : State) (o : ByteOrder) : (s.withByteOrder o).wait = s.wait := rfl
@[simp] theorem State.withByteOrder_input (s : State) (o : ByteOrder) : (s.withByteOrder o).input = s.input := rfl
@[simp] theorem State.withByteOrder_gauss (s : State) (o : ByteOrder) : (s.withByteOrder o).gauss = s.gauss := rfl
@[simp] theorem State.withByteOrder_drawn (s : State) (o : ByteOrder) : (s.withByteOrder o).drawn = s.drawn := rfl
@[simp] theorem State.withByteOrder_rsp (s : State) (o : ByteOrder) : (s.withByteOrder o).rsp = s.rsp := rfl
@[simp] theorem State.withByteOrder_run (s : State) (o : ByteOrder) : (s.withByteOrder o).run = s.run := rfl

@[simp] theorem mapNext_next (f : State → State) (s : State) : mapNext f (.next s) = .next (f s) := rfl

theorem State.raise_eq (s : State) (e : Status) : s.raise e = s.respond e [] := rfl

end Sys2Proof.Machine
end

