-- ==== Sys2Proof/Laws/Operands.lean ====
section
/-! SUPPORT. The checks of `Machine/Operands.lean` decide what the rules say. -/

namespace Sys2Proof.Machine

theorem isPowerOfTwo_iff (n : Nat) : isPowerOfTwo n = true ↔ ∃ k, n = 2 ^ k := by
  simp only [isPowerOfTwo, beq_iff_eq]
  exact ⟨fun h => ⟨n.log2, h.symm⟩, fun ⟨k, h⟩ => by rw [h, Nat.log2_two_pow]⟩

theorem legalOrder_iff (p : Params) (order : Nat) : legalOrder p order = true ↔ LegalOrder p order := by
  simp only [legalOrder, LegalOrder, Bool.and_eq_true, isPowerOfTwo_iff, decide_eq_true_eq]
  constructor
  · rintro ⟨⟨⟨k, rfl⟩, h2⟩, h3⟩
    refine ⟨k, ?_, (Nat.pow_le_pow_iff_right (by norm_num)).mp h3, rfl⟩
    by_contra h
    have : k = 0 := by omega
    subst this
    omega
  · rintro ⟨k, h1, h2, rfl⟩
    refine ⟨⟨⟨k, rfl⟩, ?_⟩, Nat.pow_le_pow_right (by norm_num) h2⟩
    calc 2 = 2 ^ 1 := rfl
      _ ≤ 2 ^ k := Nat.pow_le_pow_right (by norm_num) h1

theorem legalPsk_iff (p : Params) (order : Nat) (phase : F64) :
    legalPsk p order phase = true ↔ LegalOrder p order ∧ isFinite phase = true := by
  rw [legalPsk, Bool.and_eq_true, legalOrder_iff]

theorem magnitude_eq_zero_iff (x : F64) : magnitude x = 0 ↔ isZero x = true := by
  unfold magnitude isZero
  simp only [Bool.and_eq_true, beq_iff_eq]
  split
  · rename_i h; simp [h]
  · rename_i h
    constructor
    · intro h0
      have : 0 < (2 ^ 52 + fractionField x) * 2 ^ (exponentField x - 1) := by positivity
      omega
    · intro h0; exact absurd h0.1 h

theorem realValue_pos_iff (x : F64) : 0 < realValue x ↔ signBit x = false ∧ isZero x = false := by
  have hK : (0 : ℝ) < 2 ^ 1074 := by positivity
  unfold realValue
  rw [div_pos_iff_of_pos_right hK, Int.cast_pos]
  unfold exactValue
  have hz := magnitude_eq_zero_iff x
  cases hs : signBit x
  · simp only [Bool.false_eq_true, if_false, true_and]
    rw [Int.natCast_pos, Nat.pos_iff_ne_zero, ne_eq, hz]
    simp
  · simp only [if_true]
    constructor
    · intro h; omega
    · intro h; cases h.1

theorem realValue_eq_zero_iff (x : F64) : realValue x = 0 ↔ isZero x = true := by
  have hK : (2 : ℝ) ^ 1074 ≠ 0 := by positivity
  unfold realValue
  rw [div_eq_zero_iff, or_iff_left hK, Int.cast_eq_zero, ← magnitude_eq_zero_iff]
  unfold exactValue
  split <;> omega

theorem isPositive_iff (x : F64) : isPositive x = true ↔ Positive x := by
  unfold isPositive Positive
  rw [realValue_pos_iff]
  have hinf : signBit plusInf = false ∧ isZero plusInf = false := by decide +kernel
  simp only [Bool.and_eq_true, Bool.not_eq_true', Bool.or_eq_true, beq_iff_eq]
  constructor
  · rintro ⟨⟨h1, h2⟩, h3 | h3⟩
    · exact .inr ⟨h3, h1, h2⟩
    · exact .inl h3
  · rintro (rfl | ⟨h1, h2, h3⟩)
    · exact ⟨⟨hinf.1, hinf.2⟩, .inr rfl⟩
    · exact ⟨⟨h2, h3⟩, .inl h1⟩

theorem legalChannel_iff (snr sp : F64) :
    legalChannel snr sp = true ↔ Positive snr ∧ isFinite sp = true ∧ Positive sp := by
  simp only [legalChannel, Bool.and_eq_true, isPositive_iff]

theorem finitePayload_iff (syms : List Sym) : finitePayload syms = true ↔ FiniteSyms syms := by
  simp [finitePayload, FiniteSyms, finiteSym]

/-- The exact squared distances compare as the real ones. -/
theorem realDist2_eq (r p : Sym) : realDist2 r p = (dist2 r p : ℝ) / (2 ^ 1074) ^ 2 := by
  have hK : (2 : ℝ) ^ 1074 ≠ 0 := by positivity
  unfold realDist2 dist2 realValue
  generalize (2 : ℝ) ^ 1074 = K at *
  push_cast
  field_simp

theorem realDist2_lt_iff (r p r' p' : Sym) : realDist2 r p < realDist2 r' p' ↔ dist2 r p < dist2 r' p' := by
  have hK : (0 : ℝ) < (2 ^ 1074) ^ 2 := by positivity
  rw [realDist2_eq, realDist2_eq, div_lt_div_iff_of_pos_right hK, Int.cast_lt]

theorem realDist2_le_iff (r p r' p' : Sym) : realDist2 r p ≤ realDist2 r' p' ↔ dist2 r p ≤ dist2 r' p' := by
  rw [← not_lt, realDist2_lt_iff, not_lt]

end Sys2Proof.Machine
end

