-- ==== Sys2Proof/Laws/Ops.lean ====
section
/-! SUPPORT. Everything a sequence of draws, an `AWGN` in flight and each meaning can do. -/

namespace Sys2Proof.Machine

theorem takeDraws_complete {n : Nat} {zs : List F64} (rest : List Answer) (hl : zs.length = n)
    (hf : ∀ z ∈ zs, isFinite z = true) : takeDraws n (zs.map .value ++ rest) = ⟨.complete, zs, rest, n⟩ := by
  induction zs generalizing n with
  | nil => subst hl; rfl
  | cons z zs ih =>
    subst hl
    simp only [List.mem_cons, forall_eq_or_imp] at hf
    simp only [List.map_cons, List.cons_append, List.length_cons, takeDraws, hf.1, if_true, ih rfl hf.2]

theorem takeDraws_failed {n : Nat} {zs : List F64} {a : Answer} (rest : List Answer) (hl : zs.length < n)
    (hf : ∀ z ∈ zs, isFinite z = true) (ha : a.Fails) :
    takeDraws n (zs.map .value ++ a :: rest) = ⟨.failed, zs, rest, zs.length + 1⟩ := by
  induction zs generalizing n with
  | nil =>
    obtain ⟨m, rfl⟩ : ∃ m, n = m + 1 := ⟨n - 1, by simp at hl; omega⟩
    cases a with
    | unavailable => rfl
    | value z =>
      have h : isFinite z = false := ha
      simp [takeDraws, h]
  | cons z zs ih =>
    obtain ⟨m, rfl⟩ : ∃ m, n = m + 1 := ⟨n - 1, by simp at hl; omega⟩
    simp only [List.mem_cons, forall_eq_or_imp] at hf
    simp only [List.length_cons, Nat.add_lt_add_iff_right] at hl
    simp only [List.map_cons, List.cons_append, List.length_cons, takeDraws, hf.1, if_true, ih hl hf.2]

theorem takeDraws_unanswered {n : Nat} {zs : List F64} (hl : zs.length < n) (hf : ∀ z ∈ zs, isFinite z = true) :
    takeDraws n (zs.map .value) = ⟨.unanswered, zs, [], zs.length⟩ := by
  induction zs generalizing n with
  | nil =>
    obtain ⟨m, rfl⟩ : ∃ m, n = m + 1 := ⟨n - 1, by simp at hl; omega⟩
    rfl
  | cons z zs ih =>
    obtain ⟨m, rfl⟩ : ∃ m, n = m + 1 := ⟨n - 1, by simp at hl; omega⟩
    simp only [List.mem_cons, forall_eq_or_imp] at hf
    simp only [List.length_cons, Nat.add_lt_add_iff_right] at hl
    simp only [List.map_cons, List.length_cons, takeDraws, hf.1, if_true, ih hl hf.2]

/-- The answers a sequence of draws meets: enough finite values, or a failing answer before that, or too
few answers. -/
theorem answers_cases (n : Nat) (answers : List Answer) :
    (∃ (zs : List F64) (rest : List Answer), answers = zs.map .value ++ rest ∧ zs.length = n ∧ ∀ z ∈ zs, isFinite z = true) ∨
    (∃ (zs : List F64) (a : Answer) (rest : List Answer), answers = zs.map .value ++ a :: rest ∧ zs.length < n ∧ (∀ z ∈ zs, isFinite z = true) ∧ a.Fails) ∨
    (∃ zs : List F64, answers = zs.map .value ∧ zs.length < n ∧ ∀ z ∈ zs, isFinite z = true) := by
  induction n generalizing answers with
  | zero => exact .inl ⟨[], answers, rfl, rfl, by simp⟩
  | succ n ih =>
    cases answers with
    | nil => exact .inr (.inr ⟨[], rfl, by simp, by simp⟩)
    | cons a rest =>
      by_cases ha : a.Fails
      · exact .inr (.inl ⟨[], a, rest, rfl, by simp, by simp, ha⟩)
      · cases a with
        | unavailable => exact absurd trivial ha
        | value z =>
          have hz : isFinite z = true := by
            simpa [Answer.Fails] using ha
          have cons : ∀ zs : List F64, (∀ w ∈ zs, isFinite w = true) → ∀ w ∈ z :: zs, isFinite w = true := by
            intro zs h; simpa [hz] using h
          rcases ih rest with ⟨zs, r, he, hl, hf⟩ | ⟨zs, b, r, he, hl, hf, hb⟩ | ⟨zs, he, hl, hf⟩
          · exact .inl ⟨z :: zs, r, by rw [he]; rfl, by simp [hl], cons zs hf⟩
          · exact .inr (.inl ⟨z :: zs, b, r, by rw [he]; rfl, by simp [hl], cons zs hf, hb⟩)
          · exact .inr (.inr ⟨z :: zs, by rw [he]; rfl, by simp [hl], cons zs hf⟩)

/-- Everything an `AWGN` in flight can do. -/
theorem runAwgn_cases (s : State) (w : Wait) :
    (∃ (zs : List F64) (rest : List Answer), s.gauss = zs.map .value ++ rest ∧ zs.length = 2 * w.syms.length - w.zs.length ∧
      (∀ z ∈ zs, isFinite z = true) ∧
      s.runAwgn w = State.respond { s with gauss := rest, drawn := s.drawn + zs.length } .ok
        ((addNoise w.cfg w.syms (w.zs ++ zs)).map .sym)) ∨
    (∃ (zs : List F64) (a : Answer) (rest : List Answer), s.gauss = zs.map .value ++ a :: rest ∧ zs.length < 2 * w.syms.length - w.zs.length ∧
      (∀ z ∈ zs, isFinite z = true) ∧ a.Fails ∧
      s.runAwgn w = State.raise { s with gauss := rest, drawn := s.drawn + (zs.length + 1) } .randomSource) ∨
    (∃ zs : List F64, s.gauss = zs.map .value ∧ zs.length < 2 * w.syms.length - w.zs.length ∧
      (∀ z ∈ zs, isFinite z = true) ∧
      s.runAwgn w =
        { s with gauss := [], drawn := s.drawn + zs.length, wait := some { w with zs := w.zs ++ zs } }) := by
  rcases answers_cases (2 * w.syms.length - w.zs.length) s.gauss with
    ⟨zs, rest, he, hl, hf⟩ | ⟨zs, a, rest, he, hl, hf, ha⟩ | ⟨zs, he, hl, hf⟩
  · refine .inl ⟨zs, rest, he, hl, hf, ?_⟩
    unfold State.runAwgn
    rw [he, takeDraws_complete rest hl hf]
    simp [State.consume, State.respond, hl]
  · refine .inr (.inl ⟨zs, a, rest, he, hl, hf, ha, ?_⟩)
    unfold State.runAwgn
    rw [he, takeDraws_failed rest hl hf ha]
    rfl
  · refine .inr (.inr ⟨zs, he, hl, hf, ?_⟩)
    unfold State.runAwgn
    rw [he, takeDraws_unanswered hl hf]
    rfl

/-- An `AWGN` in flight that meets enough finite values. -/
theorem runAwgn_complete {s : State} {w : Wait} {zs : List F64} {rest : List Answer}
    (hg : s.gauss = zs.map .value ++ rest) (hl : zs.length = 2 * w.syms.length - w.zs.length)
    (hf : ∀ z ∈ zs, isFinite z = true) :
    s.runAwgn w = State.respond { s with gauss := rest, drawn := s.drawn + zs.length } .ok
      ((addNoise w.cfg w.syms (w.zs ++ zs)).map .sym) := by
  unfold State.runAwgn
  rw [hg, takeDraws_complete rest hl hf]
  simp [State.consume, State.respond, hl]

/-- An `AWGN` in flight that meets a failing answer. -/
theorem runAwgn_failed {s : State} {w : Wait} {zs : List F64} {a : Answer} {rest : List Answer}
    (hg : s.gauss = zs.map .value ++ a :: rest) (hl : zs.length < 2 * w.syms.length - w.zs.length)
    (hf : ∀ z ∈ zs, isFinite z = true) (ha : a.Fails) :
    s.runAwgn w = State.raise { s with gauss := rest, drawn := s.drawn + (zs.length + 1) } .randomSource := by
  unfold State.runAwgn
  rw [hg, takeDraws_failed rest hl hf ha]
  rfl

/-- An `AWGN` in flight that meets too few answers. -/
theorem runAwgn_unanswered {s : State} {w : Wait} {zs : List F64} (hg : s.gauss = zs.map .value)
    (hl : zs.length < 2 * w.syms.length - w.zs.length) (hf : ∀ z ∈ zs, isFinite z = true) :
    s.runAwgn w =
      { s with gauss := [], drawn := s.drawn + zs.length, wait := some { w with zs := w.zs ++ zs } } := by
  unfold State.runAwgn
  rw [hg, takeDraws_unanswered hl hf]
  rfl

/-- Every meaning but that of an `AWGN` in flight ends by one response, having written at most its own
unit's register. -/
inductive Ends (s : State) : Instr → State → Prop where
  | modcfg (order phase) : Ends s (.modcfg order phase) (State.respond { s with mod := some (pskCfg order phase) } .ok [])
  | dmcfg (order phase) : Ends s (.dmcfg order phase) (State.respond { s with dm := some (pskCfg order phase) } .ok [])
  | chcfg (snr sp) : Ends s (.chcfg snr sp) (State.respond { s with ch := some ⟨snr, powerOperand sp⟩ } .ok [])
  | output (i out) (h : (∃ n b, i = .modulate n b) ∨ ∃ n y, i = .demodulate n y) : Ends s i (s.respond .ok out)
  | error (i e) (h : e ≠ .ok) : Ends s i (s.raise e)
  | channel (n syms cfg) (hc : s.ch = some cfg) (hn : syms.length = n) (hf : finitePayload syms = true) :
      Ends s (.awgn n syms) (s.runAwgn ⟨cfg, syms, []⟩)

/-- Everything `exec` can do. -/
theorem exec_ends {i : Instr} {s t : State} (h : exec i s = .next t) : Ends s i t := by
  cases i with
  | modcfg order phase =>
    simp only [exec, execModcfg] at h
    split at h <;> cases h
    · exact .modcfg order phase
    · exact .error _ _ (by decide)
  | dmcfg order phase =>
    simp only [exec, execDmcfg] at h
    split at h <;> cases h
    · exact .dmcfg order phase
    · exact .error _ _ (by decide)
  | chcfg snr sp =>
    simp only [exec, execChcfg] at h
    split at h <;> cases h
    · exact .chcfg snr sp
    · exact .error _ _ (by decide)
  | modulate n b =>
    simp only [exec, execModulate] at h
    split at h
    · cases h; exact .error _ _ (by decide)
    · split at h <;> cases h
      · exact .output _ _ (.inl ⟨n, b, rfl⟩)
      · exact .error _ _ (by decide)
  | demodulate n y =>
    simp only [exec, execDemodulate] at h
    split at h
    · cases h; exact .error _ _ (by decide)
    · split at h <;> cases h
      · exact .output _ _ (.inr ⟨n, y, rfl⟩)
      · exact .error _ _ (by decide)
  | awgn n y =>
    simp only [exec, execAwgn] at h
    split at h
    · cases h; exact .error _ _ (by decide)
    · rename_i cfg hc
      split at h <;> cases h
      · rename_i hh; exact .channel n y cfg hc hh.1 hh.2
      · exact .error _ _ (by decide)

end Sys2Proof.Machine
end

