-- ==== Sys2Proof/Laws/PerInstr.lean ====
section
/-! SUPPORT. The family `Header`, per instruction: what the header word of a command's encoding says and
how many operand words follow it (`30_encoding.md` R51 to R57). -/

namespace Sys2Proof.Laws.Header

/-- The opcode of a command (R52). -/
def code : Instr → Nat
  | .modcfg _ _ => 0x01
  | .modulate _ _ => 0x02
  | .chcfg _ _ => 0x03
  | .awgn _ _ => 0x04
  | .dmcfg _ _ => 0x05
  | .demodulate _ _ => 0x06

/-- The argument of a command (R53 to R55). -/
def arg : Instr → Nat
  | .modcfg order _ => order
  | .modulate count _ => count
  | .chcfg _ none => 0
  | .chcfg _ (some _) => 1
  | .awgn count _ => count
  | .dmcfg order _ => order
  | .demodulate count _ => count

/-- The header of an encoding holds the command's opcode and argument, and as many operand words follow
it as it fixes. -/
def Statement (i : Instr) : Prop :=
  i.wf = true → opcode (encode i).hdr = code i ∧ argument (encode i).hdr = arg i ∧
    (encode i).ops.length = operandWords (encode i).hdr

theorem fields {n : Nat} (h : fitsArg n = true) (c : BitVec 8) :
    opcode (header n c) = c.toNat ∧ argument (header n c) = n := by
  have hn : n < 2 ^ 24 := of_decide_eq_true h
  have hc := c.isLt
  rw [opcode_eq, argument_eq, header_toNat c hn]
  omega

theorem modcfg (order : Nat) (phase : F64) : Statement (.modcfg order phase) := fun h => by
  have f := fields h 0x01
  refine ⟨f.1, f.2, ?_⟩
  simp only [encode, operandWords, f.1]; rfl

theorem modulate (count : Nat) (bits : List Bit) : Statement (.modulate count bits) := fun h => by
  have f := fields h 0x02
  refine ⟨f.1, f.2, ?_⟩
  simp only [encode, operandWords, f.1]; rfl

theorem chcfg (snr : F64) (sp : Option F64) : Statement (.chcfg snr sp) := fun _ => by
  cases sp with
  | none =>
    exact ⟨show opcode (header 0 0x03) = 3 by decide,
      show argument (header 0 0x03) = 0 by decide, show 1 = operandWords (header 0 0x03) by decide⟩
  | some x =>
    exact ⟨show opcode (header 1 0x03) = 3 by decide,
      show argument (header 1 0x03) = 1 by decide, show 2 = operandWords (header 1 0x03) by decide⟩

theorem awgn (count : Nat) (syms : List Sym) : Statement (.awgn count syms) := fun h => by
  have f := fields h 0x04
  refine ⟨f.1, f.2, ?_⟩
  simp only [encode, operandWords, f.1]; rfl

theorem dmcfg (order : Nat) (phase : F64) : Statement (.dmcfg order phase) := fun h => by
  have f := fields h 0x05
  refine ⟨f.1, f.2, ?_⟩
  simp only [encode, operandWords, f.1]; rfl

theorem demodulate (count : Nat) (syms : List Sym) : Statement (.demodulate count syms) := fun h => by
  have f := fields h 0x06
  refine ⟨f.1, f.2, ?_⟩
  simp only [encode, operandWords, f.1]; rfl

end Sys2Proof.Laws.Header
end

