-- ==== Sys2Proof/Laws/Trig.lean ====
section
/-! SUPPORT. The enclosures of `Machine/Constellation.lean` contain the reals they stand for at every
precision (`pointEnclosure_sound`), and are 9 units wide at most (`pointEnclosure_narrow`). -/

namespace Sys2Proof.Machine

open Finset

theorem arctanSum_near_partialSum (x p n : Nat) (hx : 2 ≤ x) :
    |(2 : ℝ) ^ p * (∑ i ∈ range n, (-1) ^ i * ((x : ℝ)⁻¹ ^ (2 * i + 1) / (2 * i + 1 : ℕ))) - arctanSum x p n| ≤ n := by
  induction n with
  | zero => simp [arctanSum]
  | succ n ih =>
    rw [sum_range_succ, mul_add]
    unfold arctanSum
    simp only
    set D : ℕ := (2 * n + 1) * x ^ (2 * n + 1) with hD
    have hDpos : 0 < D := Nat.mul_pos (by omega) (pow_pos (by omega) _)
    have hDr : (0 : ℝ) < D := by exact_mod_cast hDpos
    have hterm : (2 : ℝ) ^ p * ((x : ℝ)⁻¹ ^ (2 * n + 1) / (2 * n + 1 : ℕ)) = (2 : ℝ) ^ p / D := by
      rw [hD]; push_cast; rw [inv_pow]; field_simp
    have hfl : ((2 ^ p / D : ℕ) : ℝ) ≤ (2 : ℝ) ^ p / D := by
      rw [le_div_iff₀ hDr]; exact_mod_cast Nat.div_mul_le_self _ _
    have hfl2 : (2 : ℝ) ^ p / D < ((2 ^ p / D : ℕ) : ℝ) + 1 := by
      rw [div_lt_iff₀ hDr]
      have := Nat.lt_div_mul_add (a := 2 ^ p) hDpos
      have h2 : ((2 ^ p : ℕ) : ℝ) < ((2 ^ p / D * D + D : ℕ) : ℝ) := by exact_mod_cast this
      push_cast at h2 ⊢; linarith
    generalize (2 ^ p / D : ℕ) = F at *
    have hsgn : (2 : ℝ) ^ p * ((-1) ^ n * ((x : ℝ)⁻¹ ^ (2 * n + 1) / (2 * n + 1 : ℕ))) = (-1) ^ n * ((2 : ℝ) ^ p / D) := by
      rw [← hterm]; ring
    rw [hsgn]
    have hcast : ((arctanSum x p n + if n % 2 = 0 then (F : ℤ) else -(F : ℤ) : ℤ) : ℝ) =
        arctanSum x p n + (-1) ^ n * F := by
      rcases Nat.even_or_odd n with h | h
      · rw [if_pos (Nat.even_iff.mp h), h.neg_one_pow]; push_cast; ring
      · rw [if_neg (by have := Nat.odd_iff.mp h; omega), h.neg_one_pow]; push_cast; ring
    rw [hcast]
    have habs : |(-1 : ℝ) ^ n * ((2 : ℝ) ^ p / D) - (-1) ^ n * F| ≤ 1 := by
      rw [← mul_sub, abs_mul, abs_pow, abs_neg, abs_one, one_pow, one_mul, abs_le]; constructor <;> linarith
    generalize (2 : ℝ) ^ p * (∑ i ∈ range n, (-1) ^ i * ((x : ℝ)⁻¹ ^ (2 * i + 1) / (2 * i + 1 : ℕ))) = A at *
    rw [abs_le] at *
    push_cast at *
    constructor <;> linarith

theorem arctanSum_near (x p n : Nat) (hx : 2 ≤ x) (hn : 2 ^ p ≤ x ^ (2 * n + 1)) :
    |(2 : ℝ) ^ p * Real.arctan ((x : ℝ)⁻¹) - arctanSum x p n| ≤ n + 1 := by
  have hxr : (2 : ℝ) ≤ x := by exact_mod_cast hx
  have hinv0 : (0 : ℝ) ≤ (x : ℝ)⁻¹ := by positivity
  have hinv1 : (x : ℝ)⁻¹ < 1 := inv_lt_one_of_one_lt₀ (by linarith)
  have hnorm : ‖(x : ℝ)⁻¹‖ < 1 := by rwa [Real.norm_of_nonneg hinv0]
  have hsum := Real.hasSum_arctan hnorm
  set f : ℕ → ℝ := fun i => (x : ℝ)⁻¹ ^ (2 * i + 1) / (2 * i + 1 : ℕ) with hf
  have hfun : (fun i : ℕ => (-1) ^ i * (x : ℝ)⁻¹ ^ (2 * i + 1) / ((2 * i + 1 : ℕ) : ℝ)) = fun i => (-1) ^ i * f i := by
    funext i; simp only [hf]; rw [mul_div_assoc]
  rw [hfun] at hsum
  have hanti : Antitone f := by
    refine antitone_nat_of_succ_le fun i => ?_
    simp only [hf]
    apply div_le_div₀ (by positivity) _ (by positivity) (by push_cast; linarith)
    exact pow_le_pow_of_le_one hinv0 hinv1.le (by omega)
  have hsumm : Summable f := by
    refine Summable.of_nonneg_of_le (fun i => by positivity) (fun i => ?_)
      ((summable_geometric_of_lt_one hinv0 hinv1).comp_injective (i := fun i => 2 * i + 1) ?_)
    · simp only [hf, Function.comp]
      exact div_le_self (by positivity) (by push_cast; linarith [(Nat.cast_nonneg i : (0 : ℝ) ≤ i)])
    · intro a b h; simpa using h
  have herr := alternating_series_error_bound f hanti hsumm n
  rw [hsum.tsum_eq] at herr
  have hfn : (2 : ℝ) ^ p * f n ≤ 1 := by
    simp only [hf]
    rw [inv_pow, ← mul_div_assoc, div_le_one (by positivity), ← div_eq_mul_inv, div_le_iff₀ (by positivity)]
    have h1 : (2 : ℝ) ^ p ≤ (x : ℝ) ^ (2 * n + 1) := by exact_mod_cast hn
    have h2 : (1 : ℝ) ≤ (2 * n + 1 : ℕ) := by push_cast; linarith [(Nat.cast_nonneg n : (0 : ℝ) ≤ n)]
    nlinarith [pow_pos (by linarith : (0 : ℝ) < x) (2 * n + 1)]
  have hps := arctanSum_near_partialSum x p n hx
  have h2p : (0 : ℝ) < 2 ^ p := by positivity
  have e1 : |(2 : ℝ) ^ p * Real.arctan ((x : ℝ)⁻¹) - 2 ^ p * ∑ i ∈ range n, (-1) ^ i * f i| ≤ 1 := by
    rw [← mul_sub, abs_mul, abs_of_pos h2p]
    exact le_trans (mul_le_mul_of_nonneg_left herr h2p.le) hfn
  have := abs_sub_le ((2 : ℝ) ^ p * Real.arctan ((x : ℝ)⁻¹)) (2 ^ p * ∑ i ∈ range n, (-1) ^ i * f i) (arctanSum x p n)
  linarith

theorem piEnclosure_contains_pi (p : Nat) :
    ((piEnclosure p).1 : ℝ) ≤ 2 ^ p * Real.pi ∧ 2 ^ p * Real.pi ≤ ((piEnclosure p).2 : ℝ) := by
  have h5 := arctanSum_near 5 p (p / 4 + 1) (by norm_num) (by
    calc 2 ^ p ≤ 2 ^ (4 * (p / 4 + 1)) := Nat.pow_le_pow_right (by norm_num) (by omega)
      _ = 16 ^ (p / 4 + 1) := by rw [pow_mul]; norm_num
      _ ≤ 25 ^ (p / 4 + 1) := Nat.pow_le_pow_left (by norm_num) _
      _ = 5 ^ (2 * (p / 4 + 1)) := by rw [pow_mul]; norm_num
      _ ≤ _ := Nat.pow_le_pow_right (by norm_num) (by omega))
  have h239 := arctanSum_near 239 p (p / 15 + 1) (by norm_num) (by
    calc 2 ^ p ≤ 2 ^ (15 * (p / 15 + 1)) := Nat.pow_le_pow_right (by norm_num) (by omega)
      _ = 32768 ^ (p / 15 + 1) := by rw [pow_mul]; norm_num
      _ ≤ 57121 ^ (p / 15 + 1) := Nat.pow_le_pow_left (by norm_num) _
      _ = 239 ^ (2 * (p / 15 + 1)) := by rw [pow_mul]; norm_num
      _ ≤ _ := Nat.pow_le_pow_right (by norm_num) (by omega))
  have hm := Real.four_mul_arctan_inv_5_sub_arctan_inv_239
  have hpi : (2 : ℝ) ^ p * Real.pi = 16 * (2 ^ p * Real.arctan 5⁻¹) - 4 * (2 ^ p * Real.arctan 239⁻¹) := by
    have : Real.pi = 4 * (4 * Real.arctan 5⁻¹ - Real.arctan 239⁻¹) := by rw [hm]; ring
    rw [this]; ring
  unfold piEnclosure
  simp only
  rw [hpi]
  generalize p / 4 + 1 = n₅ at *
  generalize p / 15 + 1 = n₂₃₉ at *
  rw [abs_le] at h5 h239
  norm_num at h5 h239
  push_cast
  constructor <;> linarith [h5.1, h5.2, h239.1, h239.2]

/-- width of the enclosure -/
theorem expSeries_value (a : Int) (w : Nat) (steps : Nat) : ∀ m,
    let e := expSeries a w steps m
    0 < e.2.2 ∧ ((e.1 : ℂ) + e.2.1 * Complex.I) / e.2.2 =
      ∑ t ∈ range steps, (((a : ℂ) / 2 ^ w) * Complex.I) ^ t * (m.factorial / (m + t).factorial) := by
  induction steps with
  | zero => intro m; simp [expSeries]
  | succ s ih =>
    intro m
    have h := ih (m + 1)
    simp only at h
    unfold expSeries
    rcases he : expSeries a w s (m + 1) with ⟨re, im, den⟩
    rw [he] at h
    simp only at h ⊢
    obtain ⟨hd, hv⟩ := h
    refine ⟨by positivity, ?_⟩
    rw [sum_range_succ']
    have hden : (den : ℂ) ≠ 0 := by exact_mod_cast hd.ne'
    have hm : ((m : ℂ) + 1) ≠ 0 := by exact_mod_cast Nat.succ_ne_zero m
    have hmf : ((m.factorial : ℕ) : ℂ) ≠ 0 := by exact_mod_cast (Nat.factorial_pos m).ne'
    set z : ℂ := ((a : ℂ) / 2 ^ w) * Complex.I with hz
    have hshift : ∑ t ∈ range s, z ^ (t + 1) * ((m.factorial : ℂ) / (m + (t + 1)).factorial) =
        z / (m + 1) * (∑ t ∈ range s, z ^ t * (((m + 1).factorial : ℂ) / (m + 1 + t).factorial)) := by
      rw [mul_sum]
      apply sum_congr rfl
      intro t _
      rw [show m + (t + 1) = m + 1 + t by ring, Nat.factorial_succ m]
      push_cast
      field_simp
      ring
    rw [hshift, ← hv]
    simp only [pow_zero, add_zero, one_mul, div_self hmf]
    push_cast
    rw [hz]
    have hI : Complex.I ^ 2 = -1 := Complex.I_sq
    field_simp
    ring_nf
    rw [hI]
    ring

theorem expSeries_near (a : Int) (w n : Nat) (hn : 0 < n) (ha : a.natAbs ≤ 2 ^ w) :
    let e := expSeries a w n 0
    0 < e.2.2 ∧ |Real.cos ((a : ℝ) / 2 ^ w) - (e.1 : ℝ) / e.2.2| ≤ 2 / n.factorial ∧
      |Real.sin ((a : ℝ) / 2 ^ w) - (e.2.1 : ℝ) / e.2.2| ≤ 2 / n.factorial := by
  intro e
  have hv := expSeries_value a w n 0
  simp only at hv
  obtain ⟨hd, hv⟩ := hv
  refine ⟨hd, ?_⟩
  set y : ℝ := (a : ℝ) / 2 ^ w with hy
  have hyabs : |y| ≤ 1 := by
    rw [hy, abs_div, abs_of_pos (by positivity : (0 : ℝ) < 2 ^ w), div_le_one (by positivity)]
    have : ((a.natAbs : ℕ) : ℝ) ≤ ((2 ^ w : ℕ) : ℝ) := by exact_mod_cast ha
    rw [Nat.cast_natAbs] at this
    push_cast at this; exact this
  have hz : ((a : ℂ) / 2 ^ w) * Complex.I = (y : ℂ) * Complex.I := by rw [hy]; push_cast; rfl
  rw [hz] at hv
  have hnorm : ‖(y : ℂ) * Complex.I‖ ≤ 1 := by
    rw [norm_mul, Complex.norm_I, mul_one, Complex.norm_real, Real.norm_eq_abs]; exact hyabs
  have hb := Complex.exp_bound hnorm hn
  have hs : ∑ t ∈ range n, ((y : ℂ) * Complex.I) ^ t * ((Nat.factorial 0 : ℂ) / (0 + t).factorial) =
      ∑ t ∈ range n, ((y : ℂ) * Complex.I) ^ t / t.factorial := by
    apply sum_congr rfl; intro t _; simp [div_eq_mul_inv]
  rw [hs] at hv
  rw [← hv] at hb
  have hbound : ‖(y : ℂ) * Complex.I‖ ^ n * ((n.succ : ℝ) * ((n.factorial * n : ℝ))⁻¹) ≤ 2 / n.factorial := by
    have h1 : ‖(y : ℂ) * Complex.I‖ ^ n ≤ 1 := pow_le_one₀ (norm_nonneg _) hnorm
    have hnr : (1 : ℝ) ≤ n := by exact_mod_cast hn
    have hf : (0 : ℝ) < n.factorial := by exact_mod_cast Nat.factorial_pos n
    have h2 : (n.succ : ℝ) * ((n.factorial * n : ℝ))⁻¹ ≤ 2 / n.factorial := by
      rw [← div_eq_mul_inv, div_le_div_iff₀ (by positivity) hf]
      push_cast; nlinarith
    have h3 : (0 : ℝ) ≤ (n.succ : ℝ) * ((n.factorial * n : ℝ))⁻¹ := by positivity
    nlinarith
  have hb := hb.trans hbound
  have hre := (Complex.abs_re_le_norm _).trans hb
  have him := (Complex.abs_im_le_norm _).trans hb
  rw [Complex.sub_re, Complex.exp_ofReal_mul_I_re] at hre
  rw [Complex.sub_im, Complex.exp_ofReal_mul_I_im] at him
  have e1 : (((e.1 : ℂ) + e.2.1 * Complex.I) / (e.2.2 : ℂ)).re = (e.1 : ℝ) / e.2.2 := by
    have : (((e.1 : ℂ) + e.2.1 * Complex.I) / (e.2.2 : ℂ)) = (((e.1 : ℝ) / e.2.2 : ℝ) : ℂ) + (((e.2.1 : ℝ) / e.2.2 : ℝ) : ℂ) * Complex.I := by
      push_cast; ring
    rw [this]; simp
  have e2 : (((e.1 : ℂ) + e.2.1 * Complex.I) / (e.2.2 : ℂ)).im = (e.2.1 : ℝ) / e.2.2 := by
    have : (((e.1 : ℂ) + e.2.1 * Complex.I) / (e.2.2 : ℂ)) = (((e.1 : ℝ) / e.2.2 : ℝ) : ℂ) + (((e.2.1 : ℝ) / e.2.2 : ℝ) : ℂ) * Complex.I := by
      push_cast; ring
    rw [this]; simp
  exact ⟨e1 ▸ hre, e2 ▸ him⟩

/-- `e` encloses `2^w · v`. -/
def Encloses (w : Nat) (e : Int × Int) (v : ℝ) : Prop := (e.1 : ℝ) ≤ 2 ^ w * v ∧ 2 ^ w * v ≤ e.2

theorem pow2_cast (n : Nat) : ((pow2 n : ℤ) : ℝ) = 2 ^ n := by unfold pow2; push_cast; rfl

theorem pow2_pos (n : Nat) : 0 < pow2 n := by unfold pow2; exact_mod_cast Nat.two_pow_pos n

theorem ediv_real (a d : ℤ) (hd : 0 < d) : ((a / d : ℤ) : ℝ) ≤ (a : ℝ) / d ∧ (a : ℝ) / d < ((a / d : ℤ) : ℝ) + 1 := by
  have hdr : (0 : ℝ) < d := by exact_mod_cast hd
  have h1 := Int.mul_ediv_add_emod a d
  have h2 := Int.emod_nonneg a hd.ne'
  have h3 := Int.emod_lt_of_pos a hd
  have h1r : (d : ℝ) * ((a / d : ℤ) : ℝ) + ((a % d : ℤ) : ℝ) = a := by exact_mod_cast h1
  have h2r : (0 : ℝ) ≤ ((a % d : ℤ) : ℝ) := by exact_mod_cast h2
  have h3r : ((a % d : ℤ) : ℝ) < d := by exact_mod_cast h3
  constructor
  · rw [le_div_iff₀ hdr]; linarith
  · rw [div_lt_iff₀ hdr]; linarith

theorem trigEnclosure_sound (w n : Nat) (hn : 0 < n) (a b : Int) (y : ℝ) (hy : Encloses w (a, b) y) :
    Encloses w (trigEnclosure w n a b).1 (Real.cos y) ∧ Encloses w (trigEnclosure w n a b).2 (Real.sin y) := by
  have h2w : (0 : ℝ) < 2 ^ w := by positivity
  obtain ⟨hya, hyb⟩ := hy
  simp only at hya hyb
  unfold trigEnclosure
  split
  · rename_i ha
    have he := expSeries_near a w n hn ha
    rcases hE : expSeries a w n 0 with ⟨re, im, den⟩
    rw [hE] at he
    simp only at he ⊢
    obtain ⟨hd, hc, hs⟩ := he
    have hdz : (0 : ℤ) < den := by exact_mod_cast hd
    have hdiff : |y - (a : ℝ) / 2 ^ w| ≤ ((b - a : ℤ) : ℝ) / 2 ^ w := by
      have h1 : y - (a : ℝ) / 2 ^ w = (2 ^ w * y - a) / 2 ^ w := by field_simp
      rw [h1, abs_div, abs_of_pos h2w, abs_of_nonneg (by linarith)]
      apply div_le_div_of_nonneg_right _ h2w.le
      push_cast; linarith
    have hcos : |Real.cos y - Real.cos ((a : ℝ) / 2 ^ w)| ≤ ((b - a : ℤ) : ℝ) / 2 ^ w :=
      le_trans (by simpa [Real.dist_eq] using Real.abs_cos_sub_cos_le y ((a : ℝ) / 2 ^ w)) hdiff
    have hsin : |Real.sin y - Real.sin ((a : ℝ) / 2 ^ w)| ≤ ((b - a : ℤ) : ℝ) / 2 ^ w :=
      le_trans (by simpa [Real.dist_eq] using Real.abs_sin_sub_sin_le y ((a : ℝ) / 2 ^ w)) hdiff
    have hfac : (2 : ℝ) ^ w * (2 / n.factorial) ≤ ((2 ^ (w + 1) / n.factorial : ℕ) : ℝ) + 1 := by
      have hfp := Nat.factorial_pos n
      have hf : (0 : ℝ) < n.factorial := by exact_mod_cast hfp
      have := Nat.lt_div_mul_add (a := 2 ^ (w + 1)) hfp
      have h3 : ((2 ^ (w + 1) : ℕ) : ℝ) < (((2 ^ (w + 1) / n.factorial) * n.factorial + n.factorial : ℕ) : ℝ) := by
        exact_mod_cast this
      generalize 2 ^ (w + 1) / n.factorial = F at *
      rw [← mul_div_assoc, div_le_iff₀ hf]
      rw [pow_succ] at h3
      push_cast at h3
      linarith
    have key : ∀ (v v₀ : ℝ) (num : ℤ), |v - v₀| ≤ ((b - a : ℤ) : ℝ) / 2 ^ w → |v₀ - (num : ℝ) / den| ≤ 2 / n.factorial →
        Encloses w (num * pow2 w / den - ((2 ^ (w + 1) / n.factorial : ℕ) + 1 + (b - a)),
          num * pow2 w / den + 1 + ((2 ^ (w + 1) / n.factorial : ℕ) + 1 + (b - a))) v := by
      intro v v₀ num h1 h2
      have hq := ediv_real (num * pow2 w) den hdz
      have h4 : ((num * pow2 w : ℤ) : ℝ) / ((den : ℤ) : ℝ) = 2 ^ w * ((num : ℝ) / den) := by
        push_cast; rw [pow2_cast]; ring
      rw [h4] at hq
      have h5 : |2 ^ w * v - 2 ^ w * ((num : ℝ) / den)| ≤ ((b - a : ℤ) : ℝ) + (((2 ^ (w + 1) / n.factorial : ℕ) : ℝ) + 1) := by
        have h6 := abs_sub_le v v₀ ((num : ℝ) / den)
        rw [← mul_sub, abs_mul, abs_of_pos h2w]
        have h7 : 2 ^ w * |v - (num : ℝ) / den| ≤ 2 ^ w * (((b - a : ℤ) : ℝ) / 2 ^ w + 2 / n.factorial) :=
          mul_le_mul_of_nonneg_left (by linarith) h2w.le
        rw [mul_add, mul_div_cancel₀ _ h2w.ne'] at h7
        linarith
      rw [abs_le] at h5
      generalize 2 ^ (w + 1) / n.factorial = F at *
      constructor
      · simp only; push_cast at h5 hq ⊢; linarith [h5.1, hq.1]
      · simp only; push_cast at h5 hq ⊢; linarith [h5.2, hq.2]
    exact ⟨key _ _ re hcos hc, key _ _ im hsin hs⟩
  · have hb : ∀ v : ℝ, |v| ≤ 1 → Encloses w (-pow2 w, pow2 w) v := by
      intro v hv
      rw [abs_le] at hv
      constructor
      · simp only; push_cast; rw [pow2_cast]; nlinarith
      · simp only; rw [pow2_cast]; nlinarith
    exact ⟨hb _ (Real.abs_cos_le_one y), hb _ (Real.abs_sin_le_one y)⟩

theorem residualEnclosure_sound (w p : Nat) (pi : Int × Int) (hpi : Encloses p pi Real.pi) (x c : Int) (k : Nat) :
    Encloses w (residualEnclosure w p pi x c k) ((x : ℝ) / 2 ^ 1074 + Real.pi * c / 2 ^ (k + 1)) := by
  obtain ⟨h1, h2⟩ := hpi
  unfold residualEnclosure
  simp only
  have hM : (2 : ℝ) ^ (1074 + p + k + 1) = 2 ^ 1074 * 2 ^ p * 2 ^ (k + 1) := by rw [add_assoc (1074 + p), pow_add, pow_add]
  have hA : (2 : ℝ) ^ (p + k + 1) = 2 ^ p * 2 ^ (k + 1) := by rw [add_assoc, pow_add]
  have hval : 2 ^ w * ((x : ℝ) / 2 ^ 1074 + Real.pi * c / 2 ^ (k + 1)) =
      ((x : ℝ) * 2 ^ (p + k + 1) + c * (2 ^ p * Real.pi) * 2 ^ 1074) * 2 ^ w / 2 ^ (1074 + p + k + 1) := by
    rw [hM, hA]
    have a1 : (2 : ℝ) ^ 1074 ≠ 0 := by positivity
    have a2 : (2 : ℝ) ^ p ≠ 0 := by positivity
    have a3 : (2 : ℝ) ^ (k + 1) ≠ 0 := by positivity
    generalize (2 : ℝ) ^ 1074 = K1 at *
    generalize (2 : ℝ) ^ p = K2 at *
    generalize (2 : ℝ) ^ (k + 1) = K3 at *
    field_simp
  have h3 : (0 : ℝ) < 2 ^ 1074 := by positivity
  have h4 : (0 : ℝ) < 2 ^ (1074 + p + k + 1) := by positivity
  have h5 : (0 : ℝ) < 2 ^ w := by positivity
  have hmono : ∀ u v : ℝ, u ≤ v → ((x : ℝ) * 2 ^ (p + k + 1) + u * 2 ^ 1074) * 2 ^ w / 2 ^ (1074 + p + k + 1) ≤
      ((x : ℝ) * 2 ^ (p + k + 1) + v * 2 ^ 1074) * 2 ^ w / 2 ^ (1074 + p + k + 1) := by
    intro u v huv
    apply div_le_div_of_nonneg_right _ h4.le
    apply mul_le_mul_of_nonneg_right _ h5.le
    exact add_le_add (le_refl _) (mul_le_mul_of_nonneg_right huv h3.le)
  have hlo : ((c * (if 0 ≤ c then pi.1 else pi.2) : ℤ) : ℝ) ≤ c * (2 ^ p * Real.pi) := by
    push_cast
    split
    · rename_i h
      have : (0 : ℝ) ≤ c := by exact_mod_cast h
      exact mul_le_mul_of_nonneg_left h1 this
    · rename_i h
      have : (c : ℝ) ≤ 0 := by exact_mod_cast (le_of_lt (not_le.mp h))
      exact mul_le_mul_of_nonpos_left h2 this
  have hhi : (c : ℝ) * (2 ^ p * Real.pi) ≤ ((c * (if 0 ≤ c then pi.2 else pi.1) : ℤ) : ℝ) := by
    push_cast
    split
    · rename_i h
      have : (0 : ℝ) ≤ c := by exact_mod_cast h
      exact mul_le_mul_of_nonneg_left h2 this
    · rename_i h
      have : (c : ℝ) ≤ 0 := by exact_mod_cast (le_of_lt (not_le.mp h))
      exact mul_le_mul_of_nonpos_left h1 this
  have hlo := hmono _ _ hlo
  have hhi := hmono _ _ hhi
  rw [← hval] at hlo hhi
  clear hval hmono h3 h4 hM hA
  constructor
  · simp only
    refine le_trans (ediv_real _ _ (pow2_pos _)).1 (le_trans (le_of_eq ?_) hlo)
    push_cast
    simp only [pow2_cast]
  · simp only
    have h6 := (ediv_real (-(x * pow2 (p + k + 1) + c * (if 0 ≤ c then pi.2 else pi.1) * pow2 1074) * pow2 w)
      (pow2 (1074 + p + k + 1)) (pow2_pos _)).1
    rw [Int.cast_neg]
    refine le_trans hhi (le_trans (le_of_eq ?_) (neg_le_neg h6))
    push_cast
    simp only [pow2_cast]
    rw [← neg_div]
    congr 1
    generalize (2 : ℝ) ^ 1074 = K1
    ring

theorem encloses_neg {w : Nat} {e : Int × Int} {v : ℝ} (h : Encloses w e v) : Encloses w (negEnclosure e) (-v) := by
  obtain ⟨h1, h2⟩ := h
  unfold negEnclosure
  constructor
  · simp only; push_cast; linarith
  · simp only; push_cast; linarith

theorem rotateEnclosure_sound (w : Nat) (n : Int) (cs : (Int × Int) × (Int × Int)) (y : ℝ)
    (hc : Encloses w cs.1 (Real.cos y)) (hs : Encloses w cs.2 (Real.sin y)) :
    Encloses w (rotateEnclosure n cs).1 (Real.cos (y + n * (Real.pi / 2))) ∧
      Encloses w (rotateEnclosure n cs).2 (Real.sin (y + n * (Real.pi / 2))) := by
  obtain ⟨m, r, hr0, hr4, hn⟩ : ∃ m r : ℤ, 0 ≤ r ∧ r < 4 ∧ n = 4 * m + r := ⟨n / 4, n % 4, by omega, by omega, by omega⟩
  have hang : y + n * (Real.pi / 2) = y + r * (Real.pi / 2) + m * (2 * Real.pi) := by rw [hn]; push_cast; ring
  rw [hang, Real.cos_add_int_mul_two_pi, Real.sin_add_int_mul_two_pi]
  have hmod : n % 4 = r := by omega
  unfold rotateEnclosure
  rw [hmod]
  have h4 : r = 0 ∨ r = 1 ∨ r = 2 ∨ r = 3 := by omega
  rcases h4 with rfl | rfl | rfl | rfl
  · simp only [if_true]
    norm_num
    exact ⟨hc, hs⟩
  · norm_num
    rw [Real.cos_add_pi_div_two, Real.sin_add_pi_div_two]
    exact ⟨encloses_neg hs, hc⟩
  · norm_num
    rw [show (2 : ℝ) * (Real.pi / 2) = Real.pi by ring, Real.cos_add_pi, Real.sin_add_pi]
    exact ⟨encloses_neg hc, encloses_neg hs⟩
  · norm_num
    have h3 : y + 3 * (Real.pi / 2) = y + Real.pi / 2 + Real.pi := by ring
    rw [h3, Real.cos_add_pi, Real.sin_add_pi, Real.cos_add_pi_div_two, Real.sin_add_pi_div_two, neg_neg]
    exact ⟨hs, encloses_neg hc⟩

theorem pointEnclosure_sound (p : Nat) (x : Int) (k j : Nat) :
    let θ : ℝ := (x : ℝ) / 2 ^ 1074 + 2 * Real.pi * j / 2 ^ k
    Encloses (enclosureBits p) (pointEnclosure p x k j).1 (Real.cos θ) ∧
      Encloses (enclosureBits p) (pointEnclosure p x k j).2 (Real.sin θ) := by
  intro θ
  unfold pointEnclosure
  simp only
  generalize enclosureBits p = w
  generalize w + 24 + floorLog2 w + (floorLog2 x.natAbs - 1074) = q
  have hpi : Encloses q (piEnclosure q) Real.pi := piEnclosure_contains_pi q
  generalize quarterTurns q (piEnclosure q).1 x k j = n
  have hres := residualEnclosure_sound w q (piEnclosure q) hpi x (4 * j - n * pow2 k) k
  have htrig := trigEnclosure_sound w (seriesTerms p) (by unfold seriesTerms; omega) _ _ _ hres
  have hrot := rotateEnclosure_sound w n _ _ htrig.1 htrig.2
  have hang : (x : ℝ) / 2 ^ 1074 + Real.pi * ((4 * j - n * pow2 k : ℤ) : ℝ) / 2 ^ (k + 1) + n * (Real.pi / 2) = θ := by
    change _ = (x : ℝ) / 2 ^ 1074 + 2 * Real.pi * j / 2 ^ k
    generalize (x : ℝ) / 2 ^ 1074 = X
    push_cast
    rw [pow2_cast, pow_succ]
    have : (2 : ℝ) ^ k ≠ 0 := by positivity
    field_simp
    ring
  rw [hang] at hrot
  exact hrot

theorem piEnclosure_width (q : Nat) : ((piEnclosure q).2 : ℝ) - (piEnclosure q).1 ≤ 9 * q + 80 := by
  unfold piEnclosure
  simp only
  have h1 : ((q / 4 + 1 : ℕ) : ℝ) ≤ q / 4 + 1 := by
    push_cast; linarith [@Nat.cast_div_le ℝ _ _ _ q 4]
  have h2 : ((q / 15 + 1 : ℕ) : ℝ) ≤ q / 15 + 1 := by
    push_cast; linarith [@Nat.cast_div_le ℝ _ _ _ q 15]
  generalize q / 4 + 1 = a at *
  generalize q / 15 + 1 = b at *
  have hq : (0 : ℝ) ≤ q := Nat.cast_nonneg q
  push_cast
  linarith

/-- The reduced angle and its factor, for the number of quarter turns taken. -/
theorem quarterTurns_near (q : Nat) (piLo x : Int) (k j : Nat) (hpos : 0 < piLo) :
    let u : ℝ := 2 * ((x : ℝ) / 2 ^ 1074) / (piLo / 2 ^ q) + 4 * j / 2 ^ k
    |u - quarterTurns q piLo x k j| ≤ 1 / 2 := by
  intro u
  unfold quarterTurns
  simp only
  have hden : 0 < 2 * (piLo * pow2 (1074 + k)) := by
    have := pow2_pos (1074 + k); positivity
  have h := ediv_real (2 * (x * pow2 (q + k + 1) + 4 * j * piLo * pow2 1074) + piLo * pow2 (1074 + k)) _ hden
  have hu : ((2 * (x * pow2 (q + k + 1) + 4 * j * piLo * pow2 1074) + piLo * pow2 (1074 + k) : ℤ) : ℝ) /
      ((2 * (piLo * pow2 (1074 + k)) : ℤ) : ℝ) = u + 1 / 2 := by
    have hp : (0 : ℝ) < piLo := by exact_mod_cast hpos
    change _ = 2 * ((x : ℝ) / 2 ^ 1074) / (piLo / 2 ^ q) + 4 * j / 2 ^ k + 1 / 2
    push_cast
    simp only [pow2_cast]
    have e1 : (2 : ℝ) ^ (q + k + 1) = 2 ^ q * 2 ^ k * 2 := by rw [pow_succ, pow_add]
    have e2 : (2 : ℝ) ^ (1074 + k) = 2 ^ 1074 * 2 ^ k := by rw [pow_add]
    rw [e1, e2]
    have a1 : (2 : ℝ) ^ 1074 ≠ 0 := by positivity
    have a2 : (2 : ℝ) ^ q ≠ 0 := by positivity
    have a3 : (2 : ℝ) ^ k ≠ 0 := by positivity
    generalize (2 : ℝ) ^ 1074 = K1 at *
    generalize (2 : ℝ) ^ q = K2 at *
    generalize (2 : ℝ) ^ k = K3 at *
    have := hp.ne'
    field_simp
  rw [hu] at h
  generalize (2 * (x * pow2 (q + k + 1) + 4 * j * piLo * pow2 1074) + piLo * pow2 (1074 + k)) / (2 * (piLo * pow2 (1074 + k))) = n at *
  rw [abs_le]
  constructor <;> linarith [h.1, h.2]

theorem natAbs_lt_pow (x : Int) : (|(x : ℝ)|) / 2 ^ 1074 < 2 ^ (floorLog2 x.natAbs - 1074 + 1) := by
  rw [floorLog2_eq_log2, div_lt_iff₀ (by positivity), ← pow_add]
  have h1 : ((x.natAbs : ℕ) : ℝ) < ((2 ^ (x.natAbs.log2 + 1) : ℕ) : ℝ) := by exact_mod_cast Nat.lt_log2_self
  rw [Nat.cast_natAbs] at h1
  push_cast at h1
  refine lt_of_lt_of_le h1 ?_
  exact pow_le_pow_right₀ (by norm_num) (by omega)

theorem residual_width (w p : Nat) (pi : Int × Int) (x c : Int) (k : Nat) :
    (((residualEnclosure w p pi x c k).2 - (residualEnclosure w p pi x c k).1 : ℤ) : ℝ) ≤
      |(c : ℝ)| * (pi.2 - pi.1) * 2 ^ w / (2 ^ p * 2 ^ (k + 1)) + 2 := by
  unfold residualEnclosure
  simp only
  set A : ℤ := x * pow2 (p + k + 1) + c * (if 0 ≤ c then pi.1 else pi.2) * pow2 1074 with hA
  set B : ℤ := x * pow2 (p + k + 1) + c * (if 0 ≤ c then pi.2 else pi.1) * pow2 1074 with hB
  have h1 := (ediv_real (A * pow2 w) _ (pow2_pos (1074 + p + k + 1))).2
  have h2 := (ediv_real (-B * pow2 w) _ (pow2_pos (1074 + p + k + 1))).2
  have hBA : (B : ℝ) - A = |(c : ℝ)| * (pi.2 - pi.1) * 2 ^ 1074 := by
    rw [hA, hB]; push_cast
    rw [pow2_cast 1074]
    generalize (2 : ℝ) ^ 1074 = K
    split
    · rename_i h
      rw [abs_of_nonneg (by exact_mod_cast h)]; ring
    · rename_i h
      rw [abs_of_neg (by exact_mod_cast (not_le.mp h))]; ring
  have hM : (2 : ℝ) ^ (1074 + p + k + 1) = 2 ^ 1074 * (2 ^ p * 2 ^ (k + 1)) := by rw [add_assoc (1074 + p), pow_add, pow_add, mul_assoc]
  have hq : ((B : ℝ) - A) * 2 ^ w / 2 ^ (1074 + p + k + 1) = |(c : ℝ)| * (pi.2 - pi.1) * 2 ^ w / (2 ^ p * 2 ^ (k + 1)) := by
    rw [hBA, hM]
    have a1 : (2 : ℝ) ^ 1074 ≠ 0 := by positivity
    generalize (2 : ℝ) ^ 1074 = K at *
    have a2 : (2 : ℝ) ^ p ≠ 0 := by positivity
    have a3 : (2 : ℝ) ^ (k + 1) ≠ 0 := by positivity
    field_simp
  clear_value A B
  rw [← hq]
  have e1 : ((A * pow2 w : ℤ) : ℝ) / ((pow2 (1074 + p + k + 1) : ℤ) : ℝ) = (A : ℝ) * 2 ^ w / 2 ^ (1074 + p + k + 1) := by
    push_cast; rw [pow2_cast, pow2_cast]
  have e2 : ((-B * pow2 w : ℤ) : ℝ) / ((pow2 (1074 + p + k + 1) : ℤ) : ℝ) = -((B : ℝ) * 2 ^ w / 2 ^ (1074 + p + k + 1)) := by
    push_cast; rw [pow2_cast, pow2_cast]; ring
  rw [e1] at h1
  rw [e2] at h2
  rw [sub_mul, sub_div]
  push_cast at h1 h2 ⊢
  generalize (A : ℝ) * 2 ^ w / 2 ^ (1074 + p + k + 1) = a at *
  generalize (B : ℝ) * 2 ^ w / 2 ^ (1074 + p + k + 1) = b at *
  linarith

theorem trigEnclosure_width {w n : Nat} {a b : Int} (ha : a.natAbs ≤ 2 ^ w) (hf : 2 ^ (w + 1) < n.factorial) :
    (trigEnclosure w n a b).1.2 - (trigEnclosure w n a b).1.1 = 3 + 2 * (b - a) ∧
    (trigEnclosure w n a b).2.2 - (trigEnclosure w n a b).2.1 = 3 + 2 * (b - a) := by
  unfold trigEnclosure
  rw [if_pos ha, Nat.div_eq_of_lt hf]
  rcases expSeries a w n 0 with ⟨re, im, den⟩
  simp only
  constructor <;> push_cast <;> ring

theorem rotateEnclosure_width {n : Int} {cs : (Int × Int) × (Int × Int)} {d : Int} (hc : cs.1.2 - cs.1.1 = d)
    (hs : cs.2.2 - cs.2.1 = d) :
    (rotateEnclosure n cs).1.2 - (rotateEnclosure n cs).1.1 = d ∧ (rotateEnclosure n cs).2.2 - (rotateEnclosure n cs).2.1 = d := by
  unfold rotateEnclosure negEnclosure
  split
  · exact ⟨hc, hs⟩
  · split
    · constructor
      · simp only; omega
      · simp only; omega
    · split
      · constructor <;> (simp only; omega)
      · constructor <;> (simp only; omega)

theorem rotated_narrow (w g N E : Nat) (x : Int) (k j : Nat) (hE : E = floorLog2 x.natAbs - 1074)
    (hE1 : E ≤ 1023) (hw24 : 24 ≤ w) (hg : w < 2 ^ (g + 1)) (hfact : 2 ^ (w + 1) < Nat.factorial N) :
    let q := w + 24 + g + E
    let n := quarterTurns q (piEnclosure q).1 x k j
    let r := residualEnclosure w q (piEnclosure q) x (4 * j - n * pow2 k) k
    let e := rotateEnclosure n (trigEnclosure w N r.1 r.2)
    e.1.2 - e.1.1 ≤ 9 ∧ e.2.2 - e.2.1 ≤ 9 := by
  intro q n₀ r₀ e
  have hq : q = w + 24 + g + E := rfl
  have hpi := piEnclosure_contains_pi q
  have hwid := piEnclosure_width q
  have hG1 : (1 : ℝ) ≤ 2 ^ g := one_le_pow₀ (by norm_num)
  have hwid2 : ((piEnclosure q).2 : ℝ) - (piEnclosure q).1 ≤ 2 ^ 16 * 2 ^ g := by
    have hqn : 9 * q + 80 ≤ 2 ^ 16 * 2 ^ g := by
      have := g.lt_two_pow_self
      rw [pow_succ] at hg
      omega
    have : ((9 * q + 80 : ℕ) : ℝ) ≤ ((2 ^ 16 * 2 ^ g : ℕ) : ℝ) := by exact_mod_cast hqn
    push_cast at this
    exact hwid.trans (this.trans (le_of_eq (by norm_num)))
  have h2q : (2 : ℝ) ^ q = 2 ^ w * 2 ^ 24 * 2 ^ g * 2 ^ E := by rw [hq, pow_add, pow_add, pow_add]
  have hE0 : (1 : ℝ) ≤ 2 ^ E := one_le_pow₀ (by norm_num)
  have hbig : (2 : ℝ) ^ 24 ≤ 2 ^ w := pow_le_pow_right₀ (by norm_num) hw24
  have hXabs : |(x : ℝ) / 2 ^ 1074| < 2 ^ (E + 1) := by
    rw [abs_div, abs_of_pos (by positivity : (0 : ℝ) < 2 ^ 1074), hE]; exact natAbs_lt_pow x
  clear hE
  have hwpos : (0 : ℝ) < 2 ^ w := by positivity
  have he : e = rotateEnclosure (quarterTurns q (piEnclosure q).1 x k j)
      (trigEnclosure w N
        (residualEnclosure w q (piEnclosure q) x (4 * j - quarterTurns q (piEnclosure q).1 x k j * pow2 k) k).1
        (residualEnclosure w q (piEnclosure q) x (4 * j - quarterTurns q (piEnclosure q).1 x k j * pow2 k) k).2) := rfl
  clear_value e r₀ n₀ q
  have hturn := fun h => quarterTurns_near q (piEnclosure q).1 x k j h
  have hwidth := fun c => residual_width w q (piEnclosure q) x c k
  have hsound := fun c => residualEnclosure_sound w q (piEnclosure q) hpi x c k
  generalize (x : ℝ) / 2 ^ 1074 = X at *
  generalize hpie : piEnclosure q = pi at *
  obtain ⟨lo, hi⟩ := pi
  simp only at hpi hwid2 he
  -- the lower end of pi
  have h2qpos : (0 : ℝ) < 2 ^ q := by positivity
  have hplo : 3 ≤ (lo : ℝ) / 2 ^ q := by
    rw [le_div_iff₀ h2qpos]
    have h314 := Real.pi_gt_d2
    have h1 : (2 : ℝ) ^ 16 * 2 ^ g ≤ 0.14 * 2 ^ q := by
      have e : 0.14 * (2 : ℝ) ^ q = 2 ^ g * (0.14 * 2 ^ 24 * 2 ^ w * 2 ^ E) := by rw [h2q]; ring
      rw [e, mul_comm]
      apply mul_le_mul_of_nonneg_left _ (by linarith)
      generalize (2 : ℝ) ^ w = K at *
      generalize (2 : ℝ) ^ E = L at *
      have : K ≤ K * L := by nlinarith
      norm_num at hbig ⊢
      nlinarith
    nlinarith
  have hplo2 : (lo : ℝ) / 2 ^ q ≤ Real.pi := by rw [div_le_iff₀ h2qpos]; linarith
  have hgap : Real.pi - (lo : ℝ) / 2 ^ q ≤ 2 ^ 16 * 2 ^ g / 2 ^ q := by
    have : Real.pi = 2 ^ q * Real.pi / 2 ^ q := by field_simp
    rw [this, ← sub_div]
    apply div_le_div_of_nonneg_right _ h2qpos.le
    linarith
  have hlopos : 0 < lo := by
    have : (0 : ℝ) < lo := by
      have := (le_div_iff₀ h2qpos).mp hplo
      nlinarith
    exact_mod_cast this
  have hturn := hturn hlopos
  generalize quarterTurns q lo x k j = n at *
  simp only at hturn
  set P := (lo : ℝ) / 2 ^ q with hP
  have hwidth := hwidth (4 * j - n * pow2 k)
  have hsound := hsound (4 * j - n * pow2 k)
  have hk : (0 : ℝ) < 2 ^ k := by positivity
  set J := (4 : ℝ) * j / 2 ^ k with hJd
  -- bounds on c / 2^(k+1)
  set c : ℤ := 4 * j - n * pow2 k with hc
  have hcr : (c : ℝ) / 2 ^ (k + 1) = (J - n) / 2 := by
    rw [hc, hJd]; push_cast; rw [pow2_cast, pow_succ]; field_simp
  have hPpos : 0 < P := by linarith
  have hXP : |2 * X / P| ≤ 2 ^ (E + 1) := by
    rw [abs_div, abs_mul, abs_of_pos hPpos, div_le_iff₀ hPpos, abs_of_pos (by norm_num : (0 : ℝ) < 2)]
    have : (0 : ℝ) < 2 ^ (E + 1) := by positivity
    nlinarith
  have hJn : |J - n| ≤ 2 ^ (E + 1) + 1 / 2 := by
    have : J - n = (2 * X / P + J - n) - 2 * X / P := by ring
    rw [this]
    exact le_trans (abs_sub _ _) (by linarith)
  have hres : |(c : ℝ)| * ((hi : ℝ) - lo) * 2 ^ w / (2 ^ q * 2 ^ (k + 1)) ≤ 1 / 2 := by
    have e1 : |(c : ℝ)| * ((hi : ℝ) - lo) * 2 ^ w / (2 ^ q * 2 ^ (k + 1)) =
        (|J - n| / 2) * ((hi : ℝ) - lo) / (2 ^ 24 * 2 ^ g * 2 ^ E) := by
      have : |(c : ℝ)| = |J - n| / 2 * 2 ^ (k + 1) := by
        have h := congrArg abs hcr
        rw [abs_div, abs_div, abs_of_pos (by positivity : (0 : ℝ) < 2 ^ (k + 1)), abs_of_pos (by norm_num : (0 : ℝ) < 2)] at h
        rw [← h]; field_simp
      rw [this, h2q]
      have : (2 : ℝ) ^ (k + 1) ≠ 0 := by positivity
      have hne := hwpos.ne'
      generalize (2 : ℝ) ^ w = K at *
      field_simp
    rw [e1, div_le_iff₀ (by positivity)]
    have h0 : 0 ≤ (hi : ℝ) - lo := by
      have : (lo : ℝ) ≤ hi := hpi.1.trans hpi.2
      linarith
    have h3 : |J - n| / 2 ≤ 2 * 2 ^ E := by rw [pow_succ] at hJn; linarith
    calc |J - n| / 2 * ((hi : ℝ) - lo) ≤ (2 * 2 ^ E) * (2 ^ 16 * 2 ^ g) := mul_le_mul h3 hwid2 h0 (by positivity)
      _ ≤ _ := by
        generalize (2 : ℝ) ^ g = G at *
        generalize (2 : ℝ) ^ E = L at *
        norm_num
        nlinarith
  simp only at hwidth
  generalize residualEnclosure w q (lo, hi) x c k = r at *
  obtain ⟨a, b⟩ := r
  simp only at hwidth hsound he
  have hab : b - a ≤ 2 := by
    have : ((b - a : ℤ) : ℝ) < 3 := by linarith
    have : b - a < 3 := by exact_mod_cast this
    omega
  -- the residual is at most 0.8
  have hr : |X + Real.pi * c / 2 ^ (k + 1)| ≤ 0.8 := by
    have e1 : X + Real.pi * c / 2 ^ (k + 1) = Real.pi / 2 * (2 * X / P + J - n) + X * (1 - Real.pi / P) := by
      rw [mul_div_assoc, hcr]; field_simp; ring
    rw [e1]
    refine le_trans (abs_add_le _ _) ?_
    have hpipos := Real.pi_pos
    have h1 : |Real.pi / 2 * (2 * X / P + J - n)| ≤ Real.pi / 4 := by
      rw [abs_mul, abs_of_pos (by positivity)]; nlinarith
    have h2 : |X * (1 - Real.pi / P)| ≤ 1 / 128 := by
      rw [abs_mul]
      have h3 : |1 - Real.pi / P| ≤ 2 ^ 16 * 2 ^ g / 2 ^ q := by
        have : 1 - Real.pi / P = -((Real.pi - P) / P) := by field_simp; try ring
        rw [this, abs_neg, abs_of_nonneg (by apply div_nonneg <;> linarith)]
        rw [div_le_iff₀ hPpos]
        have : (0 : ℝ) ≤ 2 ^ 16 * 2 ^ g / 2 ^ q := by positivity
        nlinarith
      calc |X| * |1 - Real.pi / P| ≤ 2 ^ (E + 1) * (2 ^ 16 * 2 ^ g / 2 ^ q) :=
            mul_le_mul hXabs.le h3 (abs_nonneg _) (by positivity)
        _ = 2 ^ 17 / 2 ^ 24 / 2 ^ w := by
            rw [h2q, pow_succ (2 : ℝ) E]
            have hne := hwpos.ne'
            generalize (2 : ℝ) ^ w = K at *
            field_simp
        _ ≤ 2 ^ 17 / 2 ^ 24 := by
            apply div_le_self (by positivity)
            exact le_trans (by norm_num) hbig
        _ ≤ 1 / 128 := by norm_num
    have := Real.pi_lt_d2
    refine (add_le_add h1 h2).trans ?_
    norm_num at this ⊢
    linarith
  have hana : a.natAbs ≤ 2 ^ w := by
    have h1 := hsound.1
    have h2 := hsound.2
    simp only at h1 h2
    rw [abs_le] at hr
    generalize X + Real.pi * c / 2 ^ (k + 1) = y at hr h1 h2
    clear hres hJn hXP hcr hturn hwidth hwid hwid2 hgap h2q hXabs hE0 h2qpos hG1 hfact
    have h3 : (a : ℝ) ≥ b - 2 := by
      have : ((b - a : ℤ) : ℝ) ≤ 2 := by exact_mod_cast hab
      push_cast at this; linarith
    have h4 : |(a : ℝ)| ≤ 2 ^ w := by
      generalize (2 : ℝ) ^ w = K at hbig h1 h2 hwpos ⊢
      norm_num at hbig
      rw [abs_le]; constructor
      · nlinarith [hr.1]
      · nlinarith [hr.2]
    have : ((a.natAbs : ℕ) : ℝ) ≤ ((2 ^ w : ℕ) : ℝ) := by rw [Nat.cast_natAbs]; push_cast; exact h4
    exact_mod_cast this
  have ht := trigEnclosure_width (b := b) hana hfact
  have hrot := rotateEnclosure_width (n := n) ht.1 ht.2
  rw [he]
  omega

theorem exponent_le_of_lt {x : Int} (hx : x.natAbs < 2 ^ 2098) : floorLog2 x.natAbs - 1074 ≤ 1023 := by
  rw [floorLog2_eq_log2]
  by_cases h0 : x.natAbs = 0
  · rw [h0]; exact le_of_eq_of_le (by simp) (Nat.zero_le _)
  · have : x.natAbs.log2 < 2098 := (Nat.log2_lt h0).mpr hx
    omega

theorem pow_lt_factorial (m : Nat) : 2 ^ (6 * m + 14) < (m + 20).factorial := by
  by_cases h : m < 44
  · have : ∀ i, i < 44 → 2 ^ (6 * i + 14) < (i + 20).factorial := by decide +kernel
    exact this m h
  · induction m, not_lt.mp h using Nat.le_induction with
    | base => decide +kernel
    | succ m hm ih =>
      have := ih (by omega)
      rw [show m + 1 + 20 = (m + 20) + 1 by omega, Nat.factorial_succ, show 6 * (m + 1) + 14 = 6 * m + 14 + 6 by omega,
        pow_add, mul_comm]
      exact Nat.mul_lt_mul_of_le_of_lt (by norm_num; omega) this (by omega)

theorem seriesTerms_suffice (p : Nat) : 2 ^ (enclosureBits p + 1) < (seriesTerms p).factorial :=
  lt_of_le_of_lt (Nat.pow_le_pow_right two_pos (by unfold enclosureBits; omega)) (pow_lt_factorial (p / 6))

/-- At every precision of 16 bits and more both enclosures are at most 9 units wide. -/
theorem pointEnclosure_narrow (p : Nat) (x : Int) (k j : Nat) (hp : 16 ≤ p) (hx : x.natAbs < 2 ^ 2098) :
    (pointEnclosure p x k j).1.2 - (pointEnclosure p x k j).1.1 ≤ 9 ∧
      (pointEnclosure p x k j).2.2 - (pointEnclosure p x k j).2.1 ≤ 9 :=
  rotated_narrow (enclosureBits p) _ (seriesTerms p) _ x k j rfl (exponent_le_of_lt hx)
    (by unfold enclosureBits; omega) (by rw [floorLog2_eq_log2]; exact Nat.lt_log2_self) (seriesTerms_suffice p)

end Sys2Proof.Machine
end

