-- ==== Sys2Proof/Laws/Rounding.lean ====
section
/-! SUPPORT. From an enclosure whose ends round to one value to the rounding of the real it encloses
(`decidedPoint_sound`), the exact points (`exactPoint_sound`), and the sign of a rounding. -/

namespace Sys2Proof.Machine

theorem signBit_roundFloor (n : ℤ) (b : Bool) : signBit (roundFloor n b) = decide (n < 0) := by
  cases n with
  | ofNat q =>
    rw [roundFloor_ofNat, signBit_withSign (roundMagnitude_lt q b)]
    exact (decide_eq_false (not_lt.mpr (Int.natCast_nonneg q))).symm
  | negSucc q =>
    have h : decide (Int.negSucc q < 0) = true := decide_eq_true (Int.negSucc_lt_zero q)
    rw [h]
    cases b
    · rw [roundFloor_negSucc_exact, signBit_withSign (roundMagnitude_lt _ _)]
    · rw [roundFloor_negSucc_inexact, signBit_withSign (roundMagnitude_lt _ _)]

theorem signBit_roundRatio (num : ℤ) (den : ℕ) (hd : 0 < den) :
    signBit (roundRatio num den) = decide (num < 0) := by
  have hdz : (0 : ℤ) < den := by exact_mod_cast hd
  have hp : 0 < pow2 1075 := pow2_pos _
  unfold roundRatio
  rw [signBit_roundFloor]
  generalize pow2 1075 = K at *
  congr 1
  rw [Int.ediv_lt_iff_lt_mul hdz, zero_mul]
  apply propext
  constructor
  · intro h; by_contra h2; push Not at h2; nlinarith
  · intro h; nlinarith

theorem plusInf_not_finite : isFinite plusInf = false := by decide +kernel
theorem minusInf_not_finite : isFinite minusInf = false := by decide +kernel

theorem overflowThreshold_pos : 0 < overflowThreshold := by
  unfold overflowThreshold
  have h : (2 : ℝ) ^ 1024 = 2 ^ 970 * 2 ^ 54 := by rw [← pow_add]
  have h2 : (0 : ℝ) < 2 ^ 970 := by positivity
  rw [h]
  clear h
  generalize (2 : ℝ) ^ 970 = K at *
  linarith

/-- If both ends of an interval round to one value, so does every real between them; the last
hypothesis rules out that the ends are zeros of different origin. -/
theorem IsRN.squeeze {a b r : ℝ} {v : F64} (ha : IsRN a v) (hb : IsRN b v) (har : a ≤ r) (hrb : r ≤ b)
    (h0 : r = 0 → v = 0) : IsRN r v := by
  have hT := overflowThreshold_pos
  have fin : ∀ {c}, IsRN c v → isFinite v = true → |c| < overflowThreshold := by
    intro c hc hf
    by_contra h
    push Not at h
    have := hc.overflow h
    rw [this] at hf
    split at hf
    · rw [plusInf_not_finite] at hf; cases hf
    · rw [minusInf_not_finite] at hf; cases hf
  have inside : |r| < overflowThreshold → isFinite v = true := by
    intro h
    by_cases h1 : |a| < overflowThreshold
    · exact (ha.nearest h1).1
    by_cases h2 : |b| < overflowThreshold
    · exact (hb.nearest h2).1
    exfalso
    push Not at h1 h2
    have e1 := ha.overflow h1
    have e2 := hb.overflow h2
    rw [abs_lt] at h
    rw [le_abs] at h1 h2
    have hb0 : 0 < b := by rcases h2 with h2 | h2 <;> linarith
    have ha0 : ¬ 0 < a := by rcases h1 with h1 | h1 <;> linarith
    rw [if_pos hb0] at e2; rw [if_neg ha0] at e1
    rw [e1] at e2
    exact absurd e2 (by decide +kernel)
  refine ⟨h0, ?_, ?_, ?_⟩
  · intro h
    rcases le_abs.mp h with h1 | h1
    · have : overflowThreshold ≤ |b| := by rw [abs_of_nonneg (by linarith)]; linarith
      rw [hb.overflow this, if_pos (by linarith), if_pos (by linarith)]
    · have : overflowThreshold ≤ |a| := by rw [abs_of_nonpos (by linarith)]; linarith
      rw [ha.overflow this, if_neg (by linarith), if_neg (by linarith)]
  · intro h
    have hf := inside h
    refine ⟨hf, fun u hu => ?_⟩
    have h1 := (ha.nearest (fin ha hf)).2 u hu
    have h2 := (hb.nearest (fin hb hf)).2 u hu
    generalize realValue u = U at *
    generalize realValue v = V at *
    rw [← sq_le_sq] at *
    rcases le_total U V with h3 | h3
    · nlinarith
    · nlinarith
  · intro h u hu hne heq
    have hf := inside h
    have h1 := (ha.nearest (fin ha hf)).2 u hu
    have h2 := (hb.nearest (fin hb hf)).2 u hu
    have e1 := ha.even (fin ha hf) u hu hne
    have e2 := hb.even (fin hb hf) u hu hne
    generalize realValue u = U at *
    generalize realValue v = V at *
    rw [← sq_le_sq] at h1 h2
    rw [← sq_eq_sq_iff_abs_eq_abs] at heq e1 e2
    rcases lt_or_gt_of_ne hne with h3 | h3
    · exact e1 (by nlinarith)
    · exact e2 (by nlinarith)

/-- The value both ends of an enclosure round to is the rounding of the real it encloses. -/
theorem Encloses.roundEnds {w : Nat} {e : Int × Int} {v : ℝ} (h : Encloses w e v)
    (heq : (roundEnds w e).1 = (roundEnds w e).2) : IsRN v (roundEnds w e).1 := by
  have hd : 0 < 2 ^ w := Nat.two_pow_pos w
  have hK : (0 : ℝ) < 2 ^ w := by positivity
  have h1 := isRN_roundRatio e.1 (2 ^ w) hd
  have h2 := isRN_roundRatio e.2 (2 ^ w) hd
  have hs1 := signBit_roundRatio e.1 (2 ^ w) hd
  have hs2 := signBit_roundRatio e.2 (2 ^ w) hd
  unfold Machine.roundEnds at heq ⊢
  simp only at heq ⊢
  rw [← heq] at h2 hs2
  have hc : (((2 ^ w : ℕ)) : ℝ) = 2 ^ w := by push_cast; rfl
  rw [hc] at h1 h2
  refine IsRN.squeeze h1 h2 ?_ ?_ ?_
  · rw [div_le_iff₀ hK]; linarith [h.1]
  · rw [le_div_iff₀ hK]; linarith [h.2]
  · intro hv
    have l := h.1
    have r := h.2
    rw [hv, mul_zero] at l r
    have l' : e.1 ≤ 0 := by exact_mod_cast l
    have r' : 0 ≤ e.2 := by exact_mod_cast r
    rw [hs1] at hs2
    have : ¬ e.1 < 0 := by
      intro hlt
      rw [decide_eq_true hlt] at hs2
      have := of_decide_eq_true hs2.symm
      omega
    have h0 : e.1 = 0 := by omega
    exact h1.zero (by rw [h0]; simp)

/-- What a precision decides is the one rounding of the cosine and of the sine. -/
theorem decidedPoint_sound {p : Nat} {x : Int} {k j : Nat} {s : Sym} (h : decidedPoint p x k j = some s) :
    IsRN (Real.cos ((x : ℝ) / 2 ^ 1074 + 2 * Real.pi * j / 2 ^ k)) s.re ∧
    IsRN (Real.sin ((x : ℝ) / 2 ^ 1074 + 2 * Real.pi * j / 2 ^ k)) s.im := by
  have hs := pointEnclosure_sound p x k j
  unfold decidedPoint at h
  simp only at h hs
  split at h
  · rename_i hc
    cases h
    exact ⟨hs.1.roundEnds hc.1, hs.2.roundEnds hc.2⟩
  · cases h

theorem exactPoint_sound (n : Nat) :
    IsRN (Real.cos (n * (Real.pi / 2))) (exactPoint n).re ∧ IsRN (Real.sin (n * (Real.pi / 2))) (exactPoint n).im := by
  have one := isRN_roundRatio 1 1 one_pos
  have zero := isRN_roundRatio 0 1 one_pos
  have neg := isRN_roundRatio (-1) 1 one_pos
  rw [show roundRatio 1 1 = 0x3FF0000000000000#64 by decide +kernel] at one
  rw [show roundRatio 0 1 = 0#64 by decide +kernel] at zero
  rw [show roundRatio (-1) 1 = 0xBFF0000000000000#64 by decide +kernel] at neg
  norm_num at one zero neg
  have hang : ∀ c, n % 4 = c → ∃ m : ℕ, (n : ℝ) * (Real.pi / 2) = c * (Real.pi / 2) + m * (2 * Real.pi) := by
    intro c hc
    refine ⟨n / 4, ?_⟩
    have : (n : ℝ) = 4 * (n / 4 : ℕ) + c := by
      rw [← hc]; exact_mod_cast (Nat.div_add_mod n 4).symm
    rw [this]; ring
  have hlt := Nat.mod_lt n (by norm_num : 0 < 4)
  have hcs : ∀ c : ℕ, n % 4 = c → Real.cos (n * (Real.pi / 2)) = Real.cos (c * (Real.pi / 2)) ∧
      Real.sin (n * (Real.pi / 2)) = Real.sin (c * (Real.pi / 2)) := by
    intro c hc
    obtain ⟨m, hm⟩ := hang c hc
    rw [hm, Real.cos_add_nat_mul_two_pi, Real.sin_add_nat_mul_two_pi]; exact ⟨rfl, rfl⟩
  unfold exactPoint
  have h4 : n % 4 = 0 ∨ n % 4 = 1 ∨ n % 4 = 2 ∨ n % 4 = 3 := by omega
  rcases h4 with h | h | h | h <;> rw [(hcs _ h).1, (hcs _ h).2, h]
  · simpa using ⟨one, zero⟩
  · simpa using ⟨zero, one⟩
  · have : ((2 : ℕ) : ℝ) * (Real.pi / 2) = Real.pi := by push_cast; ring
    rw [this]; simpa using ⟨neg, zero⟩
  · have : ((3 : ℕ) : ℝ) * (Real.pi / 2) = Real.pi / 2 + Real.pi := by push_cast; ring
    rw [this, Real.cos_add_pi, Real.sin_add_pi]; simpa using ⟨zero, neg⟩

theorem exactValue_of_isZero {x : F64} (h : isZero x = true) : exactValue x = 0 := by
  simp only [isZero, Bool.and_eq_true, beq_iff_eq] at h
  unfold exactValue magnitude
  rw [if_pos h.1, h.2]; simp

theorem pointAngle_eq (phase : F64) (k j : Nat) :
    pointAngle phase (2 ^ k) j = (exactValue phase : ℝ) / 2 ^ 1074 + 2 * Real.pi * j / 2 ^ k := by
  unfold pointAngle realValue; push_cast; rfl

theorem exactValue_natAbs_lt {x : F64} (h : isFinite x = true) : (exactValue x).natAbs < 2 ^ 2098 := by
  have h1 : (exactValue x).natAbs = magnitude x := by
    unfold exactValue; split <;> simp
  rw [h1]
  have he : exponentField x < 2047 := by
    have := h
    simp only [isFinite, bne_iff_ne, ne_eq] at this
    have h2 : exponentField x < 2 ^ 11 := BitVec.isLt _
    omega
  have hf : fractionField x < 2 ^ 52 := BitVec.isLt _
  unfold magnitude
  split
  · exact lt_of_lt_of_le hf (Nat.pow_le_pow_right (by norm_num) (by norm_num))
  · calc (2 ^ 52 + fractionField x) * 2 ^ (exponentField x - 1) < 2 ^ 53 * 2 ^ (exponentField x - 1) :=
        Nat.mul_lt_mul_of_pos_right (by omega) (Nat.two_pow_pos _)
      _ ≤ 2 ^ 53 * 2 ^ 2045 := Nat.mul_le_mul_left _ (Nat.pow_le_pow_right (by norm_num) (by omega))
      _ = 2 ^ 2098 := by rw [← pow_add]

theorem constellation_length (order : Nat) (phase : F64) : (constellation order phase).length = order := by
  simp [constellation]

theorem constellation_getElem? {k j : Nat} (phase : F64) (hj : j < 2 ^ k) :
    (constellation (2 ^ k) phase)[j]? = some (point phase (2 ^ k) k j) := by
  unfold constellation
  rw [List.getElem?_map, List.getElem?_range hj, Nat.log2_two_pow]; rfl

@[simp] theorem setSign_false (x : F64) : setSign false x = x := rfl

theorem setSign_toNat {x : F64} (h : x.toNat < 2 ^ 63) : (setSign true x).toNat = x.toNat + 2 ^ 63 := by
  have : x.toNat ||| 2 ^ 63 = 2 ^ 63 * 1 + x.toNat := by
    rw [Nat.two_pow_add_eq_or_of_lt h]; simp [Nat.or_comm]
  have e : (setSign true x).toNat = x.toNat ||| 2 ^ 63 := by simp [setSign]
  rw [e]; omega

theorem realValue_setSign {x : F64} (h : x.toNat < 2 ^ 63) : realValue (setSign true x) = -realValue x := by
  have e : (setSign true x).toNat % 2 ^ 63 = x.toNat % 2 ^ 63 := by rw [setSign_toNat h]; omega
  have s1 : signBit (setSign true x) = true := by rw [signBit_eq, setSign_toNat h]; simp
  have s0 : signBit x = false := by rw [signBit_eq]; simp; omega
  rw [realValue_eq, realValue_eq, s1, s0, magnitude_eq, magnitude_eq, e]; simp; ring

theorem isFinite_setSign (b) (x : F64) : isFinite (setSign b x) = isFinite x := by
  cases b
  · rfl
  · rw [Bool.eq_iff_iff, isFinite_iff, isFinite_iff]
    have : (setSign true x).toNat = x.toNat ||| 2 ^ 63 := by simp [setSign]
    rw [this]
    have : (x.toNat ||| 2 ^ 63) / 2 ^ 52 % 2 ^ 11 = x.toNat / 2 ^ 52 % 2 ^ 11 := by
      apply Nat.eq_of_testBit_eq; intro i
      simp only [Nat.testBit_mod_two_pow, Nat.testBit_div_two_pow, Nat.testBit_or, Nat.testBit_two_pow]
      by_cases h : i < 11
      · simp [h]; omega
      · simp [h]
    rw [this]

/-- Rounding a negated positive real sets the sign bit. -/
theorem IsRN.neg {r : ℝ} {v : F64} (h : IsRN r v) (hr : 0 < r) (hs : signBit v = false) : IsRN (-r) (setSign true v) := by
  have hv : v.toNat < 2 ^ 63 := by rw [signBit_eq] at hs; simpa using hs
  have flip : ∀ u : F64, isFinite u = true → ∃ u', isFinite u' = true ∧ realValue u' = -realValue u := by
    intro u hu
    refine ⟨withSign (!signBit u) (u.toNat % 2 ^ 63), ?_, ?_⟩
    · apply isFinite_withSign
      rw [isFinite_iff] at hu
      omega
    · rw [realValue_eq, realValue_eq, signBit_withSign (Nat.mod_lt _ (by positivity)), magnitude_withSign (Nat.mod_lt _ (by positivity)), magnitude_eq]
      cases signBit u <;> simp <;> ring
  have ab : ∀ u : F64, |-r - realValue u| = |r - -realValue u| := by intro u; rw [← abs_neg]; congr 1; ring
  refine ⟨fun h0 => by linarith, ?_, ?_, ?_⟩
  · rw [abs_neg]; intro ho
    rw [if_neg (by linarith)]
    rw [h.overflow ho, if_pos hr]; decide +kernel
  · rw [abs_neg]; intro ho
    obtain ⟨h1, h2⟩ := h.nearest ho
    refine ⟨by rw [isFinite_setSign]; exact h1, fun u hu => ?_⟩
    obtain ⟨u', hu', e⟩ := flip u hu
    rw [ab, ab, realValue_setSign hv, neg_neg, ← e]
    exact h2 u' hu'
  · rw [abs_neg]; intro ho u hu hne heq
    obtain ⟨u', hu', e⟩ := flip u hu
    rw [ab, ab, realValue_setSign hv, neg_neg, ← e] at heq
    have := h.even ho u' hu' (by rw [e]; intro hh; apply hne; rw [realValue_setSign hv, ← hh, neg_neg]) heq
    simp only [setSign, if_true, BitVec.getLsbD_or, this]; decide +kernel

end Sys2Proof.Machine
end

