-- ==== Sys2Proof/Laws/Refinement.lean ====
section
/-! SUPPORT. The refinements end, and give the one rounding of their real (`41_modulator.md` R80;
`93_implementation_defined.md` I27): every rounding near an irrational real is the same
(`exists_rounding_margin`), so both ends of an enclosure narrow enough round alike. Hence `point_isRN` and
`roundedPiOver_isRN`. -/

namespace Sys2Proof.Machine

/-- Greater bits below the sign are a greater magnitude. -/
theorem bitsMagnitude_lt {m n : Nat} (h : m < n) : bitsMagnitude m < bitsMagnitude n := by
  unfold bitsMagnitude
  have hm := Nat.mod_lt m (Nat.two_pow_pos 52)
  have h1 := Nat.div_add_mod m (2 ^ 52)
  have h2 := Nat.div_add_mod n (2 ^ 52)
  generalize hd : m / 2 ^ 52 = d at *
  generalize he : n / 2 ^ 52 = e at *
  generalize m % 2 ^ 52 = f at *
  generalize n % 2 ^ 52 = g at *
  have hde : d ≤ e := by rw [← hd, ← he]; exact Nat.div_le_div_right h.le
  have hpos := fun i => Nat.two_pow_pos i
  by_cases h0 : e = 0
  · rw [if_pos h0, if_pos (by omega)]; exact h
  rw [if_neg h0]
  by_cases hd0 : d = 0
  · rw [if_pos hd0]
    subst hd0
    have := hpos (e - 1)
    nlinarith
  rw [if_neg hd0]
  by_cases heq : d = e
  · subst heq
    exact Nat.mul_lt_mul_of_pos_right (by omega) (hpos _)
  · have : 2 ^ (e - 1) = 2 ^ (d - 1) * 2 * 2 ^ (e - 1 - d) := by
      rw [← pow_succ, ← pow_add]; congr 1; omega
    rw [this]
    have a := hpos (d - 1)
    have b := hpos (e - 1 - d)
    generalize 2 ^ (d - 1) = A at *
    generalize 2 ^ (e - 1 - d) = B at *
    nlinarith [Nat.mul_pos a b, Nat.zero_le (g * (A * B))]

/-- A word is known from its sign and its exact value. -/
theorem eq_of_realValue_eq {u v : F64} (hs : signBit u = signBit v) (h : realValue u = realValue v) : u = v := by
  rw [realValue_eq, realValue_eq, hs] at h
  have hK : (2 : ℝ) ^ 1075 ≠ 0 := by positivity
  have hm : magnitude u = magnitude v := by
    rw [div_left_inj' hK] at h
    have h2 : ((2 * magnitude u : ℕ) : ℝ) = ((2 * magnitude v : ℕ) : ℝ) := by
      cases hb : signBit v
      · rw [hb] at h; simpa using h
      · rw [hb] at h; simpa using h
    have := Nat.cast_injective h2
    omega
  rw [magnitude_eq, magnitude_eq] at hm
  have hb : u.toNat % 2 ^ 63 = v.toNat % 2 ^ 63 := by
    rcases lt_trichotomy (u.toNat % 2 ^ 63) (v.toNat % 2 ^ 63) with h | h | h
    · exact absurd hm (bitsMagnitude_lt h).ne
    · exact h
    · exact absurd hm (bitsMagnitude_lt h).ne'
  rw [signBit_eq, signBit_eq] at hs
  have hu := u.isLt
  have hv := v.isLt
  apply BitVec.eq_of_toNat_eq
  by_cases hx : 2 ^ 63 ≤ u.toNat
  · rw [decide_eq_true hx] at hs
    have := of_decide_eq_true hs.symm
    omega
  · rw [decide_eq_false hx] at hs
    have := of_decide_eq_false hs.symm
    omega

/-- Where a rounding can change: midpoints of words, the overflow threshold on either side, and 0. -/
def breakpoints : Set ℝ :=
  (Set.range fun p : F64 × F64 => (realValue p.1 + realValue p.2) / 2) ∪ {0, overflowThreshold, -overflowThreshold}

theorem breakpoints_finite : breakpoints.Finite :=
  (Set.finite_range _).union (Set.toFinite _)

theorem not_breakpoint {r : ℝ} (hr : Irrational r) : r ∉ breakpoints := by
  rintro (⟨p, hp⟩ | h)
  · apply hr
    refine ⟨((exactValue p.1 : ℚ) / 2 ^ 1074 + (exactValue p.2 : ℚ) / 2 ^ 1074) / 2, ?_⟩
    simp only at hp
    rw [← hp]; unfold realValue; push_cast; rfl
  · apply hr
    simp only [Set.mem_insert_iff, Set.mem_singleton_iff] at h
    rcases h with rfl | rfl | rfl
    · exact ⟨0, by simp⟩
    · exact ⟨2 ^ 1024 - 2 ^ 970, by unfold overflowThreshold; push_cast; rfl⟩
    · exact ⟨-(2 ^ 1024 - 2 ^ 970), by unfold overflowThreshold; push_cast; rfl⟩

/-- Near an irrational number every rounding is the same. -/
theorem exists_rounding_margin {r : ℝ} (hr : Irrational r) : ∃ ε > 0, ∀ (t u : ℝ) (v w : F64),
    |t - r| < ε → |u - r| < ε → IsRN t v → IsRN u w → signBit v = decide (t < 0) → signBit w = decide (u < 0) →
    v = w := by
  obtain ⟨ε, hε, hball⟩ := Metric.isOpen_iff.mp breakpoints_finite.isClosed.isOpen_compl r (not_breakpoint hr)
  refine ⟨ε, hε, ?_⟩
  have side : ∀ t u : ℝ, |t - r| < ε → |u - r| < ε → ∀ b ∈ breakpoints, t ≤ b → u < b := by
    intro t u ht hu b hb htb
    by_contra hub
    push Not at hub
    refine hball ?_ hb
    rw [Metric.mem_ball, Real.dist_eq]
    rw [abs_lt] at *
    constructor <;> linarith
  have hT : overflowThreshold ∈ breakpoints := .inr (by simp)
  have hT' : -overflowThreshold ∈ breakpoints := .inr (by simp)
  have h0 : (0 : ℝ) ∈ breakpoints := .inr (by simp)
  have hTpos := overflowThreshold_pos
  have one : ∀ (t u : ℝ) (v w : F64), |t - r| < ε → |u - r| < ε → IsRN t v → IsRN u w → ¬ realValue v < realValue w ∨ overflowThreshold ≤ |t| ∨ overflowThreshold ≤ |u| := by
    intro t u v w ht hu hv hw
    by_contra h
    push Not at h
    obtain ⟨hlt, h1, h2⟩ := h
    have a := (hv.nearest h1).2 w (hw.nearest h2).1
    have b := (hw.nearest h2).2 v (hv.nearest h1).1
    have hmid : (realValue v + realValue w) / 2 ∈ breakpoints := .inl ⟨(v, w), rfl⟩
    generalize realValue v = V at *
    generalize realValue w = W at *
    rw [← sq_le_sq] at a b
    have ha : t ≤ (V + W) / 2 := by nlinarith
    have hb : (V + W) / 2 ≤ u := by nlinarith
    have := side t u ht hu _ hmid ha
    linarith
  have overflows : ∀ t u : ℝ, |t - r| < ε → |u - r| < ε → overflowThreshold ≤ |t| → overflowThreshold ≤ |u| := by
    intro t u ht hu h
    rcases le_abs.mp h with h | h
    · refine le_abs.mpr (.inl ?_)
      by_contra hc
      have := side u t hu ht _ hT (not_le.mp hc).le
      linarith
    · refine le_abs.mpr (.inr ?_)
      have := side t u ht hu _ hT' (by linarith)
      linarith
  have neg : ∀ t u : ℝ, |t - r| < ε → |u - r| < ε → t < 0 → u < 0 := fun t u ht hu h => side t u ht hu 0 h0 h.le
  intro t u v w ht hu hv hw hsv hsw
  have hsign : signBit v = signBit w := by
    rw [hsv, hsw]
    exact decide_eq_decide.mpr ⟨neg t u ht hu, neg u t hu ht⟩
  by_cases ho : overflowThreshold ≤ |t|
  · have ho' := overflows t u ht hu ho
    rw [hv.overflow ho, hw.overflow ho']
    have : 0 < t ↔ 0 < u := by
      constructor
      · intro h; by_contra hc; have := side u t hu ht 0 h0 (not_lt.mp hc); linarith
      · intro h; by_contra hc; have := side t u ht hu 0 h0 (not_lt.mp hc); linarith
    simp only [this]
  · have ho' : ¬ overflowThreshold ≤ |u| := fun h => ho (overflows u t hu ht h)
    have h1 := (one t u v w ht hu hv hw).resolve_right (fun h => h.elim ho ho')
    have h2 := (one u t w v hu ht hw hv).resolve_right (fun h => h.elim ho' ho)
    exact eq_of_realValue_eq hsign (le_antisymm (not_lt.mp h2) (not_lt.mp h1))

/-- Both ends of an enclosure narrow enough round to one value. -/
theorem Encloses.decided {r ε : ℝ} (hε : ∀ (t u : ℝ) (v w : F64),
    |t - r| < ε → |u - r| < ε → IsRN t v → IsRN u w → signBit v = decide (t < 0) → signBit w = decide (u < 0) → v = w)
    {num : Int × Int} {den : Nat} (hd : 0 < den) (h1 : (num.1 : ℝ) ≤ den * r) (h2 : den * r ≤ num.2)
    (hw : ((num.2 : ℝ) - num.1) / den < ε) : roundRatio num.1 den = roundRatio num.2 den := by
  have hdr : (0 : ℝ) < den := by exact_mod_cast hd
  have near : ∀ n : ℤ, |(n : ℝ) - den * r| ≤ num.2 - num.1 → |(n : ℝ) / den - r| < ε := by
    intro n hn
    refine lt_of_le_of_lt ?_ hw
    have : (n : ℝ) / den - r = (n - den * r) / den := by field_simp
    rw [this, abs_div, abs_of_pos hdr]
    exact div_le_div_of_nonneg_right hn hdr.le
  have sgn : ∀ n : ℤ, signBit (roundRatio n den) = decide ((n : ℝ) / den < 0) := by
    intro n
    rw [signBit_roundRatio n den hd]
    refine decide_eq_decide.mpr ?_
    rw [div_lt_iff₀ hdr, zero_mul]
    norm_cast
  exact hε _ _ _ _ (near num.1 (by rw [abs_le]; constructor <;> linarith)) (near num.2 (by rw [abs_le]; constructor <;> linarith))
    (isRN_roundRatio _ _ hd) (isRN_roundRatio _ _ hd) (sgn _) (sgn _)

theorem exists_pow_small (c : ℝ) {ε : ℝ} (hε : 0 < ε) : ∃ N : ℕ, ∀ n ≥ N, (c * n + 80) / 2 ^ n < ε := by
  have h1 : Filter.Tendsto (fun n : ℕ => (c * n + 80) / (2 : ℝ) ^ n) Filter.atTop (nhds 0) := by
    have a := tendsto_pow_const_div_const_pow_of_one_lt 1 (r := (2 : ℝ)) (by norm_num)
    have b := tendsto_pow_const_div_const_pow_of_one_lt 0 (r := (2 : ℝ)) (by norm_num)
    have := (a.const_mul c).add (b.const_mul 80)
    simp only [mul_zero, add_zero] at this
    refine this.congr fun n => ?_
    ring
  obtain ⟨N, hN⟩ := Filter.eventually_atTop.mp (h1.eventually (gt_mem_nhds hε))
  exact ⟨N, hN⟩

/-- A doubling precision reaches any bound. -/
theorem exists_doubling (N p : ℕ) (hp : 0 < p) : N ≤ 2 ^ N * p :=
  le_trans (Nat.lt_two_pow_self).le (Nat.le_mul_of_pos_right _ hp)

theorem decidedPoint_of_large {x : Int} {k j : Nat} (hx : x.natAbs < 2 ^ 2098)
    (hc : Irrational (Real.cos ((x : ℝ) / 2 ^ 1074 + 2 * Real.pi * j / 2 ^ k)))
    (hs : Irrational (Real.sin ((x : ℝ) / 2 ^ 1074 + 2 * Real.pi * j / 2 ^ k))) :
    ∃ N, ∀ p, N ≤ p → (decidedPoint p x k j).isSome = true := by
  obtain ⟨ε, hε, hmc⟩ := exists_rounding_margin hc
  obtain ⟨δ, hδ, hms⟩ := exists_rounding_margin hs
  obtain ⟨N, hN⟩ := exists_pow_small 0 (lt_min hε hδ)
  refine ⟨N + 16, fun p hp => ?_⟩
  have hsound := pointEnclosure_sound p x k j
  have hnar := pointEnclosure_narrow p x k j (by omega) hx
  simp only at hsound
  have hsmall := hN (enclosureBits p) (by unfold enclosureBits; omega)
  rw [zero_mul, zero_add, lt_min_iff] at hsmall
  have hpow := Nat.two_pow_pos (enclosureBits p)
  have hwid : ∀ {e : Int × Int} {d : ℝ}, e.2 - e.1 ≤ 9 → (80 : ℝ) / 2 ^ enclosureBits p < d →
      ((e.2 : ℝ) - e.1) / ((2 ^ enclosureBits p : ℕ) : ℝ) < d := by
    intro e d he hd
    refine lt_of_le_of_lt ?_ hd
    push_cast
    apply div_le_div_of_nonneg_right _ (by positivity)
    have : (e.2 : ℝ) - e.1 ≤ 9 := by exact_mod_cast he
    linarith
  have hcast : ((2 ^ enclosureBits p : ℕ) : ℝ) = 2 ^ enclosureBits p := by push_cast; rfl
  have h1 := Encloses.decided hmc hpow (by rw [hcast]; exact hsound.1.1) (by rw [hcast]; exact hsound.1.2) (hwid hnar.1 hsmall.1)
  have h2 := Encloses.decided hms hpow (by rw [hcast]; exact hsound.2.1) (by rw [hcast]; exact hsound.2.2) (hwid hnar.2 hsmall.2)
  unfold decidedPoint roundEnds
  simp only
  rw [if_pos ⟨h1, h2⟩]
  rfl

theorem refinePoint_eq_some {x : Int} {k j : Nat} (i p : Nat) (h : (decidedPoint (2 ^ i * p) x k j).isSome = true) :
    ∃ s p', refinePoint x k j p = some s ∧ decidedPoint p' x k j = some s := by
  induction i generalizing p with
  | zero =>
    obtain ⟨s, hs⟩ := Option.isSome_iff_exists.mp h
    rw [pow_zero, one_mul] at hs
    exact ⟨s, p, by rw [refinePoint, hs], hs⟩
  | succ i ih =>
    rw [refinePoint]
    cases hd : decidedPoint p x k j with
    | some s => exact ⟨s, p, rfl, hd⟩
    | none => exact ih (2 * p) (by rw [← mul_assoc, ← pow_succ]; exact h)

/-- The refinement of a point with irrational coordinates ends, and its value is one that a precision decides. -/
theorem refinedPoint_decided {x : Int} {k j : Nat} (hx : x.natAbs < 2 ^ 2098)
    (hc : Irrational (Real.cos ((x : ℝ) / 2 ^ 1074 + 2 * Real.pi * j / 2 ^ k)))
    (hs : Irrational (Real.sin ((x : ℝ) / 2 ^ 1074 + 2 * Real.pi * j / 2 ^ k))) :
    ∃ p, decidedPoint p x k j = some (refinedPoint x k j) := by
  unfold refinedPoint
  cases h : firstPrecisions.findSome? fun p => decidedPoint p x k j with
  | some s =>
    obtain ⟨p, -, hp⟩ := List.exists_of_findSome?_eq_some h
    exact ⟨p, hp⟩
  | none =>
    obtain ⟨N, hN⟩ := decidedPoint_of_large hx hc hs
    obtain ⟨s, p, hr, hp⟩ := refinePoint_eq_some N 5120 (hN _ (exists_doubling N 5120 (by norm_num)))
    exact ⟨p, by rw [hr]; exact hp⟩

/-- Every point of a table of a finite phase is the one rounding of the exact cosine and sine (R80). -/
theorem point_isRN {phase : F64} {k j : Nat} (h : isFinite phase = true) :
    IsRN (Real.cos (pointAngle phase (2 ^ k) j)) (point phase (2 ^ k) k j).re ∧
    IsRN (Real.sin (pointAngle phase (2 ^ k) j)) (point phase (2 ^ k) k j).im := by
  rw [pointAngle_eq]
  unfold point
  split
  · rename_i hz
    rw [exactValue_of_isZero hz.1]
    have : ((0 : ℤ) : ℝ) / 2 ^ 1074 + 2 * Real.pi * j / 2 ^ k = (4 * j / 2 ^ k : ℕ) * (Real.pi / 2) := by
      have hd : (2 ^ k : ℕ) ∣ 4 * j := Nat.dvd_of_mod_eq_zero hz.2
      rw [Nat.cast_div hd (by positivity)]
      push_cast
      rw [zero_div, zero_add]; ring
    rw [this]
    exact exactPoint_sound _
  · rename_i hz
    have hne : (exactValue phase : ℚ) / 2 ^ 1074 ≠ 0 ∨ 4 * j % 2 ^ k ≠ 0 := by
      by_contra hcon
      push Not at hcon
      refine hz ⟨?_, hcon.2⟩
      have : exactValue phase = 0 := by
        have := hcon.1
        rw [div_eq_zero_iff] at this
        rcases this with h | h
        · exact_mod_cast h
        · exact absurd h (by positivity)
      rw [← realValue_eq_zero_iff]
      unfold realValue
      rw [this]; simp
    have hc := cos_dyadic_irrational _ k j hne
    have hs := sin_dyadic_irrational _ k j hne
    push_cast at hc hs
    obtain ⟨p, hp⟩ := refinedPoint_decided (exactValue_natAbs_lt h) hc hs
    exact decidedPoint_sound hp

/-- What a precision decides for `PI/q` is the rounding of `π/q`, and is positive. -/
theorem decidedPiOver_sound {p q : Nat} {x : F64} (hq : 0 < q) (h : decidedPiOver p q = some x) :
    IsRN (Real.pi / q) x ∧ signBit x = false := by
  unfold decidedPiOver at h
  split at h
  · rename_i hd
    cases h
    obtain ⟨l, r⟩ := piEnclosure_contains_pi p
    have hqr : (0 : ℝ) < q := by exact_mod_cast hq
    have hK : (0 : ℝ) < 2 ^ p := by positivity
    have hden : 0 < 2 ^ p * q := Nat.mul_pos (Nat.two_pow_pos p) hq
    have h1 : IsRN _ (piOverEnds p q).1 := isRN_roundRatio (piEnclosure p).1 (2 ^ p * q) hden
    have h2 : IsRN _ (piOverEnds p q).2 := isRN_roundRatio (piEnclosure p).2 (2 ^ p * q) hden
    have hs : signBit (piOverEnds p q).2 = decide ((piEnclosure p).2 < 0) := signBit_roundRatio _ _ hden
    rw [← hd] at h2 hs
    refine ⟨IsRN.squeeze h1 h2 ?_ ?_ (fun h => absurd h (div_pos Real.pi_pos hqr).ne'), hs.trans ?_⟩
    · push_cast; rw [div_le_div_iff₀ (by positivity) hqr]; nlinarith
    · push_cast; rw [div_le_div_iff₀ hqr (by positivity)]; nlinarith
    · refine decide_eq_false (not_lt.mpr ?_)
      have : (0 : ℝ) ≤ (piEnclosure p).2 := (mul_pos hK Real.pi_pos).le.trans r
      exact_mod_cast this
  · cases h

theorem decidedPiOver_of_large {q : Nat} (hq : 0 < q) : ∃ N, ∀ p, N ≤ p → (decidedPiOver p q).isSome = true := by
  have hqr : (0 : ℝ) < q := by exact_mod_cast hq
  obtain ⟨ε, hε, hm⟩ := exists_rounding_margin (irrational_pi.div_natCast hq.ne')
  obtain ⟨N, hN⟩ := exists_pow_small 9 hε
  refine ⟨N, fun p hp => ?_⟩
  obtain ⟨l, r⟩ := piEnclosure_contains_pi p
  have hK : (0 : ℝ) < 2 ^ p := by positivity
  have hden : 0 < 2 ^ p * q := Nat.mul_pos (Nat.two_pow_pos p) hq
  have hval : ((2 ^ p * q : ℕ) : ℝ) * (Real.pi / q) = 2 ^ p * Real.pi := by push_cast; field_simp
  have hq1 : (1 : ℝ) ≤ q := by exact_mod_cast hq
  have hwid := piEnclosure_width p
  have h := Encloses.decided hm hden (by rw [hval]; exact l) (by rw [hval]; exact r) (by
    refine lt_of_le_of_lt ?_ (hN p hp)
    push_cast
    rw [div_le_div_iff₀ (by positivity) hK]
    have h0 : (0 : ℝ) ≤ 9 * p + 80 := by positivity
    calc (((piEnclosure p).2 : ℝ) - (piEnclosure p).1) * 2 ^ p ≤ (9 * p + 80) * 2 ^ p :=
          mul_le_mul_of_nonneg_right hwid hK.le
      _ ≤ (9 * p + 80) * (2 ^ p * q) := mul_le_mul_of_nonneg_left (le_mul_of_one_le_right hK.le hq1) h0)
  unfold decidedPiOver piOverEnds
  simp only
  rw [if_pos h]
  rfl

theorem refinePiOver_eq_some {q : Nat} (i p : Nat) (h : (decidedPiOver (2 ^ i * p) q).isSome = true) :
    ∃ x p', refinePiOver q p = some x ∧ decidedPiOver p' q = some x := by
  induction i generalizing p with
  | zero =>
    obtain ⟨x, hx⟩ := Option.isSome_iff_exists.mp h
    rw [pow_zero, one_mul] at hx
    exact ⟨x, p, by rw [refinePiOver, hx], hx⟩
  | succ i ih =>
    rw [refinePiOver]
    cases hd : decidedPiOver p q with
    | some x => exact ⟨x, p, rfl, hd⟩
    | none => exact ih (2 * p) (by rw [← mul_assoc, ← pow_succ]; exact h)

/-- The refinement of `PI/q` ends, and its value is one that a precision decides. -/
theorem roundedPiOver_decided {q : Nat} (hq : 0 < q) : ∃ p, decidedPiOver p q = some (roundedPiOver q) := by
  unfold roundedPiOver
  cases h : firstPiPrecisions.findSome? fun p => decidedPiOver p q with
  | some x =>
    obtain ⟨p, -, hp⟩ := List.exists_of_findSome?_eq_some h
    exact ⟨p, hp⟩
  | none =>
    obtain ⟨N, hN⟩ := decidedPiOver_of_large hq
    obtain ⟨x, p, hr, hp⟩ := refinePiOver_eq_some N 768 (hN _ (exists_doubling N 768 (by norm_num)))
    exact ⟨p, by rw [hr]; exact hp⟩

/-- The literal `PI/q` is the one rounding of `π/q` (R65). -/
theorem roundedPiOver_isRN {q : Nat} (hq : 0 < q) :
    IsRN (Real.pi / q) (roundedPiOver q) ∧ signBit (roundedPiOver q) = false :=
  (roundedPiOver_decided hq).elim fun _ => decidedPiOver_sound hq

end Sys2Proof.Machine
end

