-- ==== Sys2Proof/Tests/Slice0.lean ====
section
/-! SUPPORT. Tests. Expected values are those of `95_test_vectors.md`, named in each docstring. The second part
gives, for every statement with hypotheses, a state and operands that meet them. The tests are elaborated one
after another: many at once, each waiting for the kernel, need a thread each. -/

namespace Sys2Proof.Tests

open Sys2Proof.Machine

set_option Elab.async false

/-! ## Helpers -/

/-- The next state of an outcome. -/
def after (o : Host.Outcome State Fault Refusal) : Option State :=
  match o with
  | .next t => some t
  | .fault _ => none
  | .refused _ => none

theorem after_eq_some {o : Host.Outcome State Fault Refusal} {t : State} (h : after o = some t) : o = .next t := by
  cases o with
  | next s => exact congrArg Host.Outcome.next (Option.some.inj h)
  | fault r => cases h
  | refused r => cases h

/-- The last response of an outcome. -/
def reply (o : Host.Outcome State Fault Refusal) : Option Rsp := (after o).bind fun t => t.rsp.getLast?

/-- A `PskCfg` with its table. -/
def psk (order : Nat) (phase : F64) : PskCfg := ⟨order, phase, constellation order phase⟩

/-- `RN(π/4)`. -/
def quarterPi : F64 := 0x3FE921FB54442D18

/-- `CHCFG SNR=1.0, SP=2.0`, so that `σ = 1`. -/
def unitChannel : ChCfg := ⟨0x3FF0000000000000, 0x4000000000000000⟩

/-- `CHCFG SNR=0.99, SP=1.0`. -/
def lossyChannel : ChCfg := ⟨0x3FEFAE147AE147AE, 0x3FF0000000000000⟩

/-- `(1, +0)`. -/
def east : Sym := ⟨0x3FF0000000000000, 0⟩

/-- `(-1, +0)`. -/
def west : Sym := ⟨0xBFF0000000000000, 0⟩

/-- The table `Q` of R80. -/
def tableQ : List Sym :=
  [⟨0x3FE6A09E667F3BCD, 0x3FE6A09E667F3BCC⟩, ⟨0xBFE6A09E667F3BCC, 0x3FE6A09E667F3BCD⟩,
   ⟨0xBFE6A09E667F3BCD, 0xBFE6A09E667F3BCC⟩, ⟨0x3FE6A09E667F3BCC, 0xBFE6A09E667F3BCD⟩]

/-- All three units configured: `M = 4` with phase 0, and `σ = 1`. -/
def ready : State :=
  { State.reset with mod := some (psk 4 0), dm := some (psk 4 0), ch := some unitChannel }

/-- `ready` with events to come and answers of the source. -/
def readyWith (input : List Input) (gauss : List Answer) : State := { ready with input := input, gauss := gauss }

/-- An `AWGN` of `(1, 0)` in flight that holds one draw. -/
def waiting (input : List Input) (gauss : List Answer) : State :=
  { readyWith input gauss with wait := some ⟨unitChannel, [east], [0]⟩ }

/-- The packet `AWGN : (1, 0)`. -/
def awgnPacket : Cmd := ⟨0x00000104, [], [.sym east]⟩

/-- The packet `MODULATE : 0 1`. -/
def modulatePacket : Cmd := ⟨0x00000202, [], [.bit false, .bit true]⟩

/-! ## Well-formedness: an ill-formed term for each check -/

theorem test_wf_modcfg : Instr.wf (.modcfg (2 ^ 24) 0) = false ∧ Instr.wf (.modcfg (2 ^ 24 - 1) 0) = true := by decide
theorem test_wf_modulate : Instr.wf (.modulate (2 ^ 24) []) = false := by decide
theorem test_wf_chcfg : Instr.wf (.chcfg 0 none) = true := by decide
theorem test_wf_awgn : Instr.wf (.awgn (2 ^ 24) []) = false := by decide
theorem test_wf_dmcfg : Instr.wf (.dmcfg (2 ^ 24) 0) = false := by decide
theorem test_wf_demodulate : Instr.wf (.demodulate (2 ^ 24) []) = false := by decide

/-! ## Decoding: words written out from the encoding of R51 to R57, bit by bit (V-EN1) -/

theorem test_decode_modcfg :
    decode ⟨0b00000000000000000000010000000001, [quarterPi], []⟩ = .ok (.modcfg 4 quarterPi) := by decide
theorem test_decode_modcfg_widest :
    decode ⟨0b10000000000000000000000000000001, [0], []⟩ = .ok (.modcfg (2 ^ 23) 0) := by decide
theorem test_decode_modulate :
    decode ⟨0b00000000000000000000001000000010, [], [.bit false, .bit true]⟩ =
      .ok (.modulate 2 [false, true]) := by decide
theorem test_decode_chcfg :
    decode ⟨0b00000000000000000000000000000011, [plusInf], []⟩ = .ok (.chcfg plusInf none) := by decide
theorem test_decode_chcfg_power :
    decode ⟨0b00000000000000000000000100000011, [0x3FEFAE147AE147AE, oneF64], []⟩ =
      .ok (.chcfg 0x3FEFAE147AE147AE (some oneF64)) := by decide
theorem test_decode_awgn :
    decode ⟨0b00000000000000000000000100000100, [], [.sym east]⟩ = .ok (.awgn 1 [east]) := by decide
theorem test_decode_dmcfg :
    decode ⟨0b00000000000000000000010000000101, [quarterPi], []⟩ = .ok (.dmcfg 4 quarterPi) := by decide
theorem test_decode_demodulate :
    decode ⟨0b00000000000000000000000000000110, [], []⟩ = .ok (.demodulate 0 []) := by decide

/-- V-EN2: the packets that do not decode. -/
theorem test_decode_rejects :
    ([⟨0x00000000, [], []⟩, ⟨0x00000007, [], []⟩, ⟨0x000004FF, [], []⟩, ⟨0x00000401, [], []⟩,
      ⟨0x00000401, [0, 0], []⟩, ⟨0x00000401, [0], [.bit false]⟩, ⟨0x00000203, [oneF64], []⟩,
      ⟨0x80000003, [oneF64], []⟩, ⟨0x00000103, [oneF64], []⟩, ⟨0x00000003, [oneF64, oneF64], []⟩,
      ⟨0x00000202, [], [.sym east, .sym east]⟩, ⟨0x00000104, [], [.bit true]⟩,
      ⟨0x00000106, [0], [.sym east]⟩] : List Cmd).all fun c => (decode c).toBool == false := by decide

/-- The table's numbering: the header is bits 31..0 and the first operand word bits 95..32. -/
theorem test_decode_table_word :
    decodeTableWord 96 (0x401 + 2 ^ 32 * 0x3FE921FB54442D18) = some (.modcfg 4 quarterPi) ∧
    decodeTableWord 32 0x00000006 = some (.demodulate 0 []) ∧ decodeTableWord 32 0x00000007 = none := by decide

/-- The assembler's own examples of V-EN1, and `LINKCFG` of R66. -/
theorem test_assemble :
    assembleText "CHCFG SNR=0.99, SP=1.0".toList = some [⟨0x103, [0x3FEFAE147AE147AE, 0x3FF0000000000000], []⟩] ∧
    assembleText "LINKCFG M=4, PHASE=PI/4".toList =
      some [⟨0x401, [quarterPi], []⟩, ⟨0x405, [quarterPi], []⟩] ∧
    assembleText "MODCFG M=0x800000, PHASE=0.0".toList = some [⟨0x80000001, [0], []⟩] ∧
    assembleText "MODULATE : 0 1".toList = some [modulatePacket] ∧
    assembleText "CHCFG SNR=+inf".toList = some [⟨0x003, [0x7FF0000000000000], []⟩] ∧
    assembleText "DEMODULATE N=2 : (1.0, +0)".toList = some [⟨0x206, [], [.sym east]⟩] := by decide +kernel

/-- R42: `re` is bits 127..64 of the slot. -/
theorem test_symbolSlot : symbolSlot ⟨0x3FF0000000000000, 0x8000000000000000⟩ = 0x3FF00000000000008000000000000000 := by
  decide

/-! ## The tables -/

/-- V-CON3. -/
theorem test_table_quarterPi : constellation 4 quarterPi = tableQ := by decide +kernel

/-- V-CON4, points 1 to 3. -/
theorem test_table_eight : ((constellation 8 0).drop 1).take 3 =
    [⟨0x3FE6A09E667F3BCD, 0x3FE6A09E667F3BCD⟩, ⟨0, 0x3FF0000000000000⟩,
     ⟨0xBFE6A09E667F3BCD, 0x3FE6A09E667F3BCD⟩] := by decide +kernel

/-- V-CON6, the phase 1e300. -/
theorem test_table_huge : constellation 2 0x7E37E43C8800759C =
    [⟨0xBFE2699022ADC4C1, 0xBFEA2C16B010E385⟩, ⟨0x3FE2699022ADC4C1, 0x3FEA2C16B010E385⟩] := by decide +kernel

/-! ## The commands -/

/-- V-MC1: order 4 is legal and loads the table. -/
theorem test_modcfg : (after (exec (.modcfg 4 quarterPi) State.reset)).bind (·.mod) =
    some ⟨4, quarterPi, tableQ⟩ := by decide +kernel

/-- V-MC1: order 1, the order above `2^KMAX`, and a NaN phase. -/
theorem test_modcfg_invalid :
    reply (exec (.modcfg 1 0) ready) = some ⟨.invalidConfiguration, []⟩ ∧
    reply (exec (.modcfg 4 0) { ready with params := { Params.atReset with kmax := 1 } }) =
      some ⟨.invalidConfiguration, []⟩ ∧
    reply (exec (.modcfg 4 0x7FF8000000000000) ready) = some ⟨.invalidConfiguration, []⟩ := by decide +kernel

/-- V-MD2: chunk `101` is label 5, point 6; chunk `011` is label 3, point 2. -/
theorem test_modulate : reply (exec (.modulate 6 [true, false, true, false, true, true])
      { State.reset with mod := some (psk 8 0) }) =
    some ⟨.ok, [.sym ⟨0, 0xBFF0000000000000⟩, .sym ⟨0, 0x3FF0000000000000⟩]⟩ := by decide +kernel

/-- V-MD1: 5 bits at two a symbol. -/
theorem test_modulate_ragged :
    reply (exec (.modulate 5 [false, false, true, true, false]) ready) = some ⟨.invalidInput, []⟩ := by decide +kernel

/-- V-CC1: an absent power is 1.0; a negative zero is no positive SNR. -/
theorem test_chcfg :
    (after (exec (.chcfg 0x3FF0000000000000 none) State.reset)).bind (·.ch) =
      some ⟨0x3FF0000000000000, 0x3FF0000000000000⟩ ∧
    reply (exec (.chcfg 0x8000000000000000 none) State.reset) = some ⟨.invalidConfiguration, []⟩ := by decide +kernel

/-- V-CC1: an infinite power is refused, an infinite SNR is not. -/
theorem test_chcfg_infinite :
    reply (exec (.chcfg 0x3FF0000000000000 (some plusInf)) State.reset) = some ⟨.invalidConfiguration, []⟩ ∧
    reply (exec (.chcfg plusInf none) State.reset) = some ⟨.ok, []⟩ := by decide +kernel

/-- V-AW1: two draws, real part first. -/
theorem test_awgn : (after (exec (.awgn 1 [east])
      (readyWith [] [.value 0x3FD0000000000000, .value 0xBFE0000000000000]))).map (fun t => (t.drawn, t.rsp)) =
    some (2, [⟨.ok, [.sym ⟨0x3FF4000000000000, 0xBFE0000000000000⟩]⟩]) := by decide +kernel

/-- V-AW10: the third draw is `UNAVAILABLE`. -/
theorem test_awgn_unavailable : (after (exec (.awgn 2 [east, ⟨0, 0x3FF0000000000000⟩])
      (readyWith [] [.value 0x3FD0000000000000, .value 0xBFE0000000000000, .unavailable, .value 0]))).map
        (fun t => (t.drawn, t.gauss, t.rsp)) =
    some (3, [.value 0], [⟨.randomSource, []⟩]) := by decide +kernel

/-- V-AW9: one rounding of the exact sum. -/
theorem test_noisy_once :
    noisy lossyChannel 0x3FE6A09E667F3BCD 0xBFF3300000000000 = 0xBFC293F9E5A6A7A7 ∧
    noisy lossyChannel 0x3FE6A09E667F3BCD 0x3FF1E00000000000 = 0x3FF80454BA660DE7 ∧
    noisy lossyChannel 0x3FE6A09E667F3BCD 0x4002B40000000000 = 0x4002F2D68F17779D := by decide +kernel

/-- V-AW3, V-AW4, V-AW8: a zero draw, a tie, and the overflow boundary. -/
theorem test_noisy_edges :
    noisy unitChannel 0x8000000000000000 0 = 0x8000000000000000 ∧
    noisy unitChannel 0x3FF0000000000000 0x3CB8000000000000 = 0x3FF0000000000002 ∧
    noisy unitChannel 0x7FEFFFFFFFFFFFFF 0x7C8FFFFFFFFFFFFF = 0x7FEFFFFFFFFFFFFF ∧
    noisy unitChannel 0x7FEFFFFFFFFFFFFF 0x7C90000000000000 = 0x7FF0000000000000 := by decide +kernel

/-- V-MC1 for `DMCFG`. -/
theorem test_dmcfg : (after (exec (.dmcfg 2 0) State.reset)).map (fun t => (t.mod, t.dm)) =
    some (none, some ⟨2, 0, [east, west]⟩) := by decide +kernel

/-- V-MC1 for `DMCFG`: order 3; the register keeps its value. -/
theorem test_dmcfg_invalid : (after (exec (.dmcfg 3 0) ready)).map (fun t => (t.dm, t.rsp)) =
    some (some (psk 4 0), [⟨.invalidConfiguration, []⟩]) := by decide +kernel

/-- V-DM3 and V-DM7: ties go to the lowest index, and a distance is exact. -/
theorem test_demodulate :
    reply (exec (.demodulate 2 [⟨0x3FE0000000000000, 0xBFE0000000000000⟩, ⟨0xBFE0000000000000, 0xBFE0000000000000⟩])
      ready) = some ⟨.ok, [.bit false, .bit false, .bit true, .bit true]⟩ ∧
    nearestPoint tableQ ⟨0xBBC79CA10C924223, 0⟩ = 2 := by decide +kernel

/-- V-DM8: an infinite component gives no output at all. -/
theorem test_demodulate_infinite :
    reply (exec (.demodulate 2 [east, ⟨0xFFF0000000000000, 0⟩]) ready) = some ⟨.invalidInput, []⟩ := by decide +kernel

/-- R161: an abandoned `AWGN` keeps its draws consumed and answers nothing. -/
theorem test_reset_abandons :
    (after (step (readyWith [.rstDuring awgnPacket 1] [.value 0, .value 0]))).map
      (fun t => (t.ch, t.drawn, t.rsp)) = some (none, 1, []) := by decide +kernel

/-- R169: a reset that abandons a command leaves a new run with nothing observed, and none that has ended. -/
theorem test_reset_leaves_no_ended_run :
    (after (step (readyWith [.rstDuring modulatePacket 0] []))).map (fun t => (t.observe.responses, t.ended)) =
      some ([], false) ∧
    (after (step (readyWith [.cmd modulatePacket] []))).map (fun t => (t.observe.responses.length, t.ended)) =
      some (1, true) := by decide +kernel

/-- R169: an answered run has ended although `RST` follows, and not while a command of it is still to come. -/
theorem test_run_ends_before_reset :
    (after (step (readyWith [.cmd modulatePacket, .rst] []))).map (fun t => (t.observe.responses.length, t.ended)) =
      some (1, true) ∧
    (after (step (readyWith [.cmd modulatePacket, .cmd awgnPacket, .rst] []))).map (·.ended) = some false ∧
    (after (step (readyWith [.cmd modulatePacket, .rstDuring awgnPacket 0] []))).map (·.ended) = some false := by
  decide +kernel

/-- The word of `DEMODULATE N=0 :`, placed by `withFetchWord`, is what the next step runs. -/
theorem test_withFetchWord :
    reply (step (State.reset.withFetchWord 32 0x00000006)) = some ⟨.notConfigured, []⟩ := by decide

/-! ## Witnesses: what the hypotheses of the statements ask is met -/

theorem legal_four : LegalOrder Params.atReset 4 := ⟨2, by decide, by decide, rfl⟩

theorem illegal_three : ¬ LegalOrder Params.atReset 3 := fun h =>
  absurd ((legalOrder_iff _ _).mpr h) (by decide)

theorem legal_qpsk : (psk 4 0).Legal Params.atReset := ⟨legal_four, by decide, rfl⟩

theorem legal_unitChannel : unitChannel.Legal := ⟨by decide, by decide, by decide⟩

theorem finite_east : FiniteSyms [east] := (finitePayload_iff _).mp (by decide)

theorem infinite_sym : ¬ FiniteSyms [⟨plusInf, 0⟩] := fun h => absurd ((finitePayload_iff _).mpr h) (by decide)

theorem wf_atReset : Params.atReset.wf := ⟨by decide, by decide, trivial⟩

theorem finite_draws {zs : List F64} (h : zs.all isFinite = true) : ∀ z ∈ zs, isFinite z = true :=
  List.all_eq_true.mp h

theorem awgn_configured (input : List Input) (gauss : List Answer) :
    ¬ Unconfigured (readyWith input gauss) (.awgn 1 [east]) := fun h => by cases h

theorem awgn_good_input (input : List Input) (gauss : List Answer) :
    ¬ BadInput (readyWith input gauss) (.awgn 1 [east]) := fun h => h.elim (fun h => h rfl) (fun h => h finite_east)

/-- A step of a concrete state that answers a next state with a given projection. -/
theorem step_shows {α : Type} (f : State → α) {s : State} {a : α} (h : (after (step s)).map f = some a) :
    ∃ t, step s = .next t ∧ f t = a := by
  obtain ⟨t, ht, hf⟩ := Option.map_eq_some_iff.mp h
  exact ⟨t, after_eq_some ht, hf⟩

/-- The same for a command. -/
theorem exec_shows {α : Type} (f : State → α) {i : Instr} {s : State} {a : α}
    (h : (after (exec i s)).map f = some a) : ∃ t, exec i s = .next t ∧ f t = a := by
  obtain ⟨t, ht, hf⟩ := Option.map_eq_some_iff.mp h
  exact ⟨t, after_eq_some ht, hf⟩

theorem witness_ResetClearsEveryUnit : ready.mod ≠ none ∧ (readyWith [.rst] []).input = .rst :: [] ∧
    ∃ t, step (readyWith [.rst] []) = .next t ∧ (t.mod, t.dm, t.ch) = (none, none, none) :=
  ⟨by decide, rfl, step_shows (fun t => (t.mod, t.dm, t.ch)) (by decide +kernel)⟩

/-- An `AWGN` in flight; an `AWGN` past its checks, with no draw answered and with all; a `MODULATE`. -/
theorem witness_ResetAbandonsTheCommand :
    ((waiting [.rst] []).wait = some ⟨unitChannel, [east], [0]⟩ ∧ (waiting [.rst] []).input = .rst :: []) ∧
    ((readyWith [.rstDuring awgnPacket 0] []).wait = none ∧ decode awgnPacket = .ok (.awgn 1 [east]) ∧
      ¬ Unconfigured (readyWith [.rstDuring awgnPacket 0] []) (.awgn 1 [east]) ∧
      ¬ BadInput (readyWith [.rstDuring awgnPacket 0] []) (.awgn 1 [east])) ∧
    ((readyWith [.rstDuring awgnPacket 2] [.value 0, .unavailable]).wait = none ∧
      ¬ Unconfigured (readyWith [.rstDuring awgnPacket 2] [.value 0, .unavailable]) (.awgn 1 [east]) ∧
      ¬ BadInput (readyWith [.rstDuring awgnPacket 2] [.value 0, .unavailable]) (.awgn 1 [east])) ∧
    decode modulatePacket = .ok (.modulate 2 [false, true]) :=
  ⟨⟨rfl, rfl⟩, ⟨rfl, by decide, awgn_configured _ _, awgn_good_input _ _⟩,
    ⟨rfl, awgn_configured _ _, awgn_good_input _ _⟩, by decide⟩

/-- One step for each of the three clauses. -/
theorem witness_RegistersChangeInTwoWays :
    (∃ t, step ready = .next t) ∧
    (∃ t, step (readyWith [.rst] []) = .next t ∧ t.ch = none) ∧
    (∃ t, step { State.reset with input := [.cmd ⟨0x00000201, [0], []⟩] } = .next t ∧ t.mod = some (psk 2 0)) ∧
    (∃ t, step { State.reset with input := [.cmd ⟨0x00000205, [0], []⟩] } = .next t ∧ t.dm = some (psk 2 0)) ∧
    ∃ t, step { State.reset with input := [.cmd ⟨0x00000003, [oneF64], []⟩] } = .next t ∧
      t.ch = some ⟨oneF64, oneF64⟩ :=
  ⟨⟨_, rfl⟩, step_shows (·.ch) (by decide +kernel), step_shows (·.mod) (by decide +kernel),
    step_shows (·.dm) (by decide +kernel), step_shows (·.ch) (by decide +kernel)⟩

theorem witness_StepRunsTheDecodedCommand :
    (readyWith [.cmd modulatePacket, .rst] []).wait = none ∧
    (readyWith [.cmd modulatePacket, .rst] []).input = .cmd modulatePacket :: [.rst] ∧
    decode modulatePacket = .ok (.modulate 2 [false, true]) := ⟨rfl, rfl, by decide⟩

/-- With nothing at the ports, with a command, with a reset, and with an answer. -/
theorem witness_WaitingTakesNoCommand :
    (∃ t, step (waiting [] []) = .next t ∧ (t.wait, t.input) = ((waiting [] []).wait, [])) ∧
    (∃ t, step (waiting [.cmd awgnPacket] [.value 0]) = .next t ∧ (t.wait, t.input) = (none, [.cmd awgnPacket])) ∧
    ∃ t, step (waiting [.rst] []) = .next t ∧ (t.wait, t.input) = (none, []) :=
  ⟨step_shows (fun t => (t.wait, t.input)) (by decide +kernel),
    step_shows (fun t => (t.wait, t.input)) (by decide +kernel),
    step_shows (fun t => (t.wait, t.input)) (by decide +kernel)⟩

/-- A command to come, a reset after a response and before another, a reset that takes a response from a waiting
`AWGN` and from a `MODULATE`, and a step that answers. -/
theorem witness_RunEndsWithItsLastResponse :
    (waiting [.rst] []).wait ≠ none ∧
    (∃ c rest, (readyWith [.cmd modulatePacket] []).input = .cmd c :: rest) ∧
    (∃ t, step (readyWith [.rst, .rst] []) = .next t ∧ t.ended = true) ∧
    (∃ t, step (readyWith [.rst, .cmd modulatePacket] []) = .next t ∧ t.ended = false) ∧
    (∃ t, step (waiting [.rst] []) = .next t ∧ t.ended = false) ∧
    (∃ t, step (readyWith [.rst] []) = .next t ∧ t.ended = true) ∧
    ((readyWith [.rstDuring modulatePacket 0] []).wait = none ∧
      ∃ t, step (readyWith [.rstDuring modulatePacket 0] []) = .next t ∧ t.ended = false) ∧
    State.Inv { State.reset with input := [.cmd modulatePacket] } ∧
    ∃ t, step { State.reset with input := [.cmd modulatePacket] } = .next t ∧ t.rsp.length = 1 := by
  refine ⟨by decide, ⟨modulatePacket, [], rfl⟩, step_shows (·.ended) (by decide +kernel),
    step_shows (·.ended) (by decide +kernel), step_shows (·.ended) (by decide +kernel),
    step_shows (·.ended) (by decide +kernel),
    ⟨rfl, step_shows (·.ended) (by decide +kernel)⟩, ⟨?_, ?_, ?_, ?_, ?_, Nat.zero_le _, Nat.zero_le _⟩,
    step_shows (·.rsp.length) (by decide +kernel)⟩
  · intro c h
    cases h
  · intro c h
    cases h
  · intro c h
    cases h
  · intro w h
    cases h
  · intro r h
    cases h

theorem witness_IdleBlockKeepsItsState : ready.wait = none ∧ ready.input = [] := ⟨rfl, rfl⟩

/-- For each unit, operands that are taken and operands that are not. -/
theorem witness_ConfigurationTakesEffectAtOnce :
    (¬ BadConfiguration Params.atReset (.modcfg 4 0) ∧ BadConfiguration Params.atReset (.modcfg 3 0) ∧
      Unconfigured State.reset (.modulate 0 [])) ∧
    (¬ BadConfiguration Params.atReset (.chcfg oneF64 none) ∧ BadConfiguration Params.atReset (.chcfg 0 none) ∧
      Unconfigured State.reset (.awgn 0 [])) ∧
    (¬ BadConfiguration Params.atReset (.dmcfg 4 0) ∧ BadConfiguration Params.atReset (.dmcfg 3 0) ∧
      Unconfigured State.reset (.demodulate 0 [])) := by
  have good : ¬ (¬ LegalOrder Params.atReset 4 ∨ isFinite 0 = false) := fun h =>
    h.elim (fun h => h legal_four) (fun h => absurd h (by decide))
  refine ⟨⟨good, .inl illegal_three, rfl⟩, ⟨?_, .inl ?_, rfl⟩, ⟨good, .inl illegal_three, rfl⟩⟩
  · rintro (h | ⟨x, h, _⟩)
    · exact h ((isPositive_iff _).mp (by decide))
    · cases h
  · exact fun h => absurd ((isPositive_iff _).mpr h) (by decide)

theorem witness_IllegalCommandWritesNothing :
    (readyWith [.cmd ⟨0x00000007, [], []⟩, .cmd modulatePacket] []).wait = none ∧
    decode ⟨0x00000007, [], []⟩ = .error .reservedOpcode ∧
    decode modulatePacket = .ok (.modulate 2 [false, true]) := ⟨rfl, by decide, by decide⟩

/-- One packet for each clause, at the edge of its range. -/
theorem witness_IllegalCommandCauses :
    Malformed ⟨0x00000000, [], []⟩ ∧ Malformed ⟨0x00000007, [], []⟩ ∧ Malformed ⟨0xFFFFFFFF, [], []⟩ ∧
    Malformed ⟨0x00000401, [], []⟩ ∧ Malformed ⟨0x00000405, [0], [.bit true]⟩ ∧
    Malformed ⟨0x00000203, [oneF64], []⟩ ∧ Malformed ⟨0x00000103, [oneF64], []⟩ ∧
    Malformed ⟨0x00000202, [], [.bit true, .sym east]⟩ ∧ Malformed ⟨0x00000104, [], [.bit true]⟩ ∧
    Malformed ⟨0x00000106, [0], [.sym east]⟩ := by
  refine ⟨.inl (by decide), .inr (.inl (by decide)), .inr (.inl (by decide)),
    .inr (.inr (.inl ⟨by decide, .inl (by decide)⟩)), .inr (.inr (.inl ⟨by decide, .inr (by decide)⟩)),
    .inr (.inr (.inr (.inl ⟨by decide, .inl (by decide)⟩))),
    .inr (.inr (.inr (.inl ⟨by decide, .inr (.inl (by decide))⟩))),
    .inr (.inr (.inr (.inr (.inl ⟨by decide, .inr ⟨.sym east, by decide, (fun b h => by cases h)⟩⟩)))),
    .inr (.inr (.inr (.inr (.inr ⟨by decide, .inr ⟨.bit true, by decide, (fun b h => by cases h)⟩⟩)))),
    .inr (.inr (.inr (.inr (.inr ⟨by decide, .inl (by decide)⟩))))⟩

theorem witness_DecodeOfEncode : Instr.wf (.awgn (2 ^ 24 - 1) [east]) = true ∧ Instr.wf (.modcfg 0 0) = true ∧
    Instr.wf (.chcfg 0 (some 0)) = true := by decide

theorem witness_EncodeOfDecode : decode awgnPacket = .ok (.awgn 1 [east]) := by decide

theorem witness_AssembledLinesDecode :
    (AsmLine.modulate none [false, true]).assemble = some [modulatePacket] ∧
    (AsmLine.modulate (some (2 ^ 24 - 1)) []).assemble = some [⟨0xFFFFFF02, [], []⟩] ∧
    (AsmLine.awgn (some (2 ^ 24 - 1)) []).assemble = some [⟨0xFFFFFF04, [], []⟩] ∧
    literalSyms [(.decimal false 1 0, .decimal false 0 0)] = some [east] ∧
    (Literal.infinity false).value = some plusInf := by decide +kernel

theorem witness_AssembledLinesDecode_text : PlainWord "0x10".toList ∧ PlainWord "PI/4".toList ∧
    parseUint "0x10".toList = some 16 ∧ parseLiteral "PI/4".toList = some (.piOver false 4) :=
  ⟨⟨by decide +kernel, by simp⟩, ⟨by decide +kernel, by simp⟩, by decide +kernel, by decide +kernel⟩

/-- Operands that both commands take, and an order they refuse. -/
theorem witness_LinkcfgExpands :
    (Literal.piOver false 4).value = some quarterPi ∧
    (∃ t, exec (.modcfg 4 quarterPi) State.reset = .next t ∧ ∃ u, exec (.dmcfg 4 quarterPi) t = .next u) ∧
    ∃ t, exec (.modcfg 3 quarterPi) State.reset = .next t ∧ ∃ u, exec (.dmcfg 3 quarterPi) t = .next u := by
  refine ⟨by decide +kernel, ?_, ?_⟩
  · obtain ⟨t, ht, -⟩ := exec_shows (i := .modcfg 4 quarterPi) (s := State.reset) (·.params) (a := Params.atReset)
      (by decide +kernel)
    refine ⟨t, ht, ?_⟩
    simp only [exec, execDmcfg]
    split <;> exact ⟨_, rfl⟩
  · obtain ⟨t, ht, -⟩ := exec_shows (i := .modcfg 3 quarterPi) (s := State.reset) (·.params) (a := Params.atReset)
      (by decide +kernel)
    refine ⟨t, ht, ?_⟩
    simp only [exec, execDmcfg]
    split <;> exact ⟨_, rfl⟩

/-- The least and the greatest `q`, a mantissa of 0 without a minus, and digits of each base. -/
theorem witness_LiteralsAreRounded :
    (0 < 1 ∧ 1 < 2 ^ 24) ∧ (0 < 2 ^ 24 - 1 ∧ 2 ^ 24 - 1 < 2 ^ 24) ∧ ((0 : Nat) ≠ 0 ∨ false = false) ∧
    (∀ d ∈ [0, 9], d < 10) ∧ (∀ d ∈ [0, 15], d < 16) ∧ (List.replicate 16 15).length = 16 := by decide

/-- A command that is answered, and an `AWGN` that waits. -/
theorem witness_OneResponsePerCommand :
    (∃ t, step (readyWith [.cmd modulatePacket] []) = .next t ∧ (t.wait.isNone, t.rsp.length) = (true, 1)) ∧
    ∃ t, step (readyWith [.cmd awgnPacket] [.value 0]) = .next t ∧ (t.wait.isNone, t.rsp.length) = (false, 0) :=
  ⟨step_shows (fun t => (t.wait.isNone, t.rsp.length)) (by decide +kernel),
    step_shows (fun t => (t.wait.isNone, t.rsp.length)) (by decide +kernel)⟩

theorem witness_RandomSourceCauses :
    ∃ t, exec (.awgn 1 [east]) (readyWith [] [.unavailable]) = .next t ∧ t.rsp = [⟨.randomSource, []⟩] :=
  exec_shows (·.rsp) (by decide +kernel)

/-- A command for each clause: malformed, unconfigured, and bad in configuration, input or draws. -/
theorem witness_FirstFailingCheckIsReported :
    Malformed ⟨0x00000000, [], []⟩ ∧
    (decode modulatePacket = .ok (.modulate 2 [false, true]) ∧ Unconfigured State.reset (.modulate 2 [false, true])) ∧
    (decode ⟨0x00000301, [0], []⟩ = .ok (.modcfg 3 0) ∧ ¬ Unconfigured ready (.modcfg 3 0) ∧
      BadConfiguration ready.params (.modcfg 3 0)) ∧
    (decode ⟨0x00000204, [], [.sym east]⟩ = .ok (.awgn 2 [east]) ∧ ¬ Unconfigured ready (.awgn 2 [east]) ∧
      BadInput ready (.awgn 2 [east])) ∧
    (decode awgnPacket = .ok (.awgn 1 [east]) ∧
      ¬ Unconfigured (readyWith [.cmd awgnPacket] [.value 0, .unavailable]) (.awgn 1 [east]) ∧
      ¬ BadInput (readyWith [.cmd awgnPacket] [.value 0, .unavailable]) (.awgn 1 [east]) ∧
      BadDraw (readyWith [.cmd awgnPacket] [.value 0, .unavailable]) (.awgn 1 [east])) ∧
    ∃ t, step (readyWith [.cmd awgnPacket] [.value 0, .unavailable]) = .next t ∧ t.drawn = 2 :=
  ⟨.inl (by decide), ⟨by decide, rfl⟩, ⟨by decide, (fun h => h), .inl illegal_three⟩,
    ⟨by decide, (fun h => by cases h), .inl (by decide)⟩,
    ⟨by decide, awgn_configured _ _, awgn_good_input _ _, [0], .unavailable, [], rfl, by decide, finite_draws (by decide),
      trivial⟩,
    step_shows (·.drawn) (by decide +kernel)⟩

/-- An error before the draws and one at a draw. -/
theorem witness_ErrorsWriteNothing :
    (∃ t, exec (.modcfg 3 0) ready = .next t ∧ t.rsp = [⟨.invalidConfiguration, []⟩]) ∧
    ∃ t, exec (.awgn 1 [east]) (readyWith [] [.value 0, .unavailable]) = .next t ∧
      t.rsp = [⟨.randomSource, []⟩] :=
  ⟨exec_shows (·.rsp) (by decide +kernel), exec_shows (·.rsp) (by decide +kernel)⟩

theorem witness_NoErrorIsSticky : ready.wait = none ∧
    ∃ t, exec (.modulate 5 []) ready = .next t ∧ t.rsp = [⟨.invalidInput, []⟩] :=
  ⟨rfl, exec_shows (·.rsp) (by decide +kernel)⟩

theorem witness_CommandFrame : ∃ t, exec (.awgn 1 [east]) (readyWith [] [.value 0, .value 0]) = .next t ∧
    t.drawn = 2 := exec_shows (·.drawn) (by decide +kernel)

/-- A state with every unit configured meets the invariant, and a step of it takes draws. -/
theorem witness_StepKeepsInvariant : (readyWith [.cmd awgnPacket] [.value 0]).Inv ∧
    ∃ t, step (readyWith [.cmd awgnPacket] [.value 0]) = .next t ∧ t.drawn = 1 := by
  refine ⟨⟨?_, ?_, ?_, ?_, ?_, Nat.zero_le _, Nat.zero_le _⟩, step_shows (·.drawn) (by decide +kernel)⟩
  · rintro c h
    cases h
    exact legal_qpsk
  · rintro c h
    cases h
    exact legal_qpsk
  · rintro c h
    cases h
    exact legal_unitChannel
  · rintro w h
    cases h
  · rintro r h
    cases h

theorem witness_UnitsAreSeparate : (∃ order phase, Instr.modcfg 4 0 = .modcfg order phase) ∧
    (∃ n syms, Instr.awgn 1 [east] = .awgn n syms) ∧ ∃ n syms, Instr.demodulate 1 [east] = .demodulate n syms :=
  ⟨⟨4, 0, rfl⟩, ⟨1, [east], rfl⟩, ⟨1, [east], rfl⟩⟩

/-- The least and the greatest legal order, the orders beside them, and a NaN phase. -/
theorem witness_ModcfgConfigures :
    (LegalOrder Params.atReset 2 ∧ isFinite 0x8000000000000000 = true) ∧ LegalOrder Params.atReset (2 ^ 23) ∧
    ¬ LegalOrder Params.atReset 1 ∧ ¬ LegalOrder Params.atReset 0 ∧
    ¬ LegalOrder { Params.atReset with kmax := 2 } 8 ∧ isFinite 0x7FF8000000000000 = false :=
  ⟨⟨⟨1, by decide, by decide, rfl⟩, by decide⟩, ⟨23, by decide, by decide, rfl⟩,
    fun h => absurd ((legalOrder_iff _ _).mpr h) (by decide),
    fun h => absurd ((legalOrder_iff _ _).mpr h) (by decide),
    fun h => absurd ((legalOrder_iff _ _).mpr h) (by decide), by decide⟩

theorem witness_ModulateMapsChunks : State.reset.mod = none ∧ ready.mod = some (psk 4 0) ∧
    [true].length ≠ 2 ∧ 3 % (psk 4 0).order.log2 ≠ 0 ∧ [true, false].length = 2 ∧ 2 % (psk 4 0).order.log2 = 0 := by
  refine ⟨rfl, rfl, by decide, by decide +kernel, rfl, by decide +kernel⟩

/-- With the Gray code, and with a table of the block's builder. -/
theorem witness_ModulateEmitsTablePoints :
    (ready.params.wf ∧ ready.mod = some (psk 4 0) ∧ (psk 4 0).Legal ready.params ∧
      [true, false].length % (psk 4 0).order.log2 = 0) ∧
    Params.wf { kmax := 2, label := .table [[1, 0], [0, 1, 2, 3]], hostByteOrder := .little } := by
  refine ⟨⟨wf_atReset, rfl, legal_qpsk, by decide +kernel⟩, by decide, by decide, fun k h1 h2 => ?_⟩
  have h2 : k ≤ 2 := h2
  interval_cases k <;> exact ⟨by decide, by decide, by decide⟩

theorem witness_BitOrderIsMostSignificantFirst : 0 < 1 ∧ 2 < 3 ∧ (2 ^ 3 - 1 < 2 ^ 3 ∧ 0 < 2 ^ 0) := by decide

theorem witness_LabelMapIsBijective : Labelling.wf 23 .gray ∧ 23 ≤ 23 ∧ 2 ^ 23 - 1 < 2 ^ 23 ∧
    Labelling.wf 1 (.table [[1, 0]]) := by
  refine ⟨trivial, le_refl _, by decide, fun k h1 h2 => ?_⟩
  interval_cases k
  exact ⟨by decide, by decide, by decide⟩

theorem witness_DefaultLabelsAreGray : 7 < 2 ^ 3 ∧ 1 ≤ 1 ∧ 1 < 2 ^ 1 := by decide

/-- A zero phase, whose table has exact points, and the greatest finite one. -/
theorem witness_TableIsCorrectlyRounded : LegalOrder Params.atReset 4 ∧ isFinite 0x8000000000000000 = true ∧
    isFinite 0x7FEFFFFFFFFFFFFF = true ∧ 3 < 4 := ⟨legal_four, by decide, by decide, by decide⟩

theorem witness_PointsHaveUnitMagnitude : LegalOrder Params.atReset 4 ∧ isFinite quarterPi = true ∧
    (⟨0x3FE6A09E667F3BCD, 0x3FE6A09E667F3BCC⟩ : Sym) ∈ constellation 4 quarterPi :=
  ⟨legal_four, by decide, by decide +kernel⟩

theorem witness_PointsAreBalanced : LegalOrder Params.atReset 4 ∧ isFinite quarterPi = true :=
  ⟨legal_four, by decide⟩

theorem witness_PointsAreDistinct : Params.atReset.wf ∧ LegalOrder Params.atReset 4 ∧ isFinite 0 = true ∧
    (constellation 4 0)[0]? = some east ∧ (constellation 4 0)[2]? = some west :=
  ⟨wf_atReset, legal_four, by decide, by decide +kernel, by decide +kernel⟩

/-- The least positive SNR and power, an absent power, and what is refused. -/
theorem witness_ChcfgConfigures :
    (Positive 1 ∧ isFinite (some (1 : F64) |>.getD oneF64) = true ∧ Positive ((none : Option F64).getD oneF64)) ∧
    Positive plusInf ∧ ¬ Positive 0 ∧ isFinite plusInf = false := by
  refine ⟨⟨(isPositive_iff _).mp (by decide), by decide, (isPositive_iff _).mp (by decide)⟩,
    (isPositive_iff _).mp (by decide), fun h => absurd ((isPositive_iff _).mpr h) (by decide), by decide⟩

theorem witness_AwgnAddsNoise :
    let s := readyWith [] ([0, oneF64].map Answer.value ++ [.unavailable])
    s.ch = some unitChannel ∧ [east].length = 1 ∧ FiniteSyms [east] ∧
    s.gauss = [0, oneF64].map Answer.value ++ [.unavailable] ∧ [0, oneF64].length = 2 * 1 ∧
    ∀ z ∈ [0, oneF64], isFinite z = true := ⟨rfl, rfl, finite_east, rfl, rfl, finite_draws (by decide)⟩

theorem witness_AwgnChecksItsInput : State.reset.ch = none ∧ ready.ch ≠ none ∧ [east].length ≠ 2 ∧
    ¬ FiniteSyms [⟨plusInf, 0⟩] := ⟨rfl, by decide, by decide, infinite_sym⟩

/-- The first draw of two unanswerable, and the last of them not finite. -/
theorem witness_AwgnReportsTheSource :
    ((readyWith [] [.unavailable]).ch = some unitChannel ∧ [east].length = 1 ∧ FiniteSyms [east] ∧
      (readyWith [] [.unavailable]).gauss = [].map Answer.value ++ .unavailable :: [] ∧
      Answer.unavailable.Fails) ∧
    ((readyWith [] [.value 0, .value plusInf]).gauss = [0].map Answer.value ++ .value plusInf :: [] ∧
      [(0 : F64)].length < 2 * 1 ∧ (Answer.value plusInf).Fails) :=
  ⟨⟨rfl, rfl, finite_east, rfl, trivial⟩, rfl, by decide, show isFinite plusInf = false by decide⟩

theorem witness_UnansweredDrawLeavesTheBlockStuck :
    ((readyWith [] [.value 0]).ch = some unitChannel ∧ [east].length = 1 ∧ FiniteSyms [east] ∧
      (readyWith [] [.value 0]).gauss = [0].map Answer.value ∧ [(0 : F64)].length < 2 * 1) ∧
    ((waiting [.cmd awgnPacket] []).wait = some ⟨unitChannel, [east], [0]⟩ ∧
      (waiting [.cmd awgnPacket] []).gauss = [] ∧
      ∀ rest, (waiting [.cmd awgnPacket] []).input ≠ .rst :: rest) :=
  ⟨⟨rfl, rfl, finite_east, rfl, by decide⟩, rfl, rfl, (fun rest h => by cases h)⟩

/-- With the draw it lacks. -/
theorem witness_WaitingAwgnResumes :
    let s := waiting [] ([oneF64].map Answer.value ++ [])
    s.wait = some ⟨unitChannel, [east], [0]⟩ ∧ (∀ more, s.input ≠ .rst :: more) ∧
    s.gauss = [oneF64].map Answer.value ++ [] ∧ [(0 : F64)].length + [oneF64].length = 2 * [east].length ∧
    ∀ z ∈ [oneF64], isFinite z = true := ⟨rfl, (fun more h => by cases h), rfl, rfl, finite_draws (by decide)⟩

/-- With an answer that is not finite in the place of its last draw. -/
theorem witness_WaitingAwgnResumes_failing :
    let s := waiting [.cmd awgnPacket] ([].map Answer.value ++ [.value plusInf])
    s.wait = some ⟨unitChannel, [east], [0]⟩ ∧ (∀ more, s.input ≠ .rst :: more) ∧
    s.gauss = [].map Answer.value ++ [.value plusInf] ∧ [(0 : F64)].length + 0 < 2 * [east].length ∧
    (Answer.value plusInf).Fails :=
  ⟨rfl, (fun more h => by cases h), rfl, by decide, show isFinite plusInf = false by decide⟩

/-- With one answer of the two it lacks. -/
theorem witness_WaitingAwgnResumes_lacking :
    let s : State := { readyWith [] [.value oneF64] with wait := some ⟨unitChannel, [east], []⟩ }
    s.gauss = [oneF64].map Answer.value ++ [] ∧ (∀ more, s.input ≠ .rst :: more) ∧
    0 + [oneF64].length < 2 * [east].length := ⟨rfl, (fun more h => by cases h), by decide⟩

/-- An infinite SNR and a zero draw, where nothing is added, and a draw that adds noise. -/
theorem witness_NoisyRoundsOnce :
    (ChCfg.Legal ⟨plusInf, oneF64⟩ ∧ noiseSigma ⟨plusInf, oneF64⟩ * realValue oneF64 = 0) ∧
    (unitChannel.Legal ∧ noiseSigma unitChannel * realValue 0 = 0) ∧
    noiseSigma unitChannel * realValue oneF64 ≠ 0 := by
  have hp : ∀ x : F64, signBit x = false ∧ isZero x = false → 0 < realValue x := fun x h => (realValue_pos_iff x).mpr h
  refine ⟨⟨⟨by decide, by decide, by decide⟩, ?_⟩, ⟨legal_unitChannel, ?_⟩, ?_⟩
  · rw [noiseSigma, if_pos rfl, zero_mul]
  · rw [(realValue_eq_zero_iff 0).mpr (by decide), mul_zero]
  · have h1 := hp oneF64 (by decide)
    have h2 := hp unitChannel.snr (by decide)
    have h3 := hp unitChannel.sp (by decide)
    rw [noiseSigma, if_neg (by decide)]
    exact (mul_pos (Real.sqrt_pos.mpr (div_pos h3 (mul_pos two_pos h2))) h1).ne'

theorem witness_NoiseIsGaussian : unitChannel.Legal ∧ unitChannel.snr ≠ plusInf ∧ isFinite oneF64 = true :=
  ⟨legal_unitChannel, by decide, by decide⟩

theorem witness_DmcfgConfigures : LegalOrder Params.atReset 4 ∧ ¬ LegalOrder Params.atReset 3 ∧
    isFinite 0x7FF8000000000000 = false ∧ isFinite 0 = true ∧
    ∃ t, exec (.modcfg 4 0) State.reset = .next t ∧ t.rsp = [⟨.ok, []⟩] :=
  ⟨legal_four, illegal_three, by decide, by decide, exec_shows (·.rsp) (by decide +kernel)⟩

theorem witness_DemodulateEmitsLabels : State.reset.dm = none ∧ ready.dm = some (psk 4 0) ∧ [east].length ≠ 2 ∧
    ¬ FiniteSyms [⟨plusInf, 0⟩] ∧ ([east].length = 1 ∧ FiniteSyms [east]) :=
  ⟨rfl, rfl, by decide, infinite_sym, rfl, finite_east⟩

theorem witness_DecisionIsLeastNearest : (psk 4 0).pts ≠ [] ∧ nearestPoint (psk 4 0).pts west = 2 := by
  refine ⟨?_, by decide +kernel⟩
  rw [Ne, ← List.length_eq_zero_iff, psk, constellation_length]
  decide

/-- The received symbol itself (`q = 1`) and the point it is decided as (`q = 0`). -/
theorem witness_DecisionRegionsAreStarShaped :
    ([east, west] ≠ [] ∧ nearestPoint [east, west] ⟨0, oneF64⟩ = 0 ∧
      ∀ i j, i < j → j < [east, west].length →
        0 < realDist2 ([east, west].getD i ⟨0, 0⟩) ([east, west].getD j ⟨0, 0⟩)) ∧
    (∀ r p : ℝ, r = p + 1 * (r - p)) ∧ ∀ r p : ℝ, p = p + 0 * (r - p) := by
  refine ⟨⟨by decide, by decide +kernel, fun i j h1 h2 => ?_⟩, fun r p => by ring, fun r p => by ring⟩
  have h2 : j < 2 := h2
  have hi : i = 0 := by omega
  have hj : j = 1 := by omega
  subst hi hj
  rw [realDist2_eq]
  have h : 0 < dist2 east west := by decide +kernel
  have : (0 : ℝ) < (dist2 east west : ℝ) := by exact_mod_cast h
  positivity

/-- An infinite SNR against a finite one, and 1.0 against 0.5, on the two points of `M = 2`. -/
theorem witness_SymbolErrorsGrowAsSnrFalls :
    (ChCfg.Legal ⟨plusInf, oneF64⟩ ∧ ChCfg.Legal ⟨oneF64, oneF64⟩ ∧ ChCfg.Legal ⟨0x3FE0000000000000, oneF64⟩) ∧
    ((0x3FE0000000000000 : F64) ≠ plusInf ∧ realValue 0x3FE0000000000000 ≤ realValue oneF64) ∧
    1 < [east, west].length ∧
    ∀ i, i < [east, west].length → i ≠ 1 → 0 < realDist2 ([east, west].getD 1 ⟨0, 0⟩) ([east, west].getD i ⟨0, 0⟩) := by
  refine ⟨⟨⟨by decide, by decide, by decide⟩, ⟨by decide, by decide, by decide⟩, ⟨by decide, by decide, by decide⟩⟩,
    ⟨by decide, ?_⟩, by decide, fun i h1 h2 => ?_⟩
  · have h : exactValue 0x3FE0000000000000 ≤ exactValue oneF64 := by decide +kernel
    exact div_le_div_of_nonneg_right (by exact_mod_cast h) (by positivity)
  · have h1 : i < 2 := h1
    have hi : i = 0 := by omega
    subst hi
    rw [realDist2_eq]
    have h : 0 < dist2 west east := by decide +kernel
    have : (0 : ℝ) < (dist2 west east : ℝ) := by exact_mod_cast h
    exact div_pos this (by positivity)

theorem witness_MismatchIsNotAnError : ready.dm = some (psk 4 0) ∧ [east].length = 1 ∧ FiniteSyms [east] :=
  ⟨rfl, rfl, finite_east⟩

theorem witness_NoiselessRoundTrip : ready.params.wf ∧ ready.mod = some (psk 4 0) ∧ ready.dm = some (psk 4 0) ∧
    (psk 4 0).Legal ready.params ∧ [true, false].length % (psk 4 0).order.log2 = 0 ∧
    [true, false].length < 2 ^ 24 := ⟨wf_atReset, rfl, rfl, legal_qpsk, by decide +kernel, by decide⟩

theorem witness_NoiselessRoundTripThroughChannel :
    let s := { readyWith [] ([0, oneF64].map Answer.value ++ []) with ch := some ⟨plusInf, oneF64⟩ }
    s.params.wf ∧ s.mod = some (psk 4 0) ∧ s.dm = some (psk 4 0) ∧ s.ch = some ⟨plusInf, oneF64⟩ ∧
    (psk 4 0).Legal s.params ∧ [true, false].length % (psk 4 0).order.log2 = 0 ∧
    s.gauss = [0, oneF64].map Answer.value ++ [] ∧
    [(0 : F64), oneF64].length = 2 * ([true, false].length / (psk 4 0).order.log2) ∧
    ∀ z ∈ [0, oneF64], isFinite z = true :=
  ⟨wf_atReset, rfl, rfl, rfl, legal_qpsk, by decide +kernel, rfl, by decide +kernel, finite_draws (by decide)⟩

end Sys2Proof.Tests
end

section
/-! Bit order of labels (`00_scope.md` R10): the value of the bits of `v` is `v mod 2^k`,
and the bits of the value of a list are that list. -/

namespace Sys2Proof.Machine

/-- The bits above position `k` are dropped: what is read back is the remainder. -/
theorem valMsb_bitsMsb (v k : Nat) : valMsb (bitsMsb v k) = v % 2 ^ k := by
  induction k with
  | zero => simp [bitsMsb, valMsb, Nat.mod_one]
  | succ k ih =>
    rw [bitsMsb, valMsb_cons, bitsMsb_length, ih, Nat.toNat_testBit, Nat.mod_pow_succ]
    ring

/-- Bits from position `n` on do not show in a list of `k ≤ n` bits. -/
theorem bitsMsb_mul_two_pow_add {v n k : Nat} (a : Nat) (hv : v < 2 ^ n) (hk : k ≤ n) :
    bitsMsb (a * 2 ^ n + v) k = bitsMsb v k := by
  induction k with
  | zero => rfl
  | succ k ih =>
    have htop : (a * 2 ^ n + v).testBit k = v.testBit k := by
      rw [mul_comm, Nat.testBit_two_pow_mul_add a hv, if_pos (by omega)]
    rw [bitsMsb, bitsMsb, htop, ih (by omega)]

/-- The bit at position `n` is the one put in front of a value below `2^n`. -/
theorem testBit_toNat_mul_two_pow_add {v n : Nat} (b : Bit) (hv : v < 2 ^ n) :
    (b.toNat * 2 ^ n + v).testBit n = b := by
  rw [mul_comm, Nat.testBit_two_pow_mul_add _ hv, if_neg (by omega), Nat.sub_self]
  cases b <;> rfl

theorem bitsMsb_valMsb (c : List Bit) : bitsMsb (valMsb c) c.length = c := by
  induction c with
  | nil => rfl
  | cons b c ih =>
    have hlt := valMsb_lt c
    rw [valMsb_cons, List.length_cons, bitsMsb, testBit_toNat_mul_two_pow_add b hlt,
      bitsMsb_mul_two_pow_add b.toNat hlt le_rfl, ih]

/-- Settles O37: bit positions by `bitsMsb_getElem?`; the two inverses by `valMsb_bitsMsb` (a value below
`2^k` is its own remainder) and `bitsMsb_valMsb`. -/
theorem bitOrderIsMostSignificantFirst : Obligations.BitOrderIsMostSignificantFirst :=
  ⟨bitsMsb_getElem?, bitsMsb_length,
    fun v k hv => (valMsb_bitsMsb v k).trans (Nat.mod_eq_of_lt hv),
    fun c => ⟨valMsb_lt c, bitsMsb_valMsb c⟩⟩

end Sys2Proof.Machine
end

section
/-! What each command and each step changes and leaves unchanged (`10_state.md` R33; `20_memory.md` R45;
`60_exceptions.md` R147): the rules the statements about the registers are read from. -/

namespace Sys2Proof.Machine

variable {i : Instr} {s t : State}

/-! ## The `AWGN` in flight -/

/-- An `AWGN` in flight takes answers from the front of the source, counts them, appends at most one response
and may stay in flight. Nothing else of the state changes. -/
theorem runAwgn_changes (s : State) (w : Wait) : ∃ (m : Nat) (r : List Rsp) (v : Option Wait),
    s.runAwgn w = { s with gauss := s.gauss.drop m, drawn := s.drawn + m, rsp := s.rsp ++ r, wait := v } ∧
      m ≤ s.gauss.length ∧ r.length ≤ 1 := by
  rcases runAwgn_cases s w with
    ⟨zs, rest, hg, -, -, he⟩ | ⟨zs, a, rest, hg, -, -, -, he⟩ | ⟨zs, hg, -, -, he⟩
  · refine ⟨zs.length, [⟨.ok, (addNoise w.cfg w.syms (w.zs ++ zs)).map .sym⟩], s.wait, ?_, by simp [hg], le_rfl⟩
    rw [he, hg, List.drop_left' (List.length_map _)]
    rfl
  · refine ⟨zs.length + 1, [⟨.randomSource, []⟩], s.wait, ?_, by simp [hg], le_rfl⟩
    rw [he, hg, ← List.drop_drop, List.drop_left' (List.length_map _)]
    rfl
  · refine ⟨zs.length, [], some { w with zs := w.zs ++ zs }, ?_, by simp [hg], Nat.zero_le _⟩
    rw [he, hg, List.drop_eq_nil_of_le (by simp), List.append_nil]

@[simp] theorem runAwgn_params (s : State) (w : Wait) : (s.runAwgn w).params = s.params := by
  obtain ⟨_, _, _, he, -⟩ := runAwgn_changes s w
  rw [he]

@[simp] theorem runAwgn_mod (s : State) (w : Wait) : (s.runAwgn w).mod = s.mod := by
  obtain ⟨_, _, _, he, -⟩ := runAwgn_changes s w
  rw [he]

@[simp] theorem runAwgn_dm (s : State) (w : Wait) : (s.runAwgn w).dm = s.dm := by
  obtain ⟨_, _, _, he, -⟩ := runAwgn_changes s w
  rw [he]

@[simp] theorem runAwgn_ch (s : State) (w : Wait) : (s.runAwgn w).ch = s.ch := by
  obtain ⟨_, _, _, he, -⟩ := runAwgn_changes s w
  rw [he]

@[simp] theorem runAwgn_input (s : State) (w : Wait) : (s.runAwgn w).input = s.input := by
  obtain ⟨_, _, _, he, -⟩ := runAwgn_changes s w
  rw [he]

@[simp] theorem runAwgn_run (s : State) (w : Wait) : (s.runAwgn w).run = s.run := by
  obtain ⟨_, _, _, he, -⟩ := runAwgn_changes s w
  rw [he]

/-- An `AWGN` in flight runs with the channel it holds: it neither reads nor writes the other units'
registers. -/
theorem runAwgn_withPsk (s : State) (w : Wait) (m d : Option PskCfg) :
    State.runAwgn { s with mod := m, dm := d } w = { s.runAwgn w with mod := m, dm := d } := by
  unfold State.runAwgn
  dsimp only
  split <;> rfl

/-! ## The six commands -/

/-- A data command addressed to an unconfigured unit raises `NOT_CONFIGURED`, whatever its operands. -/
theorem exec_unconfigured (h : Unconfigured s i) : exec i s = .next (s.raise .notConfigured) := by
  cases i with
  | modulate n bits => simp only [exec, execModulate, show s.mod = none from h]
  | awgn n syms => simp only [exec, execAwgn, show s.ch = none from h]
  | demodulate n syms => simp only [exec, execDemodulate, show s.dm = none from h]
  | modcfg order phase => exact h.elim
  | chcfg snr sp => exact h.elim
  | dmcfg order phase => exact h.elim

theorem exec_params (h : exec i s = .next t) : t.params = s.params := by
  cases exec_ends h with
  | channel n syms cfg hc hn hf => exact runAwgn_params _ _
  | _ => rfl

theorem exec_input (h : exec i s = .next t) : t.input = s.input := by
  cases exec_ends h with
  | channel n syms cfg hc hn hf => exact runAwgn_input _ _
  | _ => rfl

theorem exec_run (h : exec i s = .next t) : t.run = s.run := by
  cases exec_ends h with
  | channel n syms cfg hc hn hf => exact runAwgn_run _ _
  | _ => rfl

theorem exec_rsp (h : exec i s = .next t) : ∃ r : List Rsp, t.rsp = s.rsp ++ r ∧ r.length ≤ 1 := by
  cases exec_ends h with
  | channel n syms cfg hc hn hf =>
    obtain ⟨m, r, v, he, -, hr⟩ := runAwgn_changes s ⟨cfg, syms, []⟩
    exact ⟨r, by rw [he], hr⟩
  | _ => exact ⟨[_], rfl, le_rfl⟩

theorem exec_mod (h : exec i s = .next t) (hi : ∀ order phase, i ≠ .modcfg order phase) : t.mod = s.mod := by
  cases exec_ends h with
  | modcfg order phase => exact absurd rfl (hi order phase)
  | channel n syms cfg hc hn hf => exact runAwgn_mod _ _
  | _ => rfl

theorem exec_dm (h : exec i s = .next t) (hi : ∀ order phase, i ≠ .dmcfg order phase) : t.dm = s.dm := by
  cases exec_ends h with
  | dmcfg order phase => exact absurd rfl (hi order phase)
  | channel n syms cfg hc hn hf => exact runAwgn_dm _ _
  | _ => rfl

theorem exec_ch (h : exec i s = .next t) (hi : ∀ snr sp, i ≠ .chcfg snr sp) : t.ch = s.ch := by
  cases exec_ends h with
  | chcfg snr sp => exact absurd rfl (hi snr sp)
  | channel n syms cfg hc hn hf => exact runAwgn_ch _ _
  | _ => rfl

/-- Only `AWGN` draws, and only `AWGN` can be left in flight. -/
theorem exec_source (h : exec i s = .next t) (hi : ∀ n syms, i ≠ .awgn n syms) :
    t.gauss = s.gauss ∧ t.drawn = s.drawn ∧ t.wait = s.wait := by
  cases exec_ends h with
  | channel n syms cfg hc hn hf => exact absurd rfl (hi n syms)
  | _ => exact ⟨rfl, rfl, rfl⟩

theorem exec_draws (h : exec i s = .next t) :
    ∃ m, t.gauss = s.gauss.drop m ∧ t.drawn = s.drawn + m ∧ m ≤ s.gauss.length := by
  cases exec_ends h with
  | channel n syms cfg hc hn hf =>
    obtain ⟨m, r, v, he, hm, -⟩ := runAwgn_changes s ⟨cfg, syms, []⟩
    exact ⟨m, by rw [he], by rw [he], hm⟩
  | _ => exact ⟨0, rfl, rfl, Nat.zero_le _⟩

/-! ## One step -/

/-- Everything a step can do. -/
inductive Steps (s : State) : State → Prop where
  | idle (hw : s.wait = none) (hi : s.input = []) : Steps s s
  | command (c i rest t) (hw : s.wait = none) (hi : s.input = .cmd c :: rest) (hd : decode c = .ok i)
      (he : exec i { s with input := rest } = .next t) : Steps s t
  | malformed (c e rest) (hw : s.wait = none) (hi : s.input = .cmd c :: rest) (hd : decode c = .error e) :
      Steps s (State.raise { s with input := rest } .illegalCommand)
  | reset (rest) (hi : s.input = .rst :: rest) : Steps s (State.resetBlock { s with input := rest })
  | abandon (c answered rest) (hw : s.wait = none) (hi : s.input = .rstDuring c answered :: rest) :
      Steps s (abandon c answered { s with input := rest })
  | resume (w) (hw : s.wait = some w) (hi : ∀ rest, s.input ≠ .rst :: rest) :
      Steps s (State.runAwgn { s with wait := none } w)

theorem step_steps (h : step s = .next t) : Steps s t := by
  unfold step at h
  split at h
  next w hw =>
    unfold stepWaiting at h
    split at h <;> cases h
    next rest hi => exact .reset rest hi
    next hi => exact .resume w hw hi
  next hw =>
    unfold stepReady at h
    split at h
    next hi => cases h; exact .idle hw hi
    next c rest hi =>
      unfold runPacket at h
      split at h
      next i hd => exact .command c i rest t hw hi hd h
      next e hd => cases h; exact .malformed c e rest hw hi hd
    next rest hi => cases h; exact .reset rest hi
    next c answered rest hi => cases h; exact .abandon c answered rest hw hi

end Sys2Proof.Machine
end

section
/-! The registers (`10_state.md` R32 to R34): what reset leaves in them, which commands write them and which
read them. -/

namespace Sys2Proof.Machine

/-- Settles O1: at reset every data command is `exec_unconfigured`. -/
theorem resetLeavesUnitsUnconfigured : Obligations.ResetLeavesUnitsUnconfigured :=
  ⟨⟨rfl, rfl, rfl⟩, ⟨rfl, rfl, rfl⟩, fun _ _ => exec_unconfigured rfl, fun _ _ => exec_unconfigured rfl,
    fun _ _ => exec_unconfigured rfl⟩

/-- Settles O29: one frame lemma for each part of the state. -/
theorem commandFrame : Obligations.CommandFrame := fun _ _ _ h =>
  ⟨exec_params h, exec_input h, exec_run h, exec_rsp h, exec_mod h, exec_dm h, exec_ch h, exec_source h,
    exec_draws h⟩

/-- Settles O4: of what a step can do, resets clear the registers, and of what `exec` can do, a successful
configuration command writes its own. -/
theorem registersChangeInTwoWays : Obligations.RegistersChangeInTwoWays := by
  intro s t h
  cases step_steps h with
  | idle hw hi => exact .inl ⟨rfl, rfl, rfl⟩
  | malformed c e rest hw hi hd => exact .inl ⟨rfl, rfl, rfl⟩
  | resume w hw hi => exact .inl ⟨runAwgn_mod _ _, runAwgn_dm _ _, runAwgn_ch _ _⟩
  | reset rest hi => exact .inr (.inl ⟨⟨rest, .inl hi⟩, rfl, rfl, rfl⟩)
  | abandon c answered rest hw hi => exact .inr (.inl ⟨⟨rest, .inr ⟨c, answered, hi⟩⟩, rfl, rfl, rfl⟩)
  | command c i rest t hw hi hd he =>
    cases exec_ends he with
    | modcfg order phase =>
      exact .inr (.inr ⟨c, rest, hw, hi, rfl, .inl ⟨order, phase, hd, rfl, rfl, rfl⟩⟩)
    | dmcfg order phase =>
      exact .inr (.inr ⟨c, rest, hw, hi, rfl, .inr (.inl ⟨order, phase, hd, rfl, rfl, rfl⟩)⟩)
    | chcfg snr sp =>
      exact .inr (.inr ⟨c, rest, hw, hi, rfl, .inr (.inr ⟨snr, sp, hd, rfl, rfl, rfl⟩)⟩)
    | output i out h => exact .inl ⟨rfl, rfl, rfl⟩
    | error i e h => exact .inl ⟨rfl, rfl, rfl⟩
    | channel n syms cfg hc hn hf => exact .inl ⟨runAwgn_mod _ _, runAwgn_dm _ _, runAwgn_ch _ _⟩

section
variable (s : State) (m d : Option PskCfg) (h : Option ChCfg)

theorem execModcfg_separate (order : Nat) (phase : F64) :
    execModcfg order phase { s with dm := d, ch := h } =
      mapNext (fun t => { t with dm := d, ch := h }) (execModcfg order phase s) := by
  unfold execModcfg
  dsimp only
  split <;> rfl

theorem execModulate_separate (n : Nat) (bits : List Bit) :
    execModulate n bits { s with dm := d, ch := h } =
      mapNext (fun t => { t with dm := d, ch := h }) (execModulate n bits s) := by
  unfold execModulate
  dsimp only
  split
  · rfl
  · split <;> rfl

theorem execChcfg_separate (snr : F64) (sp : Option F64) :
    execChcfg snr sp { s with mod := m, dm := d } =
      mapNext (fun t => { t with mod := m, dm := d }) (execChcfg snr sp s) := by
  unfold execChcfg
  split <;> rfl

theorem execAwgn_separate (n : Nat) (syms : List Sym) :
    execAwgn n syms { s with mod := m, dm := d } =
      mapNext (fun t => { t with mod := m, dm := d }) (execAwgn n syms s) := by
  unfold execAwgn
  simp only [runAwgn_withPsk]
  split
  · rfl
  · split <;> rfl

theorem execDmcfg_separate (order : Nat) (phase : F64) :
    execDmcfg order phase { s with mod := m, ch := h } =
      mapNext (fun t => { t with mod := m, ch := h }) (execDmcfg order phase s) := by
  unfold execDmcfg
  dsimp only
  split <;> rfl

theorem execDemodulate_separate (n : Nat) (syms : List Sym) :
    execDemodulate n syms { s with mod := m, ch := h } =
      mapNext (fun t => { t with mod := m, ch := h }) (execDemodulate n syms s) := by
  unfold execDemodulate
  dsimp only
  split
  · rfl
  · split <;> rfl

end

/-- Settles O33: for each of the six commands, the two sides take the same branch and write alike, since the
command reads the parameters, the source and its unit's own register only. -/
theorem unitsAreSeparate : Obligations.UnitsAreSeparate := by
  intro s m d h
  refine ⟨?_, ?_, ?_⟩
  · rintro i (⟨order, phase, rfl⟩ | ⟨n, bits, rfl⟩)
    · exact execModcfg_separate s d h order phase
    · exact execModulate_separate s d h n bits
  · rintro i (⟨snr, sp, rfl⟩ | ⟨n, syms, rfl⟩)
    · exact execChcfg_separate s m d snr sp
    · exact execAwgn_separate s m d n syms
  · rintro i (⟨order, phase, rfl⟩ | ⟨n, syms, rfl⟩)
    · exact execDmcfg_separate s m h order phase
    · exact execDemodulate_separate s m h n syms

end Sys2Proof.Machine
end

section
/-! The invariant (`10_state.md` R22, R23, R25; `30_encoding.md` R63; `70_reset_and_hazards.md` R169): it holds
at reset, each shared operation keeps it, so does each command, and so each step. -/

namespace Sys2Proof.Machine

section
variable {i : Instr} {s t : State}

/-! ## The configurations that succeed are legal -/

/-- A response that reports an error is not the response `OK`. -/
theorem raise_rsp_ne_ok {e : Status} (he : e ≠ .ok) : (s.raise e).rsp ≠ s.rsp ++ [⟨.ok, []⟩] := by
  simpa using he

theorem pskCfg_legal {p : Params} {order : Nat} {phase : F64} (h : legalPsk p order phase = true) :
    (pskCfg order phase).Legal p :=
  have ⟨ho, hp⟩ := (legalPsk_iff p order phase).mp h
  ⟨ho, hp, rfl⟩

theorem legalPsk_of_modcfg_ok {order : Nat} {phase : F64} (h : exec (.modcfg order phase) s = .next t)
    (hok : t.rsp = s.rsp ++ [⟨.ok, []⟩]) : legalPsk s.params order phase = true := by
  simp only [exec, execModcfg] at h
  split at h
  next hl => exact hl
  next => cases h; exact absurd hok (raise_rsp_ne_ok (by decide))

theorem legalPsk_of_dmcfg_ok {order : Nat} {phase : F64} (h : exec (.dmcfg order phase) s = .next t)
    (hok : t.rsp = s.rsp ++ [⟨.ok, []⟩]) : legalPsk s.params order phase = true := by
  simp only [exec, execDmcfg] at h
  split at h
  next hl => exact hl
  next => cases h; exact absurd hok (raise_rsp_ne_ok (by decide))

theorem legal_of_chcfg_ok {snr : F64} {sp : Option F64} (h : exec (.chcfg snr sp) s = .next t)
    (hok : t.rsp = s.rsp ++ [⟨.ok, []⟩]) : ChCfg.Legal ⟨snr, powerOperand sp⟩ := by
  simp only [exec, execChcfg] at h
  split at h
  next hl =>
    simp only [legalChannel, Bool.and_eq_true] at hl
    obtain ⟨hsnr, hfinite, hpositive⟩ := hl
    exact ⟨hsnr, hpositive, hfinite⟩
  next => cases h; exact absurd hok (raise_rsp_ne_ok (by decide))

/-! ## The operations keep the invariant -/

namespace State.Inv

/-- Nothing is configured, in flight or emitted. -/
theorem atReset : State.reset.Inv where
  mod := nofun
  dm := nofun
  ch := nofun
  wait := nofun
  rsp := nofun
  rspBefore := le_rfl
  drawnBefore := le_rfl

theorem withInput (h : s.Inv) (input : List Input) : State.Inv { s with input := input } :=
  ⟨h.mod, h.dm, h.ch, h.wait, h.rsp, h.rspBefore, h.drawnBefore⟩

theorem withMod {c : PskCfg} (h : s.Inv) (hc : c.Legal s.params) : State.Inv { s with mod := some c } :=
  { h with mod := fun _ he => Option.some.inj he ▸ hc }

theorem withDm {c : PskCfg} (h : s.Inv) (hc : c.Legal s.params) : State.Inv { s with dm := some c } :=
  { h with dm := fun _ he => Option.some.inj he ▸ hc }

theorem withCh {c : ChCfg} (h : s.Inv) (hc : c.Legal) : State.Inv { s with ch := some c } :=
  { h with ch := fun _ he => Option.some.inj he ▸ hc }

theorem withWait {v : Option Wait} (h : s.Inv) (hv : ∀ w, v = some w → w.Legal) : State.Inv { s with wait := v } :=
  { h with wait := hv }

/-- Draws only add to the draw count, which the mark of the run stays below. -/
theorem withDraws (h : s.Inv) (gauss : List Answer) (m : Nat) :
    State.Inv { s with gauss := gauss, drawn := s.drawn + m } :=
  { h with drawnBefore := h.drawnBefore.trans (Nat.le_add_right _ _) }

theorem respond {e : Status} {out : List Item} (h : s.Inv) (ho : e ≠ .ok → out = []) : (s.respond e out).Inv where
  mod := h.mod
  dm := h.dm
  ch := h.ch
  wait := h.wait
  rsp r hr := by
    rcases List.mem_append.mp hr with hr | hr
    · exact h.rsp r hr
    · rw [List.mem_singleton.mp hr]
      exact ho
  rspBefore := by
    rw [State.respond_run, State.respond_rsp, List.length_append]
    exact h.rspBefore.trans (Nat.le_add_right _ _)
  drawnBefore := h.drawnBefore

theorem respond_ok (h : s.Inv) (out : List Item) : (s.respond .ok out).Inv := h.respond (absurd rfl)

theorem raise (h : s.Inv) (e : Status) : (s.raise e).Inv := h.respond fun _ => rfl

/-- A new run starts with nothing configured or in flight, and its mark is the present. -/
theorem startRun (h : s.Inv) (cut : Bool) : (s.startRun cut).Inv where
  mod := nofun
  dm := nofun
  ch := nofun
  wait := nofun
  rsp := h.rsp
  rspBefore := le_rfl
  drawnBefore := le_rfl

/-- An `AWGN` with a legal channel, finite symbols and finite draws that is left in flight is left with the
finite draws it took as well, and still lacks some. -/
theorem runAwgn {w : Wait} (h : s.Inv) (hc : w.cfg.Legal) (hy : finitePayload w.syms = true)
    (hz : ∀ z ∈ w.zs, isFinite z = true) : (s.runAwgn w).Inv := by
  rcases runAwgn_cases s w with
    ⟨zs, rest, -, -, -, he⟩ | ⟨zs, a, rest, -, -, -, -, he⟩ | ⟨zs, -, hl, hf, he⟩
  · rw [he]
    exact (h.withDraws rest _).respond_ok _
  · rw [he]
    exact (h.withDraws rest _).raise _
  · have hlegal : Wait.Legal { w with zs := w.zs ++ zs } :=
      { cfg := hc
        syms := hy
        zs := fun z hm => (List.mem_append.mp hm).elim (hz z) (hf z)
        lacking := by
          rw [List.length_append]
          exact Nat.add_lt_of_lt_sub' hl }
    rw [he]
    exact (h.withDraws [] _).withWait fun _ hw => Option.some.inj hw ▸ hlegal

theorem exec (h : s.Inv) (he : Machine.exec i s = .next t) : t.Inv := by
  cases exec_ends he with
  | modcfg order phase => exact (h.withMod (pskCfg_legal (legalPsk_of_modcfg_ok he rfl))).respond_ok []
  | dmcfg order phase => exact (h.withDm (pskCfg_legal (legalPsk_of_dmcfg_ok he rfl))).respond_ok []
  | chcfg snr sp => exact (h.withCh (legal_of_chcfg_ok he rfl)).respond_ok []
  | output i out _ => exact h.respond_ok out
  | error i e _ => exact h.raise e
  | channel n syms cfg hc hn hf => exact h.runAwgn (h.ch cfg hc) hf nofun

theorem step (h : s.Inv) (hs : Machine.step s = .next t) : t.Inv := by
  cases step_steps hs with
  | idle hw hi => exact h
  | command c i rest t hw hi hd he => exact (h.withInput rest).exec he
  | malformed c e rest hw hi hd => exact (h.withInput rest).raise _
  | reset rest hi => exact (h.withInput rest).startRun _
  | abandon c answered rest hw hi => exact ((h.withInput rest).withDraws _ _).startRun true
  | resume w hw hi =>
    obtain ⟨hcfg, hsyms, hzs, -⟩ := h.wait w hw
    exact (h.withWait (v := none) nofun).runAwgn hcfg hsyms hzs

end State.Inv

end

/-- Settles O31 by `State.Inv.atReset`. -/
theorem resetHasInvariant : Obligations.ResetHasInvariant := State.Inv.atReset

/-- Settles O30: by cases over what a step can do, each of which is made of operations that keep the
invariant. -/
theorem stepKeepsInvariant : Obligations.StepKeepsInvariant := fun _ _ => State.Inv.step

end Sys2Proof.Machine
end

section
/-! The ports (`20_memory.md` R42, R45): the two things a step can do while an `AWGN` waits for a draw, and the
byte order, which no step reads. -/

namespace Sys2Proof.Machine

variable {s : State} {w : Wait}

/-! ## A step while an `AWGN` waits -/

/-- Between commands and while an `AWGN` waits alike (R160, R161). -/
theorem step_of_rst {rest : List Input} (hi : s.input = .rst :: rest) :
    step s = .next (State.resetBlock { s with input := rest }) := by
  cases hw : s.wait <;> simp only [step, stepWaiting, stepReady, hw, hi]

/-- With no reset next the waiting `AWGN` asks the source again, whatever stands on `CMD` (R45, R167). -/
theorem step_of_waiting (hw : s.wait = some w) (hi : ∀ rest, s.input ≠ .rst :: rest) :
    step s = .next (State.runAwgn { s with wait := none } w) := by
  simp only [step, hw]
  unfold stepWaiting
  split
  next rest h => exact absurd h (hi rest)
  next => rfl

/-- Settles O6: a reset that is the next event is taken and ends the wait; otherwise the `AWGN` goes on, and it
takes no event (`runAwgn_input`). -/
theorem waitingTakesNoCommand : Obligations.WaitingTakesNoCommand := by
  intro s t w hw h
  by_cases hi : ∃ rest, s.input = .rst :: rest
  · obtain ⟨rest, hi⟩ := hi
    rw [step_of_rst hi] at h
    cases h
    exact .inr ⟨hi, rfl, rfl⟩
  · rw [step_of_waiting hw (not_exists.mp hi)] at h
    cases h
    exact .inl (runAwgn_input _ _)

/-- Settles O50: the step is `runAwgn` on the draws held (`step_of_waiting`), and the answers decide which of its
three ends is met. -/
theorem waitingAwgnResumes : Obligations.WaitingAwgnResumes := by
  intro s w zs rest hw hi hf hg
  rw [step_of_waiting hw hi]
  refine ⟨fun hl => ?complete, fun a after hl hr ha => ?failing, fun hl hr => ?lacking⟩
  case complete =>
    have hall : (w.zs ++ zs).length = 2 * w.syms.length := by rw [List.length_append, hl]
    rw [runAwgn_complete (s := { s with wait := none }) hg (Nat.eq_sub_of_add_eq' hl) hf, addNoise_eq_range _ _ _ hall, List.map_map]
    rfl
  case failing =>
    subst hr
    rw [runAwgn_failed (s := { s with wait := none }) hg (Nat.lt_sub_iff_add_lt'.mpr hl) hf ha]
    rfl
  case lacking =>
    rw [hr, List.append_nil] at hg
    rw [runAwgn_unanswered (s := { s with wait := none }) hg (Nat.lt_sub_iff_add_lt'.mpr hl) hf]

/-! ## The slot of a symbol -/

theorem symbolSlot_re (a : Sym) : (symbolSlot a).extractLsb' 64 64 = a.re :=
  BitVec.extractLsb'_append_eq_left

theorem symbolSlot_im (a : Sym) : (symbolSlot a).extractLsb' 0 64 = a.im :=
  BitVec.extractLsb'_append_eq_right

theorem slotSymbol_symbolSlot (a : Sym) : slotSymbol (symbolSlot a) = a := by
  rw [slotSymbol, symbolSlot_re, symbolSlot_im]

theorem symbolSlot_slotSymbol (v : BitVec 128) : symbolSlot (slotSymbol v) = v :=
  BitVec.extractLsb'_append_extractLsb'

/-! ## The byte order -/

section
variable (s : State) (o : ByteOrder)

/-- The operand checks read `KMAX` only. -/
theorem legalPsk_withByteOrder (order : Nat) (phase : F64) :
    legalPsk (s.withByteOrder o).params order phase = legalPsk s.params order phase := rfl

theorem runAwgn_withByteOrder (w : Wait) : (s.withByteOrder o).runAwgn w = (s.runAwgn w).withByteOrder o := by
  unfold State.runAwgn
  dsimp only [State.withByteOrder_gauss]
  split <;> rfl

theorem exec_withByteOrder (i : Instr) : exec i (s.withByteOrder o) = mapNext (·.withByteOrder o) (exec i s) := by
  cases i with
  | modcfg order phase =>
    simp only [exec, execModcfg]
    rw [legalPsk_withByteOrder]
    split <;> rfl
  | dmcfg order phase =>
    simp only [exec, execDmcfg]
    rw [legalPsk_withByteOrder]
    split <;> rfl
  | chcfg snr sp =>
    simp only [exec, execChcfg]
    split <;> rfl
  | modulate n bits =>
    simp only [exec, execModulate, State.withByteOrder_mod]
    split
    · rfl
    · split <;> rfl
  | awgn n syms =>
    simp only [exec, execAwgn, State.withByteOrder_ch, runAwgn_withByteOrder]
    split
    · rfl
    · split <;> rfl
  | demodulate n syms =>
    simp only [exec, execDemodulate, State.withByteOrder_dm]
    split
    · rfl
    · split <;> rfl

theorem runPacket_withByteOrder (c : Cmd) :
    runPacket c (s.withByteOrder o) = mapNext (·.withByteOrder o) (runPacket c s) := by
  unfold runPacket
  split
  · exact exec_withByteOrder s o _
  · rfl

theorem stepReady_withByteOrder : stepReady (s.withByteOrder o) = mapNext (·.withByteOrder o) (stepReady s) := by
  simp only [stepReady, State.withByteOrder_input]
  split
  next => rfl
  next c rest _ => exact runPacket_withByteOrder { s with input := rest } o c
  next => rfl
  next => rfl

theorem stepWaiting_withByteOrder (w : Wait) :
    stepWaiting w (s.withByteOrder o) = mapNext (·.withByteOrder o) (stepWaiting w s) := by
  simp only [stepWaiting, State.withByteOrder_input]
  split
  · rfl
  · exact congrArg Host.Outcome.next (runAwgn_withByteOrder { s with wait := none } o w)

theorem step_withByteOrder : step (s.withByteOrder o) = mapNext (·.withByteOrder o) (step s) := by
  simp only [step, State.withByteOrder_wait]
  split
  · exact stepWaiting_withByteOrder s o _
  · exact stepReady_withByteOrder s o

end

/-- Settles O32: `symbolSlot` and `slotSymbol` are inverse to each other, and each branch of a step reads and
writes alike for every byte order. -/
theorem byteOrderIsInert : Obligations.ByteOrderIsInert :=
  ⟨fun a => ⟨symbolSlot_re a, symbolSlot_im a, slotSymbol_symbolSlot a⟩, symbolSlot_slotSymbol, step_withByteOrder⟩

end Sys2Proof.Machine
end

section
/-! Decoding (`30_encoding.md` R51 to R64): what each arm of the decoder accepts, then one equivalence for the
whole table, `decode_eq_ok_iff`, from which both round trips and the reading of the fields follow. -/

namespace Sys2Proof

open Laws.Header (code arg Statement)

/-! ## The header word -/

theorem argument_lt (h : Word32) : argument h < 2 ^ 24 := (h.extractLsb' 8 24).isLt

/-- The opcode and the argument are the low byte and the rest of the header (R51). -/
theorem toNat_eq_iff_fields (h : Word32) {opc n : Nat} (hopc : opc < 256) :
    h.toNat = opc + 256 * n ↔ opcode h = opc ∧ argument h = n := by
  rw [opcode_eq, argument_eq]
  omega

/-- A header is known from its two fields (R51). -/
theorem header_ext {h h' : Word32} (hopc : opcode h = opcode h') (harg : argument h = argument h') : h = h' := by
  rw [opcode_eq, opcode_eq] at hopc
  rw [argument_eq, argument_eq] at harg
  exact BitVec.eq_of_toNat_eq (by omega)

/-- In a `CHCFG` header the argument is `P` when the reserved bits above it are clear (R54). -/
theorem argument_eq_iff_power (h : Word32) (b : Bool) :
    argument h = b.toNat ↔ reservedBits h = 0 ∧ powerPresent h = b := by
  rw [argument_eq, reservedBits_eq, powerPresent_eq]
  cases b
  · rw [decide_eq_false_iff_not, Bool.toNat_false]
    omega
  · rw [decide_eq_true_iff, Bool.toNat_true]
    omega

/-! ## The arms of the decoder -/

section
variable {c : Cmd} {i : Instr}

theorem decodePsk_eq_ok_iff {mk : Nat → F64 → Instr} :
    decodePsk mk c = .ok i ↔ ∃ phase, c.ops = [phase] ∧ c.pay = [] ∧ mk (argument c.hdr) phase = i := by
  unfold decodePsk
  split
  next phase hops => by_cases hp : c.pay = [] <;> simp [hops, hp]
  next hops => simpa using fun phase h => absurd h (hops phase)

theorem decodeBitCommand_eq_ok_iff {mk : Nat → List Bit → Instr} :
    decodeBitCommand mk c = .ok i ↔
      ∃ bits, c.ops = [] ∧ c.pay = bits.map Item.bit ∧ mk (argument c.hdr) bits = i := by
  simp only [decodeBitCommand, List.isEmpty_iff, ← payloadBits_eq_some_iff]
  by_cases hops : c.ops = []
  · cases payloadBits c.pay <;> simp [hops]
  · simp [hops]

theorem decodeSymCommand_eq_ok_iff {mk : Nat → List Sym → Instr} :
    decodeSymCommand mk c = .ok i ↔
      ∃ syms, c.ops = [] ∧ c.pay = syms.map Item.sym ∧ mk (argument c.hdr) syms = i := by
  simp only [decodeSymCommand, List.isEmpty_iff, ← payloadSyms_eq_some_iff]
  by_cases hops : c.ops = []
  · cases payloadSyms c.pay <;> simp [hops]
  · simp [hops]

theorem decodeChannel_eq_ok_iff :
    decodeChannel c = .ok i ↔ c.pay = [] ∧
      ((∃ snr, argument c.hdr = 0 ∧ c.ops = [snr] ∧ .chcfg snr none = i) ∨
        ∃ snr sp, argument c.hdr = 1 ∧ c.ops = [snr, sp] ∧ .chcfg snr (some sp) = i) := by
  have h0 := argument_eq_iff_power c.hdr false
  have h1 := argument_eq_iff_power c.hdr true
  rw [Bool.toNat_false] at h0
  rw [Bool.toNat_true] at h1
  simp only [h0, h1]
  unfold decodeChannel
  split
  next hr => simp [hr]
  next hr =>
    rw [not_not] at hr
    split
    next snr hp hops => by_cases hpay : c.pay = [] <;> simp [hr, hp, hops, hpay]
    next snr sp hp hops => by_cases hpay : c.pay = [] <;> simp [hr, hp, hops, hpay]
    next hnone hsome =>
      refine ⟨nofun, ?_⟩
      rintro ⟨-, ⟨snr, ⟨-, hp⟩, hops, -⟩ | ⟨snr, sp, ⟨-, hp⟩, hops, -⟩⟩
      · exact (hnone snr hp hops).elim
      · exact (hsome snr sp hp hops).elim

/-! ## The whole table -/

theorem arg_lt_iff_wf (i : Instr) : arg i < 2 ^ 24 ↔ i.wf = true := by
  cases i with
  | chcfg snr sp => cases sp <;> simp [arg, Instr.wf]
  | _ => simp [arg, Instr.wf, fitsArg]

/-- A packet decodes to a command exactly when it has the command's opcode, argument, operand words and
payload (R51 to R57). -/
theorem decode_eq_ok_iff :
    decode c = .ok i ↔
      (opcode c.hdr = code i ∧ argument c.hdr = arg i) ∧ c.ops = (encode i).ops ∧ c.pay = (encode i).pay := by
  constructor
  · intro h
    unfold decode at h
    split at h
    next hopc =>
      obtain ⟨phase, hops, hpay, rfl⟩ := decodePsk_eq_ok_iff.mp h
      exact ⟨⟨hopc, rfl⟩, hops, hpay⟩
    next hopc =>
      obtain ⟨bits, hops, hpay, rfl⟩ := decodeBitCommand_eq_ok_iff.mp h
      exact ⟨⟨hopc, rfl⟩, hops, hpay⟩
    next hopc =>
      obtain ⟨hpay, ⟨snr, harg, hops, rfl⟩ | ⟨snr, sp, harg, hops, rfl⟩⟩ := decodeChannel_eq_ok_iff.mp h
      · exact ⟨⟨hopc, harg⟩, hops, hpay⟩
      · exact ⟨⟨hopc, harg⟩, hops, hpay⟩
    next hopc =>
      obtain ⟨syms, hops, hpay, rfl⟩ := decodeSymCommand_eq_ok_iff.mp h
      exact ⟨⟨hopc, rfl⟩, hops, hpay⟩
    next hopc =>
      obtain ⟨phase, hops, hpay, rfl⟩ := decodePsk_eq_ok_iff.mp h
      exact ⟨⟨hopc, rfl⟩, hops, hpay⟩
    next hopc =>
      obtain ⟨syms, hops, hpay, rfl⟩ := decodeSymCommand_eq_ok_iff.mp h
      exact ⟨⟨hopc, rfl⟩, hops, hpay⟩
    next => cases h
  · rintro ⟨⟨hopc, harg⟩, hops, hpay⟩
    unfold decode
    rw [hopc]
    cases i with
    | modcfg order phase => exact decodePsk_eq_ok_iff.mpr ⟨phase, hops, hpay, by rw [harg]; rfl⟩
    | modulate count bits => exact decodeBitCommand_eq_ok_iff.mpr ⟨bits, hops, hpay, by rw [harg]; rfl⟩
    | chcfg snr sp =>
      cases sp with
      | none => exact decodeChannel_eq_ok_iff.mpr ⟨hpay, .inl ⟨snr, harg, hops, rfl⟩⟩
      | some sp => exact decodeChannel_eq_ok_iff.mpr ⟨hpay, .inr ⟨snr, sp, harg, hops, rfl⟩⟩
    | awgn count syms => exact decodeSymCommand_eq_ok_iff.mpr ⟨syms, hops, hpay, by rw [harg]; rfl⟩
    | dmcfg order phase => exact decodePsk_eq_ok_iff.mpr ⟨phase, hops, hpay, by rw [harg]; rfl⟩
    | demodulate count syms => exact decodeSymCommand_eq_ok_iff.mpr ⟨syms, hops, hpay, by rw [harg]; rfl⟩

/-- The same with the header read as a number. -/
theorem decode_eq_ok_iff_toNat :
    decode c = .ok i ↔
      c.hdr.toNat = code i + 256 * arg i ∧ c.ops = (encode i).ops ∧ c.pay = (encode i).pay := by
  have hcode : code i < 256 := by cases i <;> simp [code]
  rw [decode_eq_ok_iff, toNat_eq_iff_fields _ hcode]

end

/-- The header of an encoding holds the command's opcode and argument (R51). -/
theorem encode_fields {i : Instr} (h : i.wf = true) :
    opcode (encode i).hdr = code i ∧ argument (encode i).hdr = arg i := by
  have statement : Statement i := by
    cases i with
    | modcfg order phase => exact Laws.Header.modcfg order phase
    | modulate count bits => exact Laws.Header.modulate count bits
    | chcfg snr sp => exact Laws.Header.chcfg snr sp
    | awgn count syms => exact Laws.Header.awgn count syms
    | dmcfg order phase => exact Laws.Header.dmcfg order phase
    | demodulate count syms => exact Laws.Header.demodulate count syms
  obtain ⟨hopc, harg, -⟩ := statement h
  exact ⟨hopc, harg⟩

/-- Settles O12: an encoding has its command's fields (`encode_fields`), so it decodes to that command. -/
theorem decodeOfEncode : Obligations.DecodeOfEncode := fun _ h =>
  decode_eq_ok_iff.mpr ⟨encode_fields h, rfl, rfl⟩

/-- Settles O11: the decoder is total, and each form is `decode_eq_ok_iff_toNat` at that command. -/
theorem decodeReadsFields : Obligations.DecodeReadsFields := by
  refine ⟨fun c => ?total, fun _ _ _ => decode_eq_ok_iff_toNat, fun _ _ _ => decode_eq_ok_iff_toNat,
    fun _ _ => decode_eq_ok_iff_toNat, fun _ _ _ => decode_eq_ok_iff_toNat, fun _ _ _ => decode_eq_ok_iff_toNat,
    fun _ _ _ => decode_eq_ok_iff_toNat, fun _ _ _ => decode_eq_ok_iff_toNat⟩
  cases h : decode c with
  | ok i => exact .inl ⟨i, rfl⟩
  | error e => exact .inr ⟨e, rfl⟩

/-- Settles O13: a decoded argument fits its field, so the command has an encoding, and that has the packet's
own header fields, operand words and payload. -/
theorem encodeOfDecode : Obligations.EncodeOfDecode := by
  intro c i h
  obtain ⟨⟨hopc, harg⟩, hops, hpay⟩ := decode_eq_ok_iff.mp h
  have hwf : i.wf = true := (arg_lt_iff_wf i).mp (harg ▸ argument_lt c.hdr)
  obtain ⟨hopc', harg'⟩ := encode_fields hwf
  have hhdr : (encode i).hdr = c.hdr := header_ext (hopc'.trans hopc.symm) (harg'.trans harg.symm)
  refine ⟨?_, hwf⟩
  cases c
  cases hops
  cases hpay
  cases hhdr
  rfl

end Sys2Proof
end

section
/-! Responses (`30_encoding.md` R62 to R64, R69; `70_reset_and_hazards.md` R160, R161, R167, R169): a step on a
packet, the one response of a command, and what is observed of the run when it comes. -/

namespace Sys2Proof.Machine

section
variable {i : Instr} {s t : State} {c : Cmd} {rest : List Input}

/-! ## A step on a packet -/

theorem step_of_cmd (hw : s.wait = none) (hi : s.input = .cmd c :: rest) :
    step s = runPacket c { s with input := rest } := by
  simp only [step, stepReady, hw, hi]

theorem runPacket_of_ok (hd : decode c = .ok i) : runPacket c s = exec i s := by
  rw [runPacket, hd]

theorem runPacket_of_error {e : DecodeError} (hd : decode c = .error e) :
    runPacket c s = .next (s.raise .illegalCommand) := by
  rw [runPacket, hd]

theorem step_of_rstDuring {answered : Nat} (hw : s.wait = none) (hi : s.input = .rstDuring c answered :: rest) :
    step s = .next (abandon c answered { s with input := rest }) := by
  simp only [step, stepReady, hw, hi]

/-! ## Every command answers a next state -/

theorem exec_next (i : Instr) (s : State) : ∃ t, exec i s = .next t := by
  cases i with
  | modcfg order phase => simp only [exec, execModcfg]; split <;> exact ⟨_, rfl⟩
  | dmcfg order phase => simp only [exec, execDmcfg]; split <;> exact ⟨_, rfl⟩
  | chcfg snr sp => simp only [exec, execChcfg]; split <;> exact ⟨_, rfl⟩
  | modulate n bits =>
    simp only [exec, execModulate]
    split
    · exact ⟨_, rfl⟩
    · split <;> exact ⟨_, rfl⟩
  | awgn n syms =>
    simp only [exec, execAwgn]
    split
    · exact ⟨_, rfl⟩
    · split <;> exact ⟨_, rfl⟩
  | demodulate n syms =>
    simp only [exec, execDemodulate]
    split
    · exact ⟨_, rfl⟩
    · split <;> exact ⟨_, rfl⟩

theorem runPacket_next (c : Cmd) (s : State) : ∃ t, runPacket c s = .next t := by
  cases hd : decode c with
  | ok i => rw [runPacket_of_ok hd]; exact exec_next i s
  | error e => exact ⟨_, runPacket_of_error hd⟩

theorem step_next (s : State) : ∃ t, step s = .next t := by
  unfold step
  split
  next w hw => unfold stepWaiting; split <;> exact ⟨_, rfl⟩
  next hw =>
    unfold stepReady
    split
    next => exact ⟨_, rfl⟩
    next c rest hi => exact runPacket_next c _
    next => exact ⟨_, rfl⟩
    next => exact ⟨_, rfl⟩

/-! ## The one response of a command -/

/-- From `s` to `t` a command has its one response, which has output only if it is `OK`, and is no longer in
flight (R63). -/
def Answered (s t : State) : Prop :=
  t.wait = none ∧ ∃ r : Rsp, t.rsp = s.rsp ++ [r] ∧ (r.status ≠ .ok → r.out = [])

theorem raise_answered (hw : s.wait = none) (e : Status) : Answered s (s.raise e) :=
  ⟨hw, ⟨e, []⟩, rfl, fun _ => rfl⟩

/-- An `AWGN` in flight is answered, or it waits on and has no response yet (R167). -/
theorem runAwgn_answered_or_waits {w : Wait} (hw : s.wait = none) :
    Answered s (s.runAwgn w) ∨ ((s.runAwgn w).wait ≠ none ∧ (s.runAwgn w).rsp = s.rsp) := by
  rcases runAwgn_cases s w with ⟨zs, rest, -, -, -, he⟩ | ⟨zs, a, rest, -, -, -, -, he⟩ | ⟨zs, -, -, -, he⟩
  · rw [he]
    exact .inl ⟨hw, ⟨.ok, _⟩, rfl, absurd rfl⟩
  · rw [he]
    exact .inl ⟨hw, ⟨.randomSource, []⟩, rfl, fun _ => rfl⟩
  · rw [he]
    exact .inr ⟨nofun, rfl⟩

theorem exec_answered_or_waits (hw : s.wait = none) (h : exec i s = .next t) :
    Answered s t ∨ (t.wait ≠ none ∧ t.rsp = s.rsp ∧ ∃ n syms, i = .awgn n syms) := by
  cases exec_ends h with
  | error i e he => exact .inl (raise_answered hw e)
  | channel n syms cfg hc hn hf =>
    exact (runAwgn_answered_or_waits hw).imp_right fun ⟨hwait, hrsp⟩ => ⟨hwait, hrsp, n, syms, rfl⟩
  | _ => exact .inl ⟨hw, ⟨.ok, _⟩, rfl, absurd rfl⟩

theorem statusWord_toNat (e : Status) : (statusWord e).toNat = (statusCode e).toNat := by
  rw [statusWord, BitVec.toNat_append]
  simp

/-! ## The run in progress -/

theorem runAwgn_drawn_le (s : State) (w : Wait) : s.drawn ≤ (s.runAwgn w).drawn := by
  obtain ⟨m, r, v, he, -⟩ := runAwgn_changes s w
  rw [he]
  exact Nat.le_add_right _ _

/-- A step that emits a response answers the command it ran, in the run in progress. -/
theorem step_emits (h : step s = .next t) (hne : t.rsp ≠ s.rsp) :
    Answered s t ∧ t.run = s.run ∧ s.drawn ≤ t.drawn := by
  cases step_steps h with
  | idle hw hi => exact absurd rfl hne
  | reset rest hi => exact absurd rfl hne
  | abandon c answered rest hw hi => exact absurd rfl hne
  | malformed c e rest hw hi hd => exact ⟨⟨hw, ⟨.illegalCommand, []⟩, rfl, fun _ => rfl⟩, rfl, le_rfl⟩
  | command c i rest t hw hi hd he =>
    have hanswered := (exec_answered_or_waits (s := { s with input := rest }) hw he).resolve_right
      fun ⟨_, hrsp, _⟩ => hne hrsp
    obtain ⟨m, -, hdrawn, -⟩ := exec_draws he
    have hrun := exec_run he
    exact ⟨hanswered, hrun, hdrawn ▸ Nat.le_add_right _ _⟩
  | resume w hw hi =>
    have hanswered := (runAwgn_answered_or_waits (s := { s with wait := none }) (w := w) rfl).resolve_right
      fun ⟨_, hrsp⟩ => hne hrsp
    exact ⟨hanswered, runAwgn_run _ _, runAwgn_drawn_le { s with wait := none } w⟩

theorem commandNext_eq_false_iff (input : List Input) :
    commandNext input = false ↔ input = [] ∨ ∃ rest, input = .rst :: rest := by
  unfold commandNext
  split <;> simp

theorem ended_iff (s : State) :
    s.ended = true ↔ (s.input = [] ∨ ∃ rest, s.input = .rst :: rest) ∧ s.lastUnanswered = false := by
  rw [← commandNext_eq_false_iff]
  simp [State.ended]

theorem lastUnanswered_of_wait (hw : s.wait ≠ none) : s.lastUnanswered = true := by
  simp [State.lastUnanswered, Option.isSome_iff_ne_none.mpr hw]

/-- The mark of a reset that took a response shows until the next response. -/
theorem lastUnanswered_startRun (s : State) (cut : Bool) : (s.startRun cut).lastUnanswered = cut := by
  simp [State.lastUnanswered]

/-- A response after the start of the run answers the last command sent. -/
theorem lastUnanswered_of_lt (hw : s.wait = none) (hlt : s.run.rspBefore < s.rsp.length) :
    s.lastUnanswered = false := by
  simp [State.lastUnanswered, hw, hlt.ne']

theorem observe_startRun (s : State) (cut : Bool) : (s.startRun cut).observe = ⟨[], 0, none, none, none⟩ := by
  simp [State.observe]

end

/-- Settles O5: the packet is taken (`step_of_cmd`) and decodes. -/
theorem stepRunsTheDecodedCommand : Obligations.StepRunsTheDecodedCommand := fun _ _ _ _ hw hi hd =>
  (step_of_cmd hw hi).trans (runPacket_of_ok hd)

/-- Settles O9: the packet is taken and raises `ILLEGAL_COMMAND`; the state it leaves is one that takes the next
packet. -/
theorem illegalCommandWritesNothing : Obligations.IllegalCommandWritesNothing := by
  intro s c rest e hw hi hd
  refine ⟨(step_of_cmd hw hi).trans (runPacket_of_error hd), fun c' rest' i hrest hd' => ?_⟩
  exact (step_of_cmd (s := { s with input := rest, rsp := _ }) hw hrest).trans (runPacket_of_ok hd')

/-- Settles O28: every branch of every command and of a step answers a next state. -/
theorem nothingStopsTheBlock : Obligations.NothingStopsTheBlock := ⟨exec_next, step_next⟩

/-- Settles O20: a packet that does not decode is answered, and one that does runs a command, which is answered
unless it is an `AWGN` that waits (`exec_answered_or_waits`). -/
theorem oneResponsePerCommand : Obligations.OneResponsePerCommand := by
  intro s t c rest hw hi h
  have answered {u : State} (ha : Answered { s with input := rest } u) : u.wait = none ∧ ∃ r : Rsp,
      u.rsp = s.rsp ++ [r] ∧ (r.status ≠ .ok → r.out = []) ∧
        (statusWord r.status).toNat = (statusCode r.status).toNat := by
    obtain ⟨hwait, r, hrsp, hout⟩ := ha
    exact ⟨hwait, r, hrsp, hout, statusWord_toNat _⟩
  rw [step_of_cmd hw hi] at h
  cases hd : decode c with
  | error e =>
    rw [runPacket_of_error hd] at h
    cases h
    exact ⟨rfl, .inl (answered (raise_answered hw _))⟩
  | ok i =>
    rw [runPacket_of_ok hd] at h
    refine ⟨exec_input h, (exec_answered_or_waits (s := { s with input := rest }) hw h).imp answered ?_⟩
    rintro ⟨hwait, hrsp, n, syms, rfl⟩
    exact ⟨hwait, hrsp, n, syms, rfl⟩

/-- Settles O41: a reset is `startRun`, whose mark is `lastUnanswered` between commands and while an `AWGN`
waits, and true while a command executes; a step that emits a response is `step_emits`. -/
theorem runEndsWithItsLastResponse : Obligations.RunEndsWithItsLastResponse := by
  refine ⟨rfl, fun s hs => ?notEnded, fun s t rest hi h => ?reset, fun s t c answered rest hw hi h => ?abandoned,
    fun s t hinv h hne => ?emitted⟩
  case notEnded =>
    rw [← Bool.not_eq_true, ended_iff]
    rintro ⟨hnext, hlast⟩
    rcases hs with hw | ⟨c, rest, hi⟩ | ⟨c, answered, rest, hi⟩
    · rw [lastUnanswered_of_wait hw] at hlast
      cases hlast
    · simp [hi] at hnext
    · simp [hi] at hnext
  case reset =>
    rw [step_of_rst hi] at h
    cases h
    refine ⟨observe_startRun _ _, ?_⟩
    have hsame : State.lastUnanswered { s with input := rest } = s.lastUnanswered := rfl
    rw [ended_iff, ended_iff, State.resetBlock, lastUnanswered_startRun, hsame, hi]
    simp [and_comm]
  case abandoned =>
    rw [step_of_rstDuring hw hi] at h
    cases h
    refine ⟨observe_startRun _ _, ?_⟩
    rw [← Bool.not_eq_true, ended_iff, abandon, lastUnanswered_startRun]
    simp
  case emitted =>
    obtain ⟨⟨hwait, r, hrsp, -⟩, hrun, hdrawn⟩ := step_emits h hne
    have hlast : t.lastUnanswered = false :=
      lastUnanswered_of_lt hwait (by simpa [hrun, hrsp] using Nat.lt_succ_of_le hinv.rspBefore)
    refine ⟨r, hrsp, ?_, ?_, by rw [ended_iff, hlast, and_iff_left rfl]⟩
    · simp only [State.observe, hrun, hrsp]
      exact List.drop_append_of_le_length hinv.rspBefore
    · have hmark := hinv.drawnBefore
      simp only [State.observe, hrun]
      omega

end Sys2Proof.Machine
end

section
/-! Operand words and literals (`00_scope.md` R8; `30_encoding.md` R56, R65): the real of a word from its
fields, and the values of the literals. -/

namespace Sys2Proof.Machine

/-! ## The fields of a word -/

theorem isFinite_iff_exponentField (x : F64) : isFinite x = true ↔ exponentField x ≠ 2047 := bne_iff_ne

/-- The magnitude as a real, from the exponent and the significand (R8). -/
theorem magnitude_div (x : F64) :
    (magnitude x : ℝ) / 2 ^ 1074 =
      if exponentField x = 0 then (fractionField x : ℝ) * (2 : ℝ) ^ (-1074 : ℤ)
      else (2 ^ 52 + (fractionField x : ℝ)) * (2 : ℝ) ^ ((exponentField x : ℤ) - 1075) := by
  rw [magnitude]
  split
  next => rw [zpow_neg, div_eq_mul_inv]; rfl
  next hne =>
    obtain ⟨e, he⟩ := Nat.exists_eq_succ_of_ne_zero hne
    have hexp : ((e.succ : ℕ) : ℤ) - 1075 = (e : ℤ) - (1074 : ℕ) := by push_cast; ring
    rw [he, Nat.succ_sub_one, hexp, zpow_sub₀ two_ne_zero, zpow_natCast, zpow_natCast]
    push_cast
    ring

/-- Settles O15: the exact value is the magnitude with the sign of bit 63, and `magnitude_div` gives that as a
real. -/
theorem operandWordsAreBinary64 : Obligations.OperandWordsAreBinary64 := by
  intro x
  refine ⟨isFinite_iff_exponentField x, ?_⟩
  have h := magnitude_div x
  have hsign : realValue x = (if signBit x then -1 else 1) * ((magnitude x : ℝ) / 2 ^ 1074) := by
    unfold realValue exactValue
    split
    · push_cast; ring
    · push_cast; ring
  exact hsign.trans (congrArg _ h)

/-! ## The values of literals -/

/-- A literal with a sign has the rounding of its signed real: an unsigned one by itself, one with a minus if its
real is positive (R65; log entry 6). -/
theorem IsRN.signed {r : ℝ} {v : F64} {negative : Bool} (h : IsRN r v) (hs : signBit v = false)
    (hr : 0 < r ∨ negative = false) : IsRN ((if negative then -1 else 1) * r) (setSign negative v) := by
  cases negative
  · simpa using h
  · simpa using h.neg (hr.resolve_right nofun) hs

/-- The decimal literal `m · 10^e` is the rounding of one ratio of naturals (R65). -/
theorem decimal_value_eq (negative : Bool) (m : Nat) (e : Int) : ∃ num den : Nat, 0 < den ∧
    (m : ℝ) * (10 : ℝ) ^ e = (num : ℝ) / den ∧ (Literal.decimal negative m e).value =
      some (setSign negative (roundRatio num den)) := by
  cases e with
  | ofNat e => exact ⟨m * 10 ^ e, 1, one_pos, by simp, rfl⟩
  | negSucc e =>
    refine ⟨m, 10 ^ (e + 1), by positivity, ?_, rfl⟩
    rw [zpow_negSucc, div_eq_mul_inv]
    push_cast
    rfl

theorem decimal_isRN {negative : Bool} {m : Nat} (e : Int) (h : m ≠ 0 ∨ negative = false) :
    ∃ x, (Literal.decimal negative m e).value = some x ∧
      IsRN ((if negative then -1 else 1) * (m : ℝ) * (10 : ℝ) ^ e) x := by
  obtain ⟨num, den, hden, hreal, hvalue⟩ := decimal_value_eq negative m e
  refine ⟨_, hvalue, ?_⟩
  have hsign : signBit (roundRatio num den) = false := by
    rw [signBit_roundRatio _ _ hden]
    exact decide_eq_false (Int.natCast_nonneg num).not_gt
  have hrn : IsRN ((m : ℝ) * (10 : ℝ) ^ e) (roundRatio num den) := by
    rw [hreal]
    exact isRN_roundRatio num den hden
  rw [mul_assoc]
  exact hrn.signed hsign (h.imp_left fun hm => by positivity)

theorem piOver_isRN (negative : Bool) {q : Nat} (hq : 0 < q) (hlt : q < 2 ^ 24) :
    ∃ x, (Literal.piOver negative q).value = some x ∧ IsRN ((if negative then -1 else 1) * (Real.pi / q)) x := by
  obtain ⟨hrn, hsign⟩ := roundedPiOver_isRN hq
  refine ⟨setSign negative (roundedPiOver q), ?_, hrn.signed hsign (.inl ?_)⟩
  · rw [Literal.value, if_neg (by omega)]
  · exact div_pos Real.pi_pos (Nat.cast_pos.mpr hq)

/-! ## Reading digits -/

theorem digitValue_digitChar {d : Nat} (h : d < 16) : digitValue (Nat.digitChar d) = some d := by
  interval_cases d <;> rfl

theorem digitsFrom_digitChar {base : Nat} (hb : base ≤ 16) (ds : List Nat) (acc : Nat) (h : ∀ d ∈ ds, d < base) :
    digitsFrom base acc (ds.map Nat.digitChar) = some (acc * base ^ ds.length + Nat.ofDigits base ds.reverse) := by
  induction ds generalizing acc with
  | nil => simp [digitsFrom]
  | cons d ds ih =>
    obtain ⟨hd, hds⟩ := List.forall_mem_cons.mp h
    simp only [List.map_cons, digitsFrom, digitValue_digitChar (hd.trans_le hb), if_pos hd, ih _ hds]
    rw [List.reverse_cons, Nat.ofDigits_append, Nat.ofDigits_singleton, List.length_reverse, List.length_cons]
    congr 1
    ring

/-- Digits are read as the number they write, most significant first (R65). -/
theorem digits_digitChar {base : Nat} (hb : base ≤ 16) {ds : List Nat} (hne : ds ≠ []) (h : ∀ d ∈ ds, d < base) :
    digits base (ds.map Nat.digitChar) = some (Nat.ofDigits base ds.reverse) := by
  rw [digits, if_neg (by simpa using hne), digitsFrom_digitChar hb ds 0 h, Nat.zero_mul, Nat.zero_add]

/-- The characters that mark a literal's form are none of the decimal digits. -/
theorem digitChar_not_mark {d : Nat} (h : d < 10) :
    Nat.digitChar d ∉ ['x', 'f', 'e', 'E', '.', '-', '+', 'i', 'P'] := by
  interval_cases d <;> decide

/-- Without `0x` a `<uint>` is decimal (R65). -/
theorem parseUint_of_not_hex {cs : List Char} (h : ∀ rest, cs ≠ '0' :: 'x' :: rest) : parseUint cs = digits 10 cs := by
  unfold parseUint
  split
  next rest => exact absurd rfl (h rest)
  next => rfl

theorem parseUint_digitChar {ds : List Nat} (hne : ds ≠ []) (h : ∀ d ∈ ds, d < 10) :
    parseUint (ds.map Nat.digitChar) = some (Nat.ofDigits 10 ds.reverse) := by
  rw [parseUint_of_not_hex, digits_digitChar (by norm_num) hne h]
  intro rest heq
  have hx : 'x' ∈ ds.map Nat.digitChar := by simp [heq]
  obtain ⟨d, hd, hdx⟩ := List.mem_map.mp hx
  exact digitChar_not_mark (h d hd) (by simp [hdx])

theorem parseUint_hexDigits {ds : List Nat} (hne : ds ≠ []) (h : ∀ d ∈ ds, d < 16) :
    parseUint ("0x".toList ++ ds.map Nat.digitChar) = some (Nat.ofDigits 16 ds.reverse) :=
  digits_digitChar le_rfl hne h

theorem parseLiteral_raw (cs : List Char) : parseLiteral ("0f".toList ++ cs) =
    if cs.length = 16 then (digits 16 cs).map fun n => .raw (BitVec.ofNat 64 n) else none := rfl

/-! ## Reading decimal literals -/

theorem splitAtMark_of_not_mem {stop : Char → Bool} {cs : List Char} (h : ∀ c ∈ cs, stop c = false) :
    splitAtMark stop cs = (cs, none) := by
  induction cs with
  | nil => rfl
  | cons c cs ih =>
    obtain ⟨hc, hcs⟩ := List.forall_mem_cons.mp h
    simp [splitAtMark, hc, ih hcs]

theorem splitAtMark_append {stop : Char → Bool} {cs rest : List Char} {mark : Char} (h : ∀ c ∈ cs, stop c = false)
    (hm : stop mark = true) : splitAtMark stop (cs ++ mark :: rest) = (cs, some rest) := by
  induction cs with
  | nil => simp [splitAtMark, hm]
  | cons c cs ih =>
    obtain ⟨hc, hcs⟩ := List.forall_mem_cons.mp h
    simp [splitAtMark, hc, ih hcs]

/-- A literal that starts with a digit and is no raw one is a decimal literal. -/
theorem parseLiteral_of_digit {d : Nat} {cs : List Char} (hd : d < 10) (hf : 'f' ∉ cs) :
    parseLiteral (Nat.digitChar d :: cs) = parseDecimal false (Nat.digitChar d :: cs) := by
  rcases Nat.eq_zero_or_pos d with rfl | hpos
  · cases cs with
    | nil => rfl
    | cons c cs =>
      have hc : c ≠ 'f' := fun h => hf (h ▸ List.mem_cons_self)
      simp [parseLiteral, hc]
  · interval_cases d <;> rfl

theorem parseLiteral_minus_digit {d : Nat} (cs : List Char) (hd : d < 10) :
    parseLiteral ('-' :: Nat.digitChar d :: cs) = parseDecimal true (Nat.digitChar d :: cs) := by
  interval_cases d <;> rfl

/-- Decimal digits as text. -/
def digitText (ds : List Nat) : List Char := ds.map Nat.digitChar

/-- The number that decimal digits write. -/
def decimalNumber (ds : List Nat) : Nat := Nat.ofDigits 10 ds.reverse

section
variable {ds fs es : List Nat} (negative : Bool)

theorem not_mem_digitText (hds : ∀ d ∈ ds, d < 10) {c : Char}
    (hc : c ∈ ['x', 'f', 'e', 'E', '.', '-', '+', 'i', 'P']) : c ∉ digitText ds := by
  intro hmem
  obtain ⟨d, hd, rfl⟩ := List.mem_map.mp hmem
  exact digitChar_not_mark (hds d hd) hc

theorem digits_digitText (hne : ds ≠ []) (hds : ∀ d ∈ ds, d < 10) :
    digits 10 (digitText ds) = some (decimalNumber ds) := digits_digitChar (by norm_num) hne hds

/-- An exponent of digits, and one after a minus (log entry 6). -/
theorem parseExponent_digitText (hne : es ≠ []) (hes : ∀ d ∈ es, d < 10) :
    parseExponent (digitText es) = some (decimalNumber es : Int) ∧
      parseExponent ('-' :: digitText es) = some (-(decimalNumber es : Int)) := by
  have hd := digits_digitText hne hes
  constructor
  · unfold parseExponent
    split
    next heq => exact absurd (heq ▸ List.mem_cons_self) (not_mem_digitText hes (c := '-') (by simp))
    next heq => exact absurd (heq ▸ List.mem_cons_self) (not_mem_digitText hes (c := '+') (by simp))
    next => rw [hd]; rfl
  · rw [parseExponent, hd]
    rfl

theorem no_exponent_mark {cs : List Char} (he : 'e' ∉ cs) (hE : 'E' ∉ cs) :
    ∀ c ∈ cs, (c == 'e' || c == 'E') = false := by
  rintro c hc
  simp [ne_of_mem_of_not_mem hc he, ne_of_mem_of_not_mem hc hE]

theorem parseDecimal_digitText (hne : ds ≠ []) (hds : ∀ d ∈ ds, d < 10) :
    parseDecimal negative (digitText ds) = some (.decimal negative (decimalNumber ds) 0) := by
  have hexp := splitAtMark_of_not_mem
    (no_exponent_mark (not_mem_digitText hds (c := 'e') (by simp)) (not_mem_digitText hds (c := 'E') (by simp)))
  have hpoint : splitAtMark (· == '.') (digitText ds) = (digitText ds, none) :=
    splitAtMark_of_not_mem fun c hc => by
      simp [ne_of_mem_of_not_mem hc (not_mem_digitText hds (c := '.') (by simp))]
  simp [parseDecimal, hexp, hpoint, digits_digitText hne hds]

/-- Digits with a point among them. -/
def pointText (ds fs : List Nat) : List Char := digitText ds ++ '.' :: digitText fs

theorem not_mem_pointText (hds : ∀ d ∈ ds, d < 10) (hfs : ∀ d ∈ fs, d < 10) {c : Char}
    (hc : c ∈ ['x', 'f', 'e', 'E', '-', '+', 'i', 'P']) : c ∉ pointText ds fs := by
  have h : c ∈ ['x', 'f', 'e', 'E', '.', '-', '+', 'i', 'P'] := by simp at hc ⊢; tauto
  have hpoint : c ≠ '.' := by rintro rfl; simp at hc
  simp [pointText, not_mem_digitText hds h, not_mem_digitText hfs h, hpoint]

theorem splitAtMark_pointText (hds : ∀ d ∈ ds, d < 10) :
    splitAtMark (· == '.') (pointText ds fs) = (digitText ds, some (digitText fs)) :=
  splitAtMark_append (fun c hc => by
    simp [ne_of_mem_of_not_mem hc (not_mem_digitText hds (c := '.') (by simp))]) rfl

/-- The mantissa is what its digits write without the point, and the exponent is lowered by the digits after it. -/
theorem parseDecimal_pointText (hne : ds ≠ []) (hds : ∀ d ∈ ds, d < 10) (hfs : ∀ d ∈ fs, d < 10) :
    parseDecimal negative (pointText ds fs) = some (.decimal negative (decimalNumber (ds ++ fs)) (-fs.length)) ∧
    ∀ (cs : List Char) (e : Int), parseExponent cs = some e → parseDecimal negative (pointText ds fs ++ 'e' :: cs) =
      some (.decimal negative (decimalNumber (ds ++ fs)) (e - fs.length)) := by
  have hmark := no_exponent_mark (not_mem_pointText hds hfs (c := 'e') (by simp))
    (not_mem_pointText hds hfs (c := 'E') (by simp))
  have hm : digits 10 (digitText ds ++ digitText fs) = some (decimalNumber (ds ++ fs)) := by
    rw [digitText, digitText, ← List.map_append]
    exact digits_digitText (by simp [hne]) (List.forall_mem_append.mpr ⟨hds, hfs⟩)
  have hlen : (digitText fs).length = fs.length := List.length_map _
  constructor
  · simp [parseDecimal, splitAtMark_of_not_mem hmark, splitAtMark_pointText hds, hm, hlen]
  · intro cs e he
    have hexp := splitAtMark_append (rest := cs) (mark := 'e') hmark rfl
    simp [parseDecimal, hexp, splitAtMark_pointText hds, hm, hlen, he]

/-- A text that starts with digits and is no raw literal is a decimal literal. -/
theorem parseLiteral_digitText_append {cs : List Char} (hne : ds ≠ []) (hds : ∀ d ∈ ds, d < 10) (hf : 'f' ∉ cs) :
    parseLiteral (digitText ds ++ cs) = parseDecimal false (digitText ds ++ cs) := by
  have hmem : 'f' ∉ digitText ds := not_mem_digitText hds (by simp)
  obtain ⟨d, ds, rfl⟩ := List.exists_cons_of_ne_nil hne
  refine parseLiteral_of_digit (hds d List.mem_cons_self) ?_
  exact List.not_mem_append (List.not_mem_of_not_mem_cons hmem) hf

theorem parseLiteral_minus_digitText_append (cs : List Char) (hne : ds ≠ []) (hds : ∀ d ∈ ds, d < 10) :
    parseLiteral ('-' :: (digitText ds ++ cs)) = parseDecimal true (digitText ds ++ cs) := by
  obtain ⟨d, ds, rfl⟩ := List.exists_cons_of_ne_nil hne
  exact parseLiteral_minus_digit _ (hds d List.mem_cons_self)

theorem parseLiteral_digitText (hne : ds ≠ []) (hds : ∀ d ∈ ds, d < 10) :
    parseLiteral (digitText ds) = some (.decimal false (decimalNumber ds) 0) := by
  have h := parseLiteral_digitText_append (cs := []) hne hds List.not_mem_nil
  rw [List.append_nil] at h
  rw [h, parseDecimal_digitText false hne hds]

theorem parseLiteral_pointText (hne : ds ≠ []) (hds : ∀ d ∈ ds, d < 10) (hfs : ∀ d ∈ fs, d < 10) :
    parseLiteral (pointText ds fs) = some (.decimal false (decimalNumber (ds ++ fs)) (-fs.length)) ∧
      parseLiteral ('-' :: pointText ds fs) = some (.decimal true (decimalNumber (ds ++ fs)) (-fs.length)) := by
  have hf : 'f' ∉ '.' :: digitText fs := by simp [not_mem_digitText hfs]
  constructor
  · exact (parseLiteral_digitText_append hne hds hf).trans (parseDecimal_pointText false hne hds hfs).1
  · exact (parseLiteral_minus_digitText_append _ hne hds).trans (parseDecimal_pointText true hne hds hfs).1

theorem parseLiteral_exponentText {cs : List Char} {e : Int} (hne : ds ≠ []) (hds : ∀ d ∈ ds, d < 10)
    (hfs : ∀ d ∈ fs, d < 10) (hf : 'f' ∉ cs) (he : parseExponent cs = some e) :
    parseLiteral (pointText ds fs ++ 'e' :: cs) =
      some (.decimal false (decimalNumber (ds ++ fs)) (e - fs.length)) := by
  have hf' : 'f' ∉ '.' :: digitText fs ++ 'e' :: cs := by simp [not_mem_digitText hfs, hf]
  have h := parseLiteral_digitText_append hne hds hf'
  rw [← List.append_assoc] at h
  exact h.trans ((parseDecimal_pointText false hne hds hfs).2 cs e he)

end

/-- Settles O18: the values are roundings by `decimal_isRN` and `piOver_isRN`; digits are read by
`digits_digitChar` in every base, and a decimal literal is split at its exponent mark and its point. -/
theorem literalsAreRounded : Obligations.LiteralsAreRounded := by
  refine ⟨fun _ _ e h => decimal_isRN e h, fun negative _ hq hlt => piOver_isRN negative hq hlt, fun _ => rfl, rfl,
    by decide, fun _ => parseUint_digitChar, fun _ => parseUint_hexDigits, fun ds hlen h => ?raw,
    fun cs h => ?noRaw, rfl, rfl, fun _ => ⟨rfl, rfl⟩, fun ds fs es hne hnes h => ?decimal⟩
  case raw =>
    have hne : ds ≠ [] := by rintro rfl; cases hlen
    rw [parseLiteral_raw, List.length_map, if_pos hlen, digits_digitChar le_rfl hne h]
    rfl
  case noRaw => rw [parseLiteral_raw, if_neg h]
  case decimal =>
    simp only [List.forall_mem_append] at h
    obtain ⟨⟨hds, hfs⟩, hes⟩ := h
    obtain ⟨hpos, hneg⟩ := parseExponent_digitText hnes hes
    have hf : 'f' ∉ digitText es := not_mem_digitText hes (by simp)
    obtain ⟨hplain, hminus⟩ := parseLiteral_pointText hne hds hfs
    exact ⟨parseLiteral_digitText hne hds, hplain, hminus, parseLiteral_exponentText hne hds hfs hf hpos,
      parseLiteral_exponentText hne hds hfs (List.not_mem_cons_of_ne_of_not_mem (by decide) hf) hneg⟩

end Sys2Proof.Machine
end

section
/-! The assembler (`30_encoding.md` R65, R66): what a line assembles to, how text is cut into tokens, and how each
form of a line is read. -/

namespace Sys2Proof.Machine

/-! ## `LINKCFG` -/

/-- A `MODCFG` or `DMCFG` answers once: `OK`, with its operands in its unit's register, if they are legal. -/
theorem execModcfg_eq (order : Nat) (phase : F64) (s : State) :
    exec (.modcfg order phase) s = .next (if legalPsk s.params order phase then
      State.respond { s with mod := some (pskCfg order phase) } .ok [] else s.raise .invalidConfiguration) := by
  simp only [exec, execModcfg]
  split <;> rfl

theorem execDmcfg_eq (order : Nat) (phase : F64) (s : State) :
    exec (.dmcfg order phase) s = .next (if legalPsk s.params order phase then
      State.respond { s with dm := some (pskCfg order phase) } .ok [] else s.raise .invalidConfiguration) := by
  simp only [exec, execDmcfg]
  split <;> rfl

theorem assemble_modcfg {order : Nat} {phase : Literal} {x : F64} (hx : phase.value = some x) (ho : order < 2 ^ 24) :
    (AsmLine.modcfg order phase).assemble = some [encode (.modcfg order x)] := by
  have hwf : (Instr.modcfg order x).wf = true := fitsArg_of_lt ho
  simp [AsmLine.assemble, hx, encodeChecked_of_wf hwf]

theorem assemble_dmcfg {order : Nat} {phase : Literal} {x : F64} (hx : phase.value = some x) (ho : order < 2 ^ 24) :
    (AsmLine.dmcfg order phase).assemble = some [encode (.dmcfg order x)] := by
  have hwf : (Instr.dmcfg order x).wf = true := fitsArg_of_lt ho
  simp [AsmLine.assemble, hx, encodeChecked_of_wf hwf]

theorem assemble_linkcfg {order : Nat} {phase : Literal} {x : F64} (hx : phase.value = some x) (ho : order < 2 ^ 24) :
    (AsmLine.linkcfg order phase).assemble = some [encode (.modcfg order x), encode (.dmcfg order x)] := by
  have hmod : (Instr.modcfg order x).wf = true := fitsArg_of_lt ho
  have hdm : (Instr.dmcfg order x).wf = true := fitsArg_of_lt ho
  simp [AsmLine.assemble, hx, encodeChecked_of_wf hmod, encodeChecked_of_wf hdm]

/-- Settles O17: both commands check the same operands against the same parameters, so they answer alike, and if
the operands are legal both registers hold `pskCfg order x`. -/
theorem linkcfgExpands : Obligations.LinkcfgExpands := by
  intro order phase x hx ho
  refine ⟨assemble_modcfg hx ho, assemble_dmcfg hx ho, assemble_linkcfg hx ho, fun s t u hmod hdm => ?_⟩
  rw [execModcfg_eq] at hmod
  rw [execDmcfg_eq] at hdm
  cases hmod
  cases hdm
  cases hlegal : legalPsk s.params order x
  · exact ⟨⟨.invalidConfiguration, []⟩, ⟨.invalidConfiguration, []⟩, by simp [hlegal], nofun⟩
  · exact ⟨⟨.ok, []⟩, ⟨.ok, []⟩, by simp [hlegal], fun _ => by simp [hlegal]⟩

/-! ## What a line assembles to -/

theorem assemble_modulate (count : Option Nat) {bits : List Bit} (h : count.getD bits.length < 2 ^ 24) :
    (AsmLine.modulate count bits).assemble = some [encode (.modulate (count.getD bits.length) bits)] := by
  have hwf : (Instr.modulate (count.getD bits.length) bits).wf = true := fitsArg_of_lt h
  simp [AsmLine.assemble, encodeChecked_of_wf hwf]

theorem assemble_awgn (count : Option Nat) {syms : List (Literal × Literal)} {ss : List Sym}
    (hs : literalSyms syms = some ss) (h : count.getD ss.length < 2 ^ 24) :
    (AsmLine.awgn count syms).assemble = some [encode (.awgn (count.getD ss.length) ss)] := by
  have hwf : (Instr.awgn (count.getD ss.length) ss).wf = true := fitsArg_of_lt h
  simp [AsmLine.assemble, hs, encodeChecked_of_wf hwf]

theorem assemble_demodulate (count : Option Nat) {syms : List (Literal × Literal)} {ss : List Sym}
    (hs : literalSyms syms = some ss) (h : count.getD ss.length < 2 ^ 24) :
    (AsmLine.demodulate count syms).assemble = some [encode (.demodulate (count.getD ss.length) ss)] := by
  have hwf : (Instr.demodulate (count.getD ss.length) ss).wf = true := fitsArg_of_lt h
  simp [AsmLine.assemble, hs, encodeChecked_of_wf hwf]

theorem assemble_chcfg {snr : Literal} {x : F64} (hx : snr.value = some x) :
    (AsmLine.chcfg snr none).assemble = some [⟨0x00000003, [x], []⟩] := by
  have hc : encodeChecked (.chcfg x none) = some ⟨0x00000003, [x], []⟩ := encodeChecked_of_wf rfl
  simp [AsmLine.assemble, hx, hc]

theorem assemble_chcfg_power {snr sp : Literal} {x y : F64} (hx : snr.value = some x) (hy : sp.value = some y) :
    (AsmLine.chcfg snr (some sp)).assemble = some [⟨0x00000103, [x, y], []⟩] := by
  have hc : encodeChecked (.chcfg x (some y)) = some ⟨0x00000103, [x, y], []⟩ := encodeChecked_of_wf rfl
  simp [AsmLine.assemble, hx, hy, hc]

theorem encodeChecked_of_mem_singleton {i : Instr} {cs : List Cmd} {c : Cmd}
    (h : (encodeChecked i).bind (fun c => some [c]) = some cs) (hc : c ∈ cs) : encodeChecked i = some c := by
  obtain ⟨d, hd, hcs⟩ := Option.bind_eq_some_iff.mp h
  cases hcs
  exact List.mem_singleton.mp hc ▸ hd

/-- Every packet of a line has passed `encodeChecked`. -/
theorem assemble_encodes {l : AsmLine} {cs : List Cmd} (h : l.assemble = some cs) {c : Cmd} (hc : c ∈ cs) :
    ∃ i : Instr, encodeChecked i = some c := by
  cases l with
  | modulate count bits => exact ⟨_, encodeChecked_of_mem_singleton h hc⟩
  | chcfg snr sp =>
    cases sp with
    | none =>
      obtain ⟨x, -, h⟩ := Option.bind_eq_some_iff.mp h
      exact ⟨_, encodeChecked_of_mem_singleton h hc⟩
    | some sp =>
      obtain ⟨x, -, h⟩ := Option.bind_eq_some_iff.mp h
      obtain ⟨y, -, h⟩ := Option.bind_eq_some_iff.mp h
      exact ⟨_, encodeChecked_of_mem_singleton h hc⟩
  | linkcfg order phase =>
    obtain ⟨x, -, h⟩ := Option.bind_eq_some_iff.mp h
    obtain ⟨d, hd, h⟩ := Option.bind_eq_some_iff.mp h
    obtain ⟨e, he, hcs⟩ := Option.bind_eq_some_iff.mp h
    cases hcs
    rcases List.mem_pair.mp hc with rfl | rfl
    · exact ⟨_, hd⟩
    · exact ⟨_, he⟩
  | _ =>
    obtain ⟨x, -, h⟩ := Option.bind_eq_some_iff.mp h
    exact ⟨_, encodeChecked_of_mem_singleton h hc⟩

/-! ## Tokens -/

section
variable {p : List Char} (cs : List Char)

theorem flushWord_of_ne_nil {w : List Char} (h : w ≠ []) : flushWord w = [.word w] := by
  rw [flushWord, if_neg (by simpa using h)]

/-- A character of a word goes to the end of the word read so far. -/
theorem tokens_cons_plain {c : Char} (h : c ∉ [' ', '\t', ',', ':', '=', '(', ')']) (w cs : List Char) :
    tokens w (c :: cs) = tokens (w ++ [c]) cs := by
  simp only [List.mem_cons, List.not_mem_nil, or_false, not_or] at h
  simp [tokens, h]

theorem tokens_append_plain (h : ∀ c ∈ p, c ∉ [' ', '\t', ',', ':', '=', '(', ')']) (w : List Char) :
    tokens w (p ++ cs) = tokens (w ++ p) cs := by
  induction p generalizing w with
  | nil => simp
  | cons c p ih =>
    obtain ⟨hc, hp⟩ := List.forall_mem_cons.mp h
    rw [List.cons_append, tokens_cons_plain hc, ih hp, List.append_assoc, List.singleton_append]

/-- A word is read whole, whatever follows it (R65). -/
theorem tokens_word_append (hp : PlainWord p) : tokens [] (p ++ cs) = tokens p cs := tokens_append_plain cs hp.2 []

theorem tokens_word (hp : PlainWord p) : tokens [] p = [.word p] := by
  have h := tokens_word_append [] hp
  rw [List.append_nil] at h
  rw [h, tokens, flushWord_of_ne_nil hp.1]

theorem tokens_word_blank (hp : PlainWord p) : tokens [] (p ++ ' ' :: cs) = .word p :: tokens [] cs := by
  rw [tokens_word_append _ hp, tokens, if_pos (by decide), flushWord_of_ne_nil hp.1]
  rfl

theorem tokens_word_mark (hp : PlainWord p) {mark : Char} (hm : mark ∈ [',', ':', '=', '(', ')']) :
    tokens [] (p ++ mark :: cs) = .word p :: .mark mark :: tokens [] cs := by
  have hblank : ∀ c ∈ [',', ':', '=', '(', ')'], ¬ (c == ' ' || c == '\t') = true := by simp
  rw [tokens_word_append _ hp, tokens, if_neg (hblank mark hm), if_pos (List.contains_iff_mem.mpr hm),
    flushWord_of_ne_nil hp.1]
  rfl

end

/-- A payload of bits is a word for each bit, which ends any word before it (R65). -/
theorem tokens_bitText (w : List Char) (bits : List Bit) :
    tokens w (bitText bits) = flushWord w ++ bits.map fun b => .word [if b then '1' else '0'] := by
  induction bits generalizing w with
  | nil => simp [bitText, tokens]
  | cons b bits ih =>
    have hcons : bitText (b :: bits) = ' ' :: (if b then '1' else '0') :: bitText bits := rfl
    rw [hcons, tokens, if_pos (by decide), tokens_cons_plain (by cases b <;> decide), ih]
    rfl

/-- The tokens of one symbol, written `(re, im)` (R65). -/
def symbolTokens (w : List Char × List Char) : List Token :=
  [.mark '(', .word w.1, .mark ',', .word w.2, .mark ')']

theorem tokens_symbolText {words : List (List Char × List Char)} (h : ∀ w ∈ words, PlainWord w.1 ∧ PlainWord w.2) :
    tokens [] (symbolText words) = words.flatMap symbolTokens := by
  induction words with
  | nil => rfl
  | cons w words ih =>
    obtain ⟨⟨hre, him⟩, hwords⟩ := List.forall_mem_cons.mp h
    have hcons : symbolText (w :: words) =
        " (".toList ++ (w.1 ++ ',' :: ' ' :: (w.2 ++ ')' :: symbolText words)) := by
      simp [symbolText]
    have hopen (cs : List Char) : tokens [] (" (".toList ++ cs) = .mark '(' :: tokens [] cs := rfl
    have hblank (cs : List Char) : tokens [] (' ' :: cs) = tokens [] cs := rfl
    rw [hcons, hopen, tokens_word_mark _ hre (by simp), hblank, tokens_word_mark _ him (by simp), ih hwords]
    rfl

/-! ## Payloads -/

theorem parseBits_words (bits : List Bit) :
    parseBits (bits.map fun b => .word [if b then '1' else '0']) = some bits := by
  induction bits with
  | nil => rfl
  | cons b bits ih => cases b <;> simp [parseBits, ih]

/-- A symbol's two words as literals. -/
def parsePair (w : List Char × List Char) : Option (Literal × Literal) :=
  (parseLiteral w.1).bind fun x => (parseLiteral w.2).map fun y => (x, y)

theorem parseSyms_symbolTokens (words : List (List Char × List Char)) :
    parseSyms (words.flatMap symbolTokens) = words.mapM parsePair := by
  induction words with
  | nil => rfl
  | cons w words ih =>
    rw [List.flatMap_cons, List.mapM_cons, ← ih]
    simp [symbolTokens, parseSyms, parsePair, Option.map_eq_bind, Option.bind_assoc]

/-! ## Lines -/

section
variable {text : List Char} {ts : List Token}

theorem parseLine_modcfg (h : tokens [] text = .word "MODCFG".toList :: ts) :
    parseLine text = (parsePsk ts).map fun a => .modcfg a.1 a.2 := by rw [parseLine, h]; rfl

theorem parseLine_dmcfg (h : tokens [] text = .word "DMCFG".toList :: ts) :
    parseLine text = (parsePsk ts).map fun a => .dmcfg a.1 a.2 := by rw [parseLine, h]; rfl

theorem parseLine_linkcfg (h : tokens [] text = .word "LINKCFG".toList :: ts) :
    parseLine text = (parsePsk ts).map fun a => .linkcfg a.1 a.2 := by rw [parseLine, h]; rfl

theorem parseLine_chcfg (h : tokens [] text = .word "CHCFG".toList :: ts) : parseLine text = parseChannel ts := by
  rw [parseLine, h]; rfl

theorem parseLine_modulate (h : tokens [] text = .word "MODULATE".toList :: ts) :
    parseLine text = parseBitLine ts := by rw [parseLine, h]; rfl

theorem parseLine_awgn (h : tokens [] text = .word "AWGN".toList :: ts) :
    parseLine text = parseSymLine .awgn ts := by rw [parseLine, h]; rfl

theorem parseLine_demodulate (h : tokens [] text = .word "DEMODULATE".toList :: ts) :
    parseLine text = parseSymLine .demodulate ts := by rw [parseLine, h]; rfl

end

/-! ## Operands and counts -/

section
variable {m n p x y : List Char}

/-- The operands of a `MODCFG`, `DMCFG` or `LINKCFG` line (R65, R66). -/
def pskText (m p : List Char) : List Char := " M=".toList ++ m ++ ", PHASE=".toList ++ p

theorem parsePsk_pskText (hm : PlainWord m) (hp : PlainWord p) :
    parsePsk (tokens [] (pskText m p)) = (parseUint m).bind fun n => (parseLiteral p).map fun x => (n, x) := by
  have hM (cs : List Char) : tokens [] (" M=".toList ++ cs) = .word ['M'] :: .mark '=' :: tokens [] cs := rfl
  have hcomma : tokens [] (m ++ (", PHASE=".toList ++ p)) = .word m :: .mark ',' :: tokens [] (" PHASE=".toList ++ p) :=
    tokens_word_mark (mark := ',') _ hm (by simp)
  have hphase : tokens [] (" PHASE=".toList ++ p) = .word "PHASE".toList :: .mark '=' :: tokens [] p := rfl
  rw [pskText, List.append_assoc, List.append_assoc, hM, hcomma, hphase, tokens_word hp]
  simp [parsePsk, Option.map_eq_bind]

theorem parseChannel_snr (hx : PlainWord x) :
    parseChannel (tokens [] (" SNR=".toList ++ x)) = (parseLiteral x).map (.chcfg · none) := by
  have hsnr : tokens [] (" SNR=".toList ++ x) = .word "SNR".toList :: .mark '=' :: tokens [] x := rfl
  rw [hsnr, tokens_word hx]
  rfl

theorem parseChannel_snr_sp (hx : PlainWord x) (hy : PlainWord y) :
    parseChannel (tokens [] (" SNR=".toList ++ x ++ ", SP=".toList ++ y)) =
      (parseLiteral x).bind fun snr => (parseLiteral y).map fun sp => .chcfg snr (some sp) := by
  have hsnr (cs : List Char) : tokens [] (" SNR=".toList ++ cs) = .word "SNR".toList :: .mark '=' :: tokens [] cs := rfl
  have hcomma : tokens [] (x ++ (", SP=".toList ++ y)) = .word x :: .mark ',' :: tokens [] (" SP=".toList ++ y) :=
    tokens_word_mark (mark := ',') _ hx (by simp)
  have hsp : tokens [] (" SP=".toList ++ y) = .word "SP".toList :: .mark '=' :: tokens [] y := rfl
  rw [List.append_assoc, List.append_assoc, hsnr, hcomma, hsp, tokens_word hy]
  simp [parseChannel, Option.map_eq_bind]

/-- Without `N=` no count is written (R65). -/
theorem parseCounted_colon (payload : List Char) :
    parseCounted (tokens [] (" :".toList ++ payload)) = some (none, tokens [] payload) := rfl

theorem parseCounted_count (hn : PlainWord n) (payload : List Char) :
    parseCounted (tokens [] (" N=".toList ++ n ++ " :".toList ++ payload)) =
      (parseUint n).map fun k => (some k, tokens [] payload) := by
  have hN (cs : List Char) : tokens [] (" N=".toList ++ cs) = .word ['N'] :: .mark '=' :: tokens [] cs := rfl
  have hblank : tokens [] (n ++ (" :".toList ++ payload)) = .word n :: tokens [] (":".toList ++ payload) :=
    tokens_word_blank _ hn
  have hcolon : tokens [] (":".toList ++ payload) = .mark ':' :: tokens [] payload := rfl
  rw [List.append_assoc, List.append_assoc, hN, hblank, hcolon]
  rfl

end

/-! ## The forms of a line -/

/-- The three lines of a phase-shift-keying configuration (R65, R66). -/
theorem parseLine_pskText {m p : List Char} (hm : PlainWord m) (hp : PlainWord p) :
    let operands := (parseUint m).bind fun n => (parseLiteral p).map fun x => (n, x)
    parseLine ("MODCFG M=".toList ++ m ++ ", PHASE=".toList ++ p) = operands.map (fun a => .modcfg a.1 a.2) ∧
    parseLine ("DMCFG M=".toList ++ m ++ ", PHASE=".toList ++ p) = operands.map (fun a => .dmcfg a.1 a.2) ∧
    parseLine ("LINKCFG M=".toList ++ m ++ ", PHASE=".toList ++ p) = operands.map (fun a => .linkcfg a.1 a.2) := by
  simp only [← parsePsk_pskText hm hp]
  exact ⟨parseLine_modcfg rfl, parseLine_dmcfg rfl, parseLine_linkcfg rfl⟩

theorem parseLine_chcfgText {x y : List Char} (hx : PlainWord x) (hy : PlainWord y) :
    parseLine ("CHCFG SNR=".toList ++ x) = (parseLiteral x).map (.chcfg · none) ∧
    parseLine ("CHCFG SNR=".toList ++ x ++ ", SP=".toList ++ y) =
      (parseLiteral x).bind fun snr => (parseLiteral y).map fun sp => .chcfg snr (some sp) := by
  rw [← parseChannel_snr hx, ← parseChannel_snr_sp hx hy]
  exact ⟨parseLine_chcfg rfl, parseLine_chcfg rfl⟩

theorem parseLine_bitText (bits : List Bit) {n : List Char} (hn : PlainWord n) :
    parseLine ("MODULATE :".toList ++ bitText bits) = some (.modulate none bits) ∧
    parseLine ("MODULATE N=".toList ++ n ++ " :".toList ++ bitText bits) =
      (parseUint n).map fun k => .modulate (some k) bits := by
  have hpayload : parseBits (tokens [] (bitText bits)) = some bits := by
    rw [tokens_bitText]
    exact parseBits_words bits
  constructor
  · rw [parseLine_modulate (ts := tokens [] (" :".toList ++ bitText bits)) rfl, parseBitLine, parseCounted_colon]
    simp [hpayload]
  · rw [parseLine_modulate (ts := tokens [] (" N=".toList ++ n ++ " :".toList ++ bitText bits)) rfl, parseBitLine,
      parseCounted_count hn]
    simp [hpayload, Option.map_eq_bind, Option.bind_assoc]

/-- What a data command of symbols reads after its name (R65). -/
theorem parseSymLine_symbolText (mk : Option Nat → List (Literal × Literal) → AsmLine)
    {words : List (List Char × List Char)} {n : List Char} (hn : PlainWord n)
    (h : ∀ w ∈ words, PlainWord w.1 ∧ PlainWord w.2) :
    parseSymLine mk (tokens [] (" :".toList ++ symbolText words)) = (words.mapM parsePair).map (mk none) ∧
    parseSymLine mk (tokens [] (" N=".toList ++ n ++ " :".toList ++ symbolText words)) =
      (parseUint n).bind fun k => (words.mapM parsePair).map (mk (some k)) := by
  have hpayload : parseSyms (tokens [] (symbolText words)) = words.mapM parsePair := by
    rw [tokens_symbolText h, parseSyms_symbolTokens]
  constructor
  · rw [parseSymLine, parseCounted_colon]
    simp [hpayload, Option.map_eq_bind]
  · rw [parseSymLine, parseCounted_count hn]
    simp [hpayload, Option.map_eq_bind, Option.bind_assoc]

/-- Settles O16: a packet of a line has passed `encodeChecked` and decodes by `decodeOfEncode`; the counts and
the power are those of `assemble` on each line; a text is split at its marks by `tokens_word_mark` and its
payload by `tokens_bitText` and `tokens_symbolText`. -/
theorem assembledLinesDecode : Obligations.AssembledLinesDecode := by
  refine ⟨fun l cs h c hc => ?encodings, fun bits => ⟨assemble_modulate none, fun n => assemble_modulate (some n)⟩,
    fun syms ss hs => ⟨fun hlt => ⟨assemble_awgn none hs hlt, assemble_demodulate none hs hlt⟩,
      fun n hlt => ⟨assemble_awgn (some n) hs hlt, assemble_demodulate (some n) hs hlt⟩⟩,
    fun snr x hx => ⟨assemble_chcfg hx, fun sp y => assemble_chcfg_power hx⟩,
    fun m p => parseLine_pskText, fun x y => parseLine_chcfgText, fun bits n => parseLine_bitText bits,
    fun words n hn hwords => ?symbols⟩
  case encodings =>
    obtain ⟨i, hi⟩ := assemble_encodes h hc
    obtain ⟨hwf, rfl⟩ := encodeChecked_eq_some_iff.mp hi
    exact ⟨i, hwf, rfl, decodeOfEncode i hwf⟩
  case symbols =>
    obtain ⟨hawgn, hawgn'⟩ := parseSymLine_symbolText .awgn hn hwords
    obtain ⟨hdemod, hdemod'⟩ := parseSymLine_symbolText .demodulate hn hwords
    exact ⟨(parseLine_awgn rfl).trans hawgn, (parseLine_demodulate rfl).trans hdemod,
      (parseLine_awgn rfl).trans hawgn', (parseLine_demodulate rfl).trans hdemod'⟩

end Sys2Proof.Machine
end

section
/-! Point labels (`41_modulator.md` R82, R83): the Gray code and a table that `Labelling.wf` admits are
bijections of the indices below `2^k` onto the labels below `2^k`, with `indexOf` the inverse. -/

namespace Sys2Proof.Machine

/-! ## The Gray code -/

theorem gray_lt {j k : Nat} (hj : j < 2 ^ k) : gray j < 2 ^ k :=
  Nat.xor_lt_two_pow hj ((Nat.shiftRight_le j 1).trans_lt hj)

theorem gray_xor (a b : Nat) : gray (a ^^^ b) = gray a ^^^ gray b := by
  simp only [gray, Nat.shiftRight_xor_distrib]
  ac_rfl

/-- Of a run of ones at the low end, every bit but the highest cancels with the one above it. -/
theorem gray_two_pow_sub_one (t : Nat) : gray (2 ^ (t + 1) - 1) = 2 ^ t := by
  apply Nat.eq_of_testBit_eq
  intro i
  simp only [gray, Nat.testBit_xor, Nat.testBit_shiftRight, Nat.testBit_two_pow_sub_one, Nat.testBit_two_pow]
  rcases lt_trichotomy i t with hlt | rfl | hgt
  · simp [show i < t + 1 by omega, show 1 + i < t + 1 by omega, hlt.ne']
  · simp
  · simp [show ¬ i < t + 1 by omega, show ¬ 1 + i < t + 1 by omega, hgt.ne]

theorem grayInverse_lt {v k : Nat} (hv : v < 2 ^ k) (m : Nat) : grayInverse v m < 2 ^ k := by
  induction m with
  | zero => exact Nat.two_pow_pos k
  | succ m ih => exact Nat.xor_lt_two_pow ih ((Nat.shiftRight_le v m).trans_lt hv)

/-- The shifts of `gray j` cancel in pairs, and only the first and the last are left. -/
theorem grayInverse_gray (j m : Nat) : grayInverse (gray j) m = j ^^^ (j >>> m) := by
  induction m with
  | zero => simp [grayInverse]
  | succ m ih =>
    rw [grayInverse, ih, gray, Nat.shiftRight_xor_distrib, ← Nat.shiftRight_add, Nat.add_comm 1 m,
      Nat.xor_assoc, ← Nat.xor_assoc (j >>> m), Nat.xor_self, Nat.zero_xor]

theorem gray_grayInverse (v m : Nat) : gray (grayInverse v m) = v ^^^ (v >>> m) := by
  induction m with
  | zero => simp [grayInverse, gray]
  | succ m ih =>
    rw [grayInverse, gray_xor, ih, gray, ← Nat.shiftRight_add,
      Nat.xor_assoc, ← Nat.xor_assoc (v >>> m), Nat.xor_self, Nat.zero_xor]

theorem grayInverse_eq_foldl (v k : Nat) :
    grayInverse v k = (List.range k).foldl (fun a i => a ^^^ (v >>> i)) 0 := by
  induction k with
  | zero => rfl
  | succ k ih => rw [grayInverse, ih, List.range_succ, List.foldl_append, List.foldl_cons, List.foldl_nil]

theorem xor_shiftRight_of_lt {v k : Nat} (hv : v < 2 ^ k) : v ^^^ (v >>> k) = v := by
  rw [Nat.shiftRight_eq_zero v k hv, Nat.xor_zero]

/-- Counting up flips the ones at the low end and the zero above them. -/
theorem exists_xor_succ (j : Nat) : ∃ t, 2 ^ t ≤ j + 1 ∧ j ^^^ (j + 1) = 2 ^ (t + 1) - 1 := by
  induction j using Nat.binaryRec with
  | zero => exact ⟨0, le_rfl, rfl⟩
  | bit b m ih =>
    cases b with
    | false =>
      have hxor : 2 * m ^^^ (2 * m + 1) = 1 := by simpa using Nat.xor_bit false m true m
      exact ⟨0, Nat.succ_pos _, hxor⟩
    | true =>
      obtain ⟨t, hle, ht⟩ := ih
      have hxor : (2 * m + 1) ^^^ (2 * (m + 1)) = 2 * (m ^^^ (m + 1)) + 1 := by
        simpa using Nat.xor_bit true m false (m + 1)
      refine ⟨t + 1, ?_, ?_⟩
      · rw [Nat.bit_true_apply, pow_succ]
        omega
      · rw [Nat.bit_true_apply, show 2 * m + 1 + 1 = 2 * (m + 1) by ring, hxor, ht, pow_succ 2 (t + 1)]
        have hpos := Nat.two_pow_pos (t + 1)
        omega

/-- Neighbours on the circle differ by ones at the low end (R83). -/
theorem exists_xor_next {k j : Nat} (hk : 1 ≤ k) (hj : j < 2 ^ k) :
    ∃ t, t < k ∧ j ^^^ ((j + 1) % 2 ^ k) = 2 ^ (t + 1) - 1 := by
  rcases Nat.lt_or_ge (j + 1) (2 ^ k) with hlt | hge
  · obtain ⟨t, hle, ht⟩ := exists_xor_succ j
    exact ⟨t, (Nat.pow_lt_pow_iff_right one_lt_two).mp (hle.trans_lt hlt), by rw [Nat.mod_eq_of_lt hlt, ht]⟩
  · have hlast : j + 1 = 2 ^ k := le_antisymm hj hge
    exact ⟨k - 1, Nat.sub_lt hk one_pos, by
      rw [hlast, Nat.mod_self, Nat.xor_zero, Nat.sub_add_cancel hk]
      omega⟩

/-! ## A table of labels -/

/-- As many different values below `n` as there are: every one is among them. -/
theorem mem_of_nodup_of_lt {row : List Nat} {n v : Nat} (hlen : row.length = n) (hnodup : row.Nodup)
    (hlt : ∀ x ∈ row, x < n) (hv : v < n) : v ∈ row := by
  have hsub : row.Subperm (List.range n) := hnodup.subperm fun x hx => List.mem_range.mpr (hlt x hx)
  have hperm : row.Perm (List.range n) := hsub.perm_of_length_le (by rw [List.length_range, hlen])
  exact hperm.mem_iff.mpr (List.mem_range.mpr hv)

/-! ## Every labelling -/

section
variable {kmax k : Nat} {l : Labelling}

theorem labelOf_lt_and_indexOf_labelOf (hl : l.wf kmax) (h1 : 1 ≤ k) (h2 : k ≤ kmax) {j : Nat} (hj : j < 2 ^ k) :
    labelOf l k j < 2 ^ k ∧ indexOf l k (labelOf l k j) = j := by
  cases l with
  | gray => exact ⟨gray_lt hj, (grayInverse_gray j k).trans (xor_shiftRight_of_lt hj)⟩
  | table rows =>
    obtain ⟨hlen, hnodup, hlt⟩ := hl k h1 h2
    simp only [labelOf, indexOf, List.getD_eq_getElem _ 0 (hlen ▸ hj)]
    exact ⟨hlt _ (List.getElem_mem _), hnodup.idxOf_getElem j _⟩

theorem indexOf_lt_and_labelOf_indexOf (hl : l.wf kmax) (h1 : 1 ≤ k) (h2 : k ≤ kmax) {v : Nat} (hv : v < 2 ^ k) :
    indexOf l k v < 2 ^ k ∧ labelOf l k (indexOf l k v) = v := by
  cases l with
  | gray => exact ⟨grayInverse_lt hv k, (gray_grayInverse v k).trans (xor_shiftRight_of_lt hv)⟩
  | table rows =>
    obtain ⟨hlen, hnodup, hlt⟩ := hl k h1 h2
    have hindex := List.idxOf_lt_length_iff.mpr (mem_of_nodup_of_lt hlen hnodup hlt hv)
    simp only [labelOf, indexOf, List.getD_eq_getElem _ 0 hindex]
    exact ⟨hlen ▸ hindex, List.getElem_idxOf hindex⟩

end

/-- Settles O38: for the Gray code by its telescoping inverse, for a table by `mem_of_nodup_of_lt`. -/
theorem labelMapIsBijective : Obligations.LabelMapIsBijective := fun _ _ _ hl h1 h2 =>
  ⟨fun _ => labelOf_lt_and_indexOf_labelOf hl h1 h2, fun _ => indexOf_lt_and_labelOf_indexOf hl h1 h2⟩

/-- Settles O39: the Gray code turns the ones by which neighbours differ into a single one. -/
theorem defaultLabelsAreGray : Obligations.DefaultLabelsAreGray := by
  refine ⟨fun _ _ => rfl, fun k v => grayInverse_eq_foldl v k,
    fun k v hv => (gray_grayInverse v k).trans (xor_shiftRight_of_lt hv), by decide, by decide, by decide,
    fun k j hk hj => ?_⟩
  obtain ⟨t, htk, ht⟩ := exists_xor_next hk hj
  have hdiff : gray j ^^^ gray ((j + 1) % 2 ^ k) = 2 ^ t := by
    rw [← gray_xor, ht, gray_two_pow_sub_one]
  exact ⟨t, htk, hdiff⟩

end Sys2Proof.Machine
end

section
/-! The constellation table (`41_modulator.md` R80, R87): each coordinate is the one rounding of the exact one, so
it is within `2^-54` of it, and the table's laws follow from those of the exact points. -/

namespace Sys2Proof.Machine

/-! ## Rounding errors of reals of magnitude at most 1 -/

/-- Integers of at most 53 bits, scaled, are magnitudes of words: one with a bit to spare is doubled at half
the scale. -/
theorem exists_magnitude_eq {e : Nat} (he : e ≤ 2044) : ∀ {n : Nat}, n ≤ 2 ^ 53 →
    ∃ m, m < 2047 * 2 ^ 52 ∧ bitsMagnitude m = n * 2 ^ e := by
  induction e with
  | zero =>
    intro n hn
    exact ⟨_, by omega, bitsMagnitude_significand le_rfl hn (.inl rfl)⟩
  | succ e ih =>
    intro n hn
    rcases Nat.lt_or_ge n (2 ^ 52) with hsmall | hlarge
    · obtain ⟨m, hm, h⟩ := ih (by omega) (n := 2 * n) (by omega)
      exact ⟨m, hm, by rw [h, pow_succ]; ring⟩
    · exact ⟨_, by omega, bitsMagnitude_significand (d := e + 2) (by omega) hn (.inr hlarge)⟩

/-- Every multiple of `2^-53` of magnitude at most 1 is a word's real. -/
theorem exists_realValue_eq {z : ℤ} (hz : |z| ≤ 2 ^ 53) :
    ∃ u : F64, isFinite u = true ∧ realValue u = (z : ℝ) / 2 ^ 53 := by
  obtain ⟨m, hm, hmag⟩ := exists_magnitude_eq (e := 1021) (by norm_num) (n := z.natAbs) (by zify; exact hz)
  have hlt : m < 2 ^ 63 := hm.trans (by norm_num)
  refine ⟨withSign (decide (z < 0)) m, isFinite_withSign hm, ?_⟩
  have hunits : ((2 * (z.natAbs * 2 ^ 1021) : ℕ) : ℝ) = |(z : ℝ)| * 2 ^ 1022 := by
    rw [mul_left_comm, ← pow_succ', Nat.cast_mul, Nat.cast_natAbs, Nat.cast_pow, Int.cast_abs, Nat.cast_ofNat]
  have hsign : (if decide (z < 0) = true then -1 else 1) * |(z : ℝ)| = z := by
    rcases lt_or_ge z 0 with hneg | hpos
    · rw [if_pos (decide_eq_true hneg), abs_of_neg (Int.cast_lt_zero.mpr hneg), neg_one_mul, neg_neg]
    · rw [if_neg (by simpa using hpos), abs_of_nonneg (Int.cast_nonneg hpos), one_mul]
  rw [realValue_eq, signBit_withSign hlt, magnitude_withSign hlt, hmag, hunits, ← mul_assoc, hsign,
    show (2 : ℝ) ^ 1075 = 2 ^ 53 * 2 ^ 1022 by rw [← pow_add], mul_div_mul_right _ _ (by positivity)]

theorem abs_round_le (x : ℝ) : |(round x : ℝ)| ≤ |x| + 1 / 2 := by
  have htriangle := abs_sub_abs_le_abs_sub (round x : ℝ) x
  have hround := abs_sub_round x
  rw [abs_sub_comm] at hround
  linarith

/-- The nearest multiple of `2^-53` is within half of that. -/
theorem exists_near_word {r : ℝ} (hr : |r| ≤ 1) :
    ∃ u : F64, isFinite u = true ∧ |r - realValue u| ≤ (2 : ℝ)⁻¹ ^ 54 := by
  have hz : |round (r * 2 ^ 53)| ≤ 2 ^ 53 := by
    have hscaled : |r * 2 ^ 53| ≤ 2 ^ 53 := by
      rw [abs_mul, abs_of_pos (by positivity : (0 : ℝ) < 2 ^ 53)]
      exact mul_le_of_le_one_left (by positivity) hr
    have hlt : |(round (r * 2 ^ 53) : ℝ)| < 2 ^ 53 + 1 := by
      calc _ ≤ |r * 2 ^ 53| + 1 / 2 := abs_round_le _
        _ ≤ 2 ^ 53 + 1 / 2 := by gcongr
        _ < 2 ^ 53 + 1 := by norm_num
    exact Int.lt_add_one_iff.mp (by exact_mod_cast hlt)
  obtain ⟨u, hu, hvalue⟩ := exists_realValue_eq hz
  refine ⟨u, hu, ?_⟩
  rw [hvalue, show r - (round (r * 2 ^ 53) : ℝ) / 2 ^ 53 = (r * 2 ^ 53 - round (r * 2 ^ 53)) / 2 ^ 53 by ring,
    abs_div, abs_of_pos (by positivity : (0 : ℝ) < 2 ^ 53), div_le_iff₀ (by positivity)]
  exact (abs_sub_round _).trans (by norm_num)

theorem one_lt_overflowThreshold : 1 < overflowThreshold := by
  unfold overflowThreshold
  have hfactor : (2 : ℝ) ^ 1024 = 2 ^ 970 * 2 ^ 54 := by rw [← pow_add]
  have hone : (1 : ℝ) ≤ 2 ^ 970 := one_le_pow₀ one_le_two
  rw [hfactor]
  clear hfactor
  generalize (2 : ℝ) ^ 970 = K at *
  linarith

section
variable {r : ℝ} {v : F64}

theorem IsRN.isFinite_of_abs_le_one (h : IsRN r v) (hr : |r| ≤ 1) : isFinite v = true :=
  (h.nearest (hr.trans_lt one_lt_overflowThreshold)).1

theorem IsRN.abs_sub_le_of_abs_le_one (h : IsRN r v) (hr : |r| ≤ 1) : |r - realValue v| ≤ (2 : ℝ)⁻¹ ^ 54 := by
  obtain ⟨u, hu, hnear⟩ := exists_near_word hr
  exact ((h.nearest (hr.trans_lt one_lt_overflowThreshold)).2 u hu).trans hnear

end

/-! ## One point -/

/-- `a` is the rounding of the exact point at the angle `θ`. -/
structure RoundedPoint (θ : ℝ) (a : Sym) : Prop where
  re : IsRN (Real.cos θ) a.re
  im : IsRN (Real.sin θ) a.im

/-- `x² - y²` is the error times at most `2|x|` and the error. -/
theorem abs_sq_sub_sq_le {x y ε : ℝ} (h : |x - y| ≤ ε) : |y ^ 2 - x ^ 2| ≤ ε * (2 * |x| + ε) := by
  have hsum : |y + x| ≤ 2 * |x| + ε := by
    calc |y + x| = |2 * x - (x - y)| := by ring_nf
      _ ≤ |2 * x| + |x - y| := abs_sub _ _
      _ ≤ 2 * |x| + ε := by rw [abs_mul, abs_two]; linarith
  calc |y ^ 2 - x ^ 2| = |x - y| * |y + x| := by rw [abs_sub_comm x y, ← abs_mul]; ring_nf
    _ ≤ ε * (2 * |x| + ε) := mul_le_mul h hsum (abs_nonneg _) ((abs_nonneg _).trans h)

theorem abs_cos_add_abs_sin_le (θ : ℝ) : |Real.cos θ| + |Real.sin θ| ≤ 3 / 2 := by
  have hunit := Real.cos_sq_add_sin_sq θ
  rw [← sq_abs (Real.cos θ), ← sq_abs (Real.sin θ)] at hunit
  nlinarith [sq_nonneg (|Real.cos θ| - |Real.sin θ|)]

/-- The squared distance of two exact points, by their angle's half. -/
theorem cos_sub_sq_add_sin_sub_sq (θ φ : ℝ) : (Real.cos θ - Real.cos φ) ^ 2 + (Real.sin θ - Real.sin φ) ^ 2 =
    4 * Real.sin ((φ - θ) / 2) ^ 2 := by
  have hhalf : Real.cos (φ - θ) = 1 - 2 * Real.sin ((φ - θ) / 2) ^ 2 := by
    rw [← Real.cos_sq_add_sin_sq ((φ - θ) / 2)]
    conv_lhs => rw [show φ - θ = 2 * ((φ - θ) / 2) by ring, Real.cos_two_mul']
    ring
  have hsub := Real.cos_sub φ θ
  linarith [Real.cos_sq_add_sin_sq θ, Real.cos_sq_add_sin_sq φ]

namespace RoundedPoint
variable {θ φ : ℝ} {a b : Sym}

theorem finite (h : RoundedPoint θ a) : isFinite a.re = true ∧ isFinite a.im = true :=
  ⟨h.re.isFinite_of_abs_le_one (Real.abs_cos_le_one θ), h.im.isFinite_of_abs_le_one (Real.abs_sin_le_one θ)⟩

theorem re_error (h : RoundedPoint θ a) : |Real.cos θ - realValue a.re| ≤ (2 : ℝ)⁻¹ ^ 54 :=
  h.re.abs_sub_le_of_abs_le_one (Real.abs_cos_le_one θ)

theorem im_error (h : RoundedPoint θ a) : |Real.sin θ - realValue a.im| ≤ (2 : ℝ)⁻¹ ^ 54 :=
  h.im.abs_sub_le_of_abs_le_one (Real.abs_sin_le_one θ)

theorem abs_sq_add_sq_sub_one_le (h : RoundedPoint θ a) :
    |realValue a.re ^ 2 + realValue a.im ^ 2 - 1| ≤ (2 : ℝ)⁻¹ ^ 52 := by
  have hre := abs_sq_sub_sq_le h.re_error
  have him := abs_sq_sub_sq_le h.im_error
  have hsum := abs_cos_add_abs_sin_le θ
  rw [← Real.cos_sq_add_sin_sq θ]
  calc _ = |(realValue a.re ^ 2 - Real.cos θ ^ 2) + (realValue a.im ^ 2 - Real.sin θ ^ 2)| := by ring_nf
    _ ≤ _ := abs_add_le _ _
    _ ≤ (2 : ℝ)⁻¹ ^ 54 * (2 * (|Real.cos θ| + |Real.sin θ|) + 2 * (2 : ℝ)⁻¹ ^ 54) := by linarith
    _ ≤ (2 : ℝ)⁻¹ ^ 54 * 4 := by gcongr; norm_num; linarith
    _ = (2 : ℝ)⁻¹ ^ 52 := by norm_num

/-- Points that round alike are close before rounding. -/
theorem dist_sq_le_of_realValue_eq (ha : RoundedPoint θ a) (hb : RoundedPoint φ b)
    (hre : realValue a.re = realValue b.re) (him : realValue a.im = realValue b.im) :
    (Real.cos θ - Real.cos φ) ^ 2 + (Real.sin θ - Real.sin φ) ^ 2 ≤ 2 * ((2 : ℝ)⁻¹ ^ 53) ^ 2 := by
  have close {x y v : ℝ} (hx : |x - v| ≤ (2 : ℝ)⁻¹ ^ 54) (hy : |y - v| ≤ (2 : ℝ)⁻¹ ^ 54) :
      (x - y) ^ 2 ≤ ((2 : ℝ)⁻¹ ^ 53) ^ 2 := by
    rw [sq_le_sq, abs_of_pos (by positivity : (0 : ℝ) < (2 : ℝ)⁻¹ ^ 53)]
    calc |x - y| ≤ |x - v| + |y - v| := by rw [abs_sub_comm y v]; exact abs_sub_le x v y
      _ ≤ (2 : ℝ)⁻¹ ^ 54 + (2 : ℝ)⁻¹ ^ 54 := add_le_add hx hy
      _ = (2 : ℝ)⁻¹ ^ 53 := by norm_num
  have hcos := close ha.re_error (hre ▸ hb.re_error)
  have hsin := close ha.im_error (him ▸ hb.im_error)
  linarith

/-- Points further apart than their rounding errors stay apart. -/
theorem realDist2_pos (ha : RoundedPoint θ a) (hb : RoundedPoint φ b)
    (hfar : (2 : ℝ)⁻¹ ^ 22 ≤ Real.sin ((φ - θ) / 2)) : 0 < realDist2 a b := by
  by_contra hzero
  have hsum : (realValue a.re - realValue b.re) ^ 2 + (realValue a.im - realValue b.im) ^ 2 ≤ 0 := not_lt.mp hzero
  have hre : realValue a.re - realValue b.re = 0 := pow_eq_zero_iff two_ne_zero |>.mp (by nlinarith)
  have him : realValue a.im - realValue b.im = 0 := pow_eq_zero_iff two_ne_zero |>.mp (by nlinarith)
  have hclose := dist_sq_le_of_realValue_eq ha hb (sub_eq_zero.mp hre) (sub_eq_zero.mp him)
  rw [cos_sub_sq_add_sin_sub_sq] at hclose
  have hsq : ((2 : ℝ)⁻¹ ^ 22) ^ 2 ≤ Real.sin ((φ - θ) / 2) ^ 2 := pow_le_pow_left₀ (by positivity) hfar 2
  norm_num at hclose hsq
  linarith

end RoundedPoint

/-! ## The exact points -/

theorem pointAngle_succ_sub (phase : F64) (order j : Nat) :
    pointAngle phase order (j + 1) - pointAngle phase order j = 2 * Real.pi / order := by
  unfold pointAngle
  push_cast
  ring

/-- Half a table further stands the opposite point. -/
theorem pointAngle_half {m : Nat} (hm : m ≠ 0) (phase : F64) (j : Nat) :
    pointAngle phase (m + m) (m + j) = pointAngle phase (m + m) j + Real.pi := by
  have hm' : (m : ℝ) ≠ 0 := Nat.cast_ne_zero.mpr hm
  unfold pointAngle
  push_cast
  field_simp
  ring

/-- Below a half the sine lies above its chord; above it, by symmetry. -/
theorem two_div_le_sin {d n : Nat} (hd : 0 < d) (hdn : d < n) : 2 / (n : ℝ) ≤ Real.sin (Real.pi * d / n) := by
  have hn : (0 : ℝ) < n := Nat.cast_pos.mpr (hd.trans hdn)
  have chord {c : Nat} (hc : 1 ≤ c) (hcn : 2 * c ≤ n) : 2 / (n : ℝ) ≤ Real.sin (Real.pi * c / n) := by
    have hc' : (1 : ℝ) ≤ c := Nat.one_le_cast.mpr hc
    have hcn' : (2 : ℝ) * c ≤ n := by exact_mod_cast hcn
    have hle : Real.pi * c / n ≤ Real.pi / 2 := by
      rw [div_le_div_iff₀ hn two_pos]
      nlinarith [Real.pi_pos]
    calc 2 / (n : ℝ) ≤ 2 * c / n := by gcongr; linarith
      _ = 2 / Real.pi * (Real.pi * c / n) := by field_simp
      _ ≤ _ := Real.mul_le_sin (by positivity) hle
  rcases Nat.le_total (2 * d) n with hle | hge
  · exact chord hd hle
  · have hflip : Real.pi * d / n = Real.pi - Real.pi * (n - d : ℕ) / n := by
      rw [Nat.cast_sub hdn.le]
      field_simp
      ring
    rw [hflip, Real.sin_pi_sub]
    exact chord (by omega) (by omega)

/-! ## The points of a table -/

section
variable {p : Params} {order : Nat} {phase : F64}

theorem roundedPoint_point (ho : LegalOrder p order) (hp : isFinite phase = true) (j : Nat) :
    RoundedPoint (pointAngle phase order j) (point phase order order.log2 j) := by
  obtain ⟨k, -, -, rfl⟩ := ho
  obtain ⟨hre, him⟩ := point_isRN (k := k) (j := j) hp
  rw [Nat.log2_two_pow]
  exact ⟨hre, him⟩

theorem constellation_getElem?_eq_some_iff {j : Nat} {a : Sym} :
    (constellation order phase)[j]? = some a ↔ j < order ∧ point phase order order.log2 j = a := by
  simp [constellation, List.getElem?_eq_some_iff]

theorem mem_constellation_iff {a : Sym} :
    a ∈ constellation order phase ↔ ∃ j, j < order ∧ point phase order order.log2 j = a := by
  simp [constellation]

theorem map_constellation (f : Sym → ℝ) (order : Nat) (phase : F64) :
    (constellation order phase).map f = (List.range order).map fun j => f (point phase order order.log2 j) :=
  List.map_map

theorem exists_half (ho : LegalOrder p order) : ∃ m, m ≠ 0 ∧ order = m + m := by
  obtain ⟨k, h1, -, rfl⟩ := ho
  refine ⟨2 ^ (k - 1), (Nat.two_pow_pos _).ne', ?_⟩
  rw [← two_mul, ← pow_succ', Nat.sub_add_cancel h1]

theorem inv_two_pow_le_two_div (hw : p.wf) (ho : LegalOrder p order) : (2 : ℝ)⁻¹ ^ 22 ≤ 2 / order := by
  obtain ⟨-, hkmax, -⟩ := hw
  obtain ⟨k, -, hk, rfl⟩ := ho
  have hle : (2 : ℝ) ^ k ≤ 2 ^ 23 := pow_le_pow_right₀ one_le_two (hk.trans hkmax)
  rw [le_div_iff₀ (by positivity)]
  push_cast
  norm_num at hle ⊢
  linarith

end

/-! ## Sums over a table -/

/-- Terms that are opposite half a sequence apart cancel. -/
theorem sum_range_eq_zero_of_opposite {f : Nat → ℝ} {m : Nat} (h : ∀ j, f (m + j) = -f j) :
    ((List.range (m + m)).map f).sum = 0 := by
  rw [List.range_add, List.map_append, List.map_map, List.sum_append, ← List.sum_map_add]
  simp [h]

theorem abs_sum_sub_sum_le {f g : Nat → ℝ} {ε : ℝ} (h : ∀ j, |f j - g j| ≤ ε) (n : Nat) :
    |((List.range n).map f).sum - ((List.range n).map g).sum| ≤ n * ε := by
  induction n with
  | zero => simp
  | succ n ih =>
    rw [List.sum_range_succ, List.sum_range_succ, add_sub_add_comm, Nat.cast_succ, add_one_mul]
    exact (abs_add_le _ _).trans (add_le_add ih (h n))

/-- What sums to 0 before rounding sums to at most the rounding errors after it. -/
theorem abs_sum_rounded_le {f g : Nat → ℝ} {n : Nat} (h : ∀ j, |f j - g j| ≤ (2 : ℝ)⁻¹ ^ 54)
    (hsum : ((List.range n).map f).sum = 0) : |((List.range n).map g).sum| ≤ n * (2 : ℝ)⁻¹ ^ 53 := by
  have herror := abs_sum_sub_sum_le h n
  rw [hsum, zero_sub, abs_neg] at herror
  exact herror.trans (mul_le_mul_of_nonneg_left (by norm_num) n.cast_nonneg)

/-! ## The laws of the table -/

/-- Settles O40: each point of the table is a `RoundedPoint`. -/
theorem tableIsCorrectlyRounded : Obligations.TableIsCorrectlyRounded := by
  intro p order phase j ho hp hj
  obtain ⟨hre, him⟩ := roundedPoint_point ho hp j
  exact ⟨_, constellation_getElem?_eq_some_iff.mpr ⟨hj, rfl⟩, hre, him⟩

/-- Settles O42: the bound is that of one `RoundedPoint`. -/
theorem pointsHaveUnitMagnitude : Obligations.PointsHaveUnitMagnitude := by
  intro p order phase ho hp
  refine ⟨constellation_length order phase, pointAngle_succ_sub phase order, fun a ha => ?_⟩
  obtain ⟨j, -, rfl⟩ := mem_constellation_iff.mp ha
  have hpoint := roundedPoint_point ho hp j
  obtain ⟨hre, him⟩ := hpoint.finite
  exact ⟨hre, him, hpoint.abs_sq_add_sq_sub_one_le⟩

/-- Settles O43: opposite points cancel before rounding, and what is left after it are the rounding errors. -/
theorem pointsAreBalanced : Obligations.PointsAreBalanced := by
  intro p order phase ho hp
  have hpoint := roundedPoint_point ho hp
  obtain ⟨m, hm, rfl⟩ := exists_half ho
  have hcos : ((List.range (m + m)).map fun j => Real.cos (pointAngle phase (m + m) j)).sum = 0 :=
    sum_range_eq_zero_of_opposite fun j => by rw [pointAngle_half hm, Real.cos_add_pi]
  have hsin : ((List.range (m + m)).map fun j => Real.sin (pointAngle phase (m + m) j)).sum = 0 :=
    sum_range_eq_zero_of_opposite fun j => by rw [pointAngle_half hm, Real.sin_add_pi]
  refine ⟨hcos, hsin, ?_, ?_⟩
  · rw [map_constellation]
    exact abs_sum_rounded_le (fun j => (hpoint j).re_error) hcos
  · rw [map_constellation]
    exact abs_sum_rounded_le (fun j => (hpoint j).im_error) hsin

/-- Settles O44: half the angle between two points has a sine of at least `2/M`, which is at least `2^-22`. -/
theorem pointsAreDistinct : Obligations.PointsAreDistinct := by
  intro p order phase i j a b hw ho hp hij ha hb
  obtain ⟨-, rfl⟩ := constellation_getElem?_eq_some_iff.mp ha
  obtain ⟨hj, rfl⟩ := constellation_getElem?_eq_some_iff.mp hb
  have hhalf : (pointAngle phase order j - pointAngle phase order i) / 2 = Real.pi * (j - i : ℕ) / order := by
    unfold pointAngle
    rw [Nat.cast_sub hij.le]
    ring
  have hsin := two_div_le_sin (Nat.sub_pos_of_lt hij) ((Nat.sub_le j i).trans_lt hj)
  refine (roundedPoint_point ho hp i).realDist2_pos (roundedPoint_point ho hp j) ?_
  rw [hhalf]
  exact (inv_two_pow_le_two_div hw ho).trans hsin

end Sys2Proof.Machine
end

section
/-! The commands of the modulator (`41_modulator.md` R84 to R86): what `MODCFG` loads, and the message in the
labels of the points `MODULATE` answers with. -/

namespace Sys2Proof.Machine

/-! ## `MODCFG` -/

section
variable {s : State} {order : Nat} {phase : F64}

theorem exec_modcfg_of_legal (h : legalPsk s.params order phase = true) :
    exec (.modcfg order phase) s = .next (State.respond { s with mod := some (pskCfg order phase) } .ok []) :=
  if_pos h

theorem exec_modcfg_of_illegal (h : ¬ legalPsk s.params order phase = true) :
    exec (.modcfg order phase) s = .next (s.raise .invalidConfiguration) :=
  if_neg h

end

/-- A point depends on a zero phase not even by its sign. -/
theorem point_eq_of_isZero {x y : F64} (hx : isZero x = true) (hy : isZero y = true) (order k j : Nat) :
    point x order k j = point y order k j := by
  simp only [point, hx, hy, exactValue_of_isZero]

theorem constellation_eq_of_isZero {x y : F64} (hx : isZero x = true) (hy : isZero y = true) (order : Nat) :
    constellation order x = constellation order y :=
  List.map_congr_left fun j _ => point_eq_of_isZero hx hy order order.log2 j

/-- Settles O34: `legalPsk` decides between the two answers; a table reads of a zero phase only that it is one;
the two tables named are computed. -/
theorem modcfgConfigures : Obligations.ModcfgConfigures := by
  refine ⟨fun s order phase ho hp => exec_modcfg_of_legal ((legalPsk_iff _ _ _).mpr ⟨ho, hp⟩),
    fun s order phase hbad => exec_modcfg_of_illegal fun hlegal => ?_,
    constellation_eq_of_isZero (by decide) (by decide), by decide +kernel, by decide +kernel⟩
  obtain ⟨ho, hp⟩ := (legalPsk_iff _ _ _).mp hlegal
  rcases hbad with hno | hinf
  · exact hno ho
  · rw [hp] at hinf
    cases hinf

/-! ## The chunks of a message -/

section
variable {k count : Nat} {bits : List Bit}

theorem flatten_chunks (h : bits.length = count * k) : (chunks k count bits).flatten = bits := by
  induction count generalizing bits with
  | zero => exact (List.eq_nil_of_length_eq_zero (by simpa using h)).symm
  | succ count ih =>
    have hrest : (bits.drop k).length = count * k := by rw [List.length_drop, h, Nat.succ_mul, Nat.add_sub_cancel]
    rw [chunks, List.flatten_cons, ih hrest, List.take_append_drop]

theorem length_of_mem_chunks (h : bits.length = count * k) {c : List Bit} (hc : c ∈ chunks k count bits) :
    c.length = k := by
  rw [chunks_eq_range] at hc
  obtain ⟨j, hj, rfl⟩ := List.mem_map.mp hc
  have hfits : (j + 1) * k ≤ count * k := Nat.mul_le_mul_right k (List.mem_range.mp hj)
  rw [List.length_take, List.length_drop, h]
  rw [Nat.succ_mul] at hfits
  omega

theorem length_chunks (k count : Nat) (bits : List Bit) : (chunks k count bits).length = count := by
  rw [chunks_eq_range, List.length_map, List.length_range]

end

/-! ## `MODULATE` -/

/-- The table indices a message selects (R84). -/
def selectedIndices (l : Labelling) (k : Nat) (bits : List Bit) : List Nat :=
  (chunks k (bits.length / k) bits).map fun c => indexOf l k (valMsb c)

theorem modulateBits_eq_selectedIndices (l : Labelling) (cfg : PskCfg) (bits : List Bit) :
    modulateBits l cfg bits = (selectedIndices l cfg.order.log2 bits).map fun j => cfg.pts.getD j ⟨0, 0⟩ := by
  rw [selectedIndices, List.map_map]
  rfl

section
variable {l : Labelling} {kmax k : Nat} {bits : List Bit}

theorem length_selectedIndices (l : Labelling) (k : Nat) (bits : List Bit) :
    (selectedIndices l k bits).length = bits.length / k := by
  rw [selectedIndices, List.length_map, length_chunks]

theorem valMsb_lt_of_mem_chunks {count : Nat} (h : bits.length = count * k) {c : List Bit}
    (hc : c ∈ chunks k count bits) : valMsb c < 2 ^ k :=
  length_of_mem_chunks h hc ▸ valMsb_lt c

theorem selectedIndices_lt (hl : l.wf kmax) (h1 : 1 ≤ k) (h2 : k ≤ kmax) (hk : bits.length % k = 0) {j : Nat}
    (hj : j ∈ selectedIndices l k bits) : j < 2 ^ k := by
  obtain ⟨c, hc, rfl⟩ := List.mem_map.mp hj
  have hlen := (Nat.div_mul_cancel (Nat.dvd_of_mod_eq_zero hk)).symm
  exact (indexOf_lt_and_labelOf_indexOf hl h1 h2 (valMsb_lt_of_mem_chunks hlen hc)).1

/-- The label of a selected index is the value of its chunk, and the bits of that value are the chunk. -/
theorem flatMap_labels_selectedIndices (hl : l.wf kmax) (h1 : 1 ≤ k) (h2 : k ≤ kmax) (hk : bits.length % k = 0) :
    ((selectedIndices l k bits).flatMap fun j => bitsMsb (labelOf l k j) k) = bits := by
  have hlen := (Nat.div_mul_cancel (Nat.dvd_of_mod_eq_zero hk)).symm
  have hchunk : ∀ c ∈ chunks k (bits.length / k) bits, bitsMsb (labelOf l k (indexOf l k (valMsb c))) k = c := by
    intro c hc
    rw [(indexOf_lt_and_labelOf_indexOf hl h1 h2 (valMsb_lt_of_mem_chunks hlen hc)).2]
    conv_lhs => rw [← length_of_mem_chunks hlen hc]
    exact bitsMsb_valMsb c
  rw [selectedIndices, List.flatMap_map, List.flatMap_congr hchunk, List.flatMap_id', flatten_chunks hlen]

end

section
variable {s : State} {cfg : PskCfg} {n : Nat} {bits : List Bit}

theorem exec_modulate_of_valid (hm : s.mod = some cfg) (hn : bits.length = n) (hk : n % cfg.order.log2 = 0) :
    exec (.modulate n bits) s = .next (s.respond .ok ((modulateBits s.params.label cfg bits).map .sym)) := by
  simp only [exec, execModulate, hm]
  exact if_pos ⟨hn, hk⟩

theorem exec_modulate_of_invalid (hm : s.mod = some cfg) (h : bits.length ≠ n ∨ n % cfg.order.log2 ≠ 0) :
    exec (.modulate n bits) s = .next (s.raise .invalidInput) := by
  simp only [exec, execModulate, hm]
  exact if_neg fun ⟨hn, hk⟩ => h.elim (absurd hn) (absurd hk)

end

/-- Settles O35: the chunks of the message index by index (`chunks_eq_range`). -/
theorem modulateMapsChunks : Obligations.ModulateMapsChunks := by
  refine fun s n bits => ⟨fun hm => exec_unconfigured hm, fun cfg hm => ⟨exec_modulate_of_invalid hm, ?_⟩⟩
  rintro rfl hk
  rw [exec_modulate_of_valid hm rfl hk, modulateBits, chunks_eq_range, List.map_map, List.map_map]
  rfl

/-- Settles O36: the indices are `selectedIndices`. -/
theorem modulateEmitsTablePoints : Obligations.ModulateEmitsTablePoints := by
  rintro s cfg bits ⟨-, -, hl⟩ hm ⟨⟨k, h1, h2, horder⟩, -, htable⟩ hk
  have hlog : cfg.order.log2 = k := by rw [horder, Nat.log2_two_pow]
  have hpts : cfg.pts.length = 2 ^ k := by rw [htable, constellation_length, horder]
  have hexec := exec_modulate_of_valid hm rfl hk
  rw [modulateBits_eq_selectedIndices, List.map_map] at hexec
  rw [hlog] at hk hexec ⊢
  exact ⟨selectedIndices s.params.label k bits, fun _ hj => hpts ▸ selectedIndices_lt hl h1 h2 hk hj,
    length_selectedIndices _ _ _, flatMap_labels_selectedIndices hl h1 h2 hk, hexec⟩

end Sys2Proof.Machine
end

section
/-! The commands of the channel (`42_channel.md` R102, R104, R106): what `CHCFG` loads, what an `AWGN` checks, and
what it answers when the source has its draws. -/

namespace Sys2Proof.Machine

/-! ## `CHCFG` -/

section
variable {s : State} {snr : F64} {sp : Option F64}

theorem exec_chcfg_of_legal (h : legalChannel snr (powerOperand sp) = true) :
    exec (.chcfg snr sp) s = .next (State.respond { s with ch := some ⟨snr, powerOperand sp⟩ } .ok []) :=
  if_pos h

theorem exec_chcfg_of_illegal (h : ¬ legalChannel snr (powerOperand sp) = true) :
    exec (.chcfg snr sp) s = .next (s.raise .invalidConfiguration) :=
  if_neg h

end

theorem positive_of_isPositive {x : F64} (h : isPositive x = true) : Positive x :=
  (isPositive_iff x).mp h

theorem not_positive_of_isPositive {x : F64} (h : isPositive x = false) : ¬ Positive x := fun hx =>
  Bool.false_ne_true (h.symm.trans ((isPositive_iff x).mpr hx))

theorem realValue_oneF64 : realValue oneF64 = 1 := by
  have hexact : exactValue oneF64 = pow2 1074 := by decide +kernel
  rw [realValue, hexact, pow2, Nat.cast_pow, Int.cast_pow, Nat.cast_ofNat, Int.cast_ofNat]
  exact div_self (by positivity)

/-- Settles O45: `legalChannel` decides between the two answers, and says what the rule asks
(`legalChannel_iff`). -/
theorem chcfgConfigures : Obligations.ChcfgConfigures :=
  ⟨fun _ _ _ hsnr hfinite hsp => exec_chcfg_of_legal ((legalChannel_iff _ _).mpr ⟨hsnr, hfinite, hsp⟩),
    fun _ _ _ hbad => exec_chcfg_of_illegal fun hlegal => hbad ((legalChannel_iff _ _).mp hlegal),
    rfl, realValue_oneF64, .inl rfl, positive_of_isPositive (by decide), not_positive_of_isPositive (by decide),
    not_positive_of_isPositive (by decide), not_positive_of_isPositive (by decide),
    not_positive_of_isPositive (by decide)⟩

/-! ## `AWGN` -/

section
variable {s : State} {cfg : ChCfg} {n : Nat} {syms : List Sym}

theorem exec_awgn_of_valid (hc : s.ch = some cfg) (hn : syms.length = n) (hf : FiniteSyms syms) :
    exec (.awgn n syms) s = .next (s.runAwgn ⟨cfg, syms, []⟩) := by
  simp only [exec, execAwgn, hc]
  exact if_pos ⟨hn, (finitePayload_iff syms).mpr hf⟩

theorem exec_awgn_of_invalid (hc : s.ch ≠ none) (h : syms.length ≠ n ∨ ¬ FiniteSyms syms) :
    exec (.awgn n syms) s = .next (s.raise .invalidInput) := by
  obtain ⟨cfg, hc⟩ := Option.ne_none_iff_exists'.mp hc
  simp only [exec, execAwgn, hc]
  exact if_neg fun ⟨hn, hf⟩ => h.elim (absurd hn) (absurd ((finitePayload_iff syms).mp hf))

end

/-- Settles O46: past its checks the command is `runAwgn` with no draw held, the draws it meets complete it
(`runAwgn_complete`), and symbol `i` takes draws `2i` and `2i + 1` (`addNoise_eq_range`). -/
theorem awgnAddsNoise : Obligations.AwgnAddsNoise := by
  rintro s cfg n syms zs rest hc rfl hf hg hl hz
  rw [exec_awgn_of_valid hc rfl hf, runAwgn_complete (w := ⟨cfg, syms, []⟩) hg hl hz, List.nil_append,
    addNoise_eq_range cfg syms zs hl, List.map_map, hl]
  rfl

/-- Settles O47: the unit is checked first, then the count and the components, and neither answer draws. -/
theorem awgnChecksItsInput : Obligations.AwgnChecksItsInput := fun _ _ _ =>
  ⟨fun hc => exec_unconfigured hc, exec_awgn_of_invalid⟩

end Sys2Proof.Machine
end

section
/-! The noise of a component (`42_channel.md` R100, R101, R103, R105, R107): `noisy` is the one rounding of the
exact sum, and the law of that sum under the source contract. -/

namespace Sys2Proof.Machine

open MeasureTheory ProbabilityTheory

/-! ## `σ` -/

/-- The channel adds no noise at an infinite SNR (R101). -/
theorem noiseSigma_of_snr_eq {cfg : ChCfg} (h : cfg.snr = plusInf) : noiseSigma cfg = 0 := if_pos h

theorem noiseSigma_of_snr_ne {cfg : ChCfg} (h : cfg.snr ≠ plusInf) :
    noiseSigma cfg = √(realValue cfg.sp / (2 * realValue cfg.snr)) := if_neg h

theorem noiseSigma_nonneg (cfg : ChCfg) : 0 ≤ noiseSigma cfg := by
  by_cases h : cfg.snr = plusInf
  · exact (noiseSigma_of_snr_eq h).ge
  · exact (noiseSigma_of_snr_ne h).symm ▸ Real.sqrt_nonneg _

theorem realValue_of_negative {x : F64} (h : signBit x = true) : realValue x = -(magnitude x / 2 ^ 1074) := by
  rw [realValue, exactValue, if_pos h, Int.cast_neg, Int.cast_natCast, neg_div]

theorem realValue_pos_of_isPositive {x : F64} (h : isPositive x = true) : 0 < realValue x := by
  obtain ⟨hsign, hmag⟩ := exactValue_pos_of_isPositive h
  rw [realValue_of_positive hsign]
  positivity

namespace ChCfg.Legal
variable {cfg : ChCfg}

theorem snr_pos (h : cfg.Legal) : 0 < realValue cfg.snr := realValue_pos_of_isPositive h.snr

theorem sp_pos (h : cfg.Legal) : 0 < realValue cfg.sp := realValue_pos_of_isPositive h.sp.1

theorem noiseSigma_pos (h : cfg.Legal) (hsnr : cfg.snr ≠ plusInf) : 0 < noiseSigma cfg := by
  have hsnr_pos := h.snr_pos
  have hsp_pos := h.sp_pos
  rw [noiseSigma_of_snr_ne hsnr]
  positivity

/-- The variance of a part is half the noise power (R100, R101). -/
theorem noiseSigma_sq (h : cfg.Legal) (hsnr : cfg.snr ≠ plusInf) :
    noiseSigma cfg ^ 2 = realValue cfg.sp / realValue cfg.snr / 2 := by
  have hsnr_pos := h.snr_pos
  have hsp_pos := h.sp_pos
  rw [noiseSigma_of_snr_ne hsnr, Real.sq_sqrt (by positivity), mul_comm, div_div]

theorem noise_eq_zero_iff (h : cfg.Legal) (z : F64) :
    noiseSigma cfg * realValue z = 0 ↔ cfg.snr = plusInf ∨ isZero z = true := by
  have hsigma : noiseSigma cfg = 0 ↔ cfg.snr = plusInf :=
    ⟨fun h0 => not_not.mp fun hne => (h.noiseSigma_pos hne).ne' h0, noiseSigma_of_snr_eq⟩
  rw [mul_eq_zero, hsigma, realValue_eq_zero_iff]

/-- With equal powers the noise grows as a finite SNR falls. -/
theorem noiseSigma_le {a b : ChCfg} (hb : b.Legal) (hsp : a.sp = b.sp)
    (h : a.snr = plusInf ∨ (b.snr ≠ plusInf ∧ realValue b.snr ≤ realValue a.snr)) :
    noiseSigma a ≤ noiseSigma b := by
  by_cases hinf : a.snr = plusInf
  · exact (noiseSigma_of_snr_eq hinf).trans_le (noiseSigma_nonneg b)
  · obtain ⟨hb', hle⟩ := h.resolve_left hinf
    have hsnr_pos := hb.snr_pos
    have hsp_pos := hb.sp_pos
    rw [noiseSigma_of_snr_ne hinf, noiseSigma_of_snr_ne hb', hsp]
    gcongr

end ChCfg.Legal

/-! ## One rounding -/

/-- `m` is the floor of the real `W`, and `inexact` says that `W` lies above it. -/
structure FloorOf (W : ℝ) (m : Nat) (inexact : Bool) : Prop where
  le : (m : ℝ) ≤ W
  lt : W < m + 1
  inexact : inexact = true ↔ W ≠ m

namespace FloorOf
variable {W r : ℝ} {m : Nat} {inexact : Bool} {c : ℤ}

/-- Adding an integer moves the floor by that integer. -/
theorem isRN_add (h : FloorOf W m inexact) (hr : r * 2 ^ 1075 = c + W) : IsRN r (roundFloor (c + m) inexact) := by
  obtain ⟨hle, hlt, hexact⟩ := h
  refine isRN_roundFloor r _ _ ?_ ?_ ?_ <;> rw [hr, Int.cast_add, Int.cast_natCast]
  · linarith
  · linarith
  · rw [hexact, ne_eq, ne_eq, add_right_inj]

/-- The floor of a difference is one lower when what is subtracted lies above its own floor. -/
theorem isRN_sub (h : FloorOf W m inexact) (hr : r * 2 ^ 1075 = c - W) :
    IsRN r (roundFloor (c - m - inexact.toNat) inexact) := by
  obtain ⟨hle, hlt, hexact⟩ := h
  cases inexact with
  | false =>
    have hW : W = m := not_not.mp (mt hexact.mpr Bool.false_ne_true)
    refine isRN_roundFloor r _ _ ?_ ?_ ?_ <;> rw [hr, hW] <;> simp
  | true =>
    have hgt : (m : ℝ) < W := lt_of_le_of_ne hle (hexact.mp rfl).symm
    refine isRN_roundFloor r _ _ ?_ ?_ ?_ <;> rw [hr] <;> push_cast [Bool.toNat_true]
    · linarith
    · linarith
    · exact iff_of_true rfl fun heq => hlt.ne (by linarith)

end FloorOf

section
variable {cfg : ChCfg}

/-- `noiseMagnitude` is the floor of `σ·|⟦z⟧|` in the units of a rounding. -/
theorem ChCfg.Legal.floorOf_noiseMagnitude (h : cfg.Legal) (hsnr : cfg.snr ≠ plusInf) (z : F64) :
    FloorOf (noiseSigma cfg * (magnitude z / 2 ^ 1074) * 2 ^ 1075) (noiseMagnitude cfg z).1
      (noiseMagnitude cfg z).2 := by
  have hunits := noise_units cfg z h.snr h.sp.1
  rw [← noiseSigma_of_snr_ne hsnr] at hunits
  obtain ⟨hle, hlt, hexact⟩ := noiseMagnitude_spec cfg z (exactValue_pos_of_isPositive h.snr).2 _ hunits
  exact ⟨hle, hlt, hexact⟩

theorem noisy_of_noiseless {z : F64} (h : cfg.snr = plusInf ∨ isZero z = true) (s : F64) : noisy cfg s z = s :=
  if_pos h

theorem ChCfg.Legal.noisy_isRN {z : F64} (h : cfg.Legal) (hz : ¬ (cfg.snr = plusInf ∨ isZero z = true))
    (s : F64) : IsRN (realValue s + noiseSigma cfg * realValue z) (noisy cfg s z) := by
  have hfloor := h.floorOf_noiseMagnitude (fun hsnr => hz (.inl hsnr)) z
  rw [noisy, if_neg hz]
  cases hsign : signBit z with
  | true =>
    refine hfloor.isRN_sub ?_
    rw [realValue_of_negative hsign, mul_neg, ← sub_eq_add_neg, sub_mul, two_exactValue]
  | false =>
    refine hfloor.isRN_add ?_
    rw [realValue_of_positive hsign, add_mul, two_exactValue]

end

/-- Settles O51: without noise the component passes (`noisy_of_noiseless`), with noise it is rounded once
(`noisy_isRN`), and `noise_eq_zero_iff` tells which. -/
theorem noisyRoundsOnce : Obligations.NoisyRoundsOnce := fun _ s z h _ _ =>
  ⟨fun h0 => noisy_of_noiseless ((h.noise_eq_zero_iff z).mp h0) s,
    fun hne => h.noisy_isRN (mt (h.noise_eq_zero_iff z).mpr hne) s, h.noise_eq_zero_iff z⟩

/-! ## The law of the sum -/

/-- A standard Gaussian scaled by `σ` and moved by `μ` (R103, R107). -/
theorem map_gaussianReal_affine {σ : ℝ} {v : NNReal} (hv : (v : ℝ) = σ ^ 2) (μ : ℝ) :
    (gaussianReal 0 1).map (fun z => μ + σ * z) = gaussianReal μ v := by
  have hcomp : (fun z => μ + σ * z) = (μ + ·) ∘ (σ * ·) := rfl
  have hvar : NNReal.mk (σ ^ 2) (sq_nonneg σ) * 1 = v := by rw [mul_one]; exact NNReal.eq hv.symm
  rw [hcomp, ← Measure.map_map (measurable_const_add μ) (measurable_const_mul σ), gaussianReal_map_const_mul,
    gaussianReal_map_const_add, mul_zero, zero_add, hvar]

/-- Settles O52: the rounding is O51's; the sum of each part is an affine image of its own draw
(`map_gaussianReal_affine`), so the image of the product is the product of the images. -/
theorem noiseIsGaussian : Obligations.NoiseIsGaussian := by
  refine ⟨fun cfg s z h hs hz => ?_, fun cfg a h hsnr => ?_⟩
  · obtain ⟨hself, hround, -⟩ := noisyRoundsOnce cfg s z h hs hz
    by_cases h0 : noiseSigma cfg * realValue z = 0
    · exact .inr ⟨by rw [h0, add_zero], hself h0⟩
    · exact .inl (hround h0)
  · have hsq := h.noiseSigma_sq hsnr
    refine ⟨.mk (noiseSigma cfg ^ 2) (sq_nonneg _), hsq, ?_⟩
    rw [← map_gaussianReal_affine rfl (realValue a.re), ← map_gaussianReal_affine rfl (realValue a.im),
      Measure.map_prod_map _ _ (by fun_prop) (by fun_prop)]
    rfl

end Sys2Proof.Machine
end

section
/-! Decisions and the SNR (`43_demodulator.md` R121; `42_channel.md` R107): the scan of the table finds the least
index at the least distance, and what lies on the way from a received pair to the point it is decided as is decided
alike. -/

namespace Sys2Proof.Machine

/-! ## The scan of a table -/

/-- The exact squared distance of point `i` of a table from a symbol. -/
def tableDist2 (pts : List Sym) (r : Sym) (i : Nat) : Int := dist2 r (pts.getD i ⟨0, 0⟩)

/-- `k` is the least index below `n` at which `d` is least. -/
structure FirstLeast (d : Nat → Int) (n k : Nat) : Prop where
  lt : k < n
  le : ∀ i, i < n → d k ≤ d i
  least : ∀ i, i < k → d k < d i

namespace FirstLeast
variable {d : Nat → Int} {n k j : Nat}

/-- A strictly smaller value at the next index takes the place of the least so far. -/
theorem succ_of_lt (h : FirstLeast d n k) (hlt : d n < d k) : FirstLeast d (n + 1) n where
  lt := n.lt_succ_self
  le i hi := (Nat.lt_succ_iff_lt_or_eq.mp hi).elim (fun hi => (hlt.trans_le (h.le i hi)).le) fun hi => hi ▸ le_rfl
  least i hi := hlt.trans_le (h.le i hi)

/-- No other value does. -/
theorem succ_of_not_lt (h : FirstLeast d n k) (hge : ¬ d n < d k) : FirstLeast d (n + 1) k where
  lt := h.lt.trans n.lt_succ_self
  le i hi := (Nat.lt_succ_iff_lt_or_eq.mp hi).elim (h.le i) fun hi => hi ▸ not_lt.mp hge
  least := h.least

theorem unique (hk : FirstLeast d n k) (hj : FirstLeast d n j) : k = j := by
  rcases lt_trichotomy k j with hlt | heq | hgt
  · exact absurd (hj.least k hlt) (hk.le j hj.lt).not_gt
  · exact heq
  · exact absurd (hk.least j hgt) (hj.le k hk.lt).not_gt

end FirstLeast

/-- The rest of the scan, from the least of the points before it. -/
theorem nearestFrom_firstLeast {all : List Sym} {r : Sym} (rest : List Sym) {best next : Nat}
    (hrest : all.drop next = rest) (h : FirstLeast (tableDist2 all r) next best) (hnext : next ≤ all.length) :
    FirstLeast (tableDist2 all r) all.length (nearestFrom r best (tableDist2 all r best) next rest) := by
  induction rest generalizing best next with
  | nil =>
    have hend : next = all.length := le_antisymm hnext (List.drop_eq_nil_iff.mp hrest)
    exact hend ▸ h
  | cons p rest ih =>
    have hlt : next < all.length := lt_of_not_ge fun hge => by simp [List.drop_eq_nil_of_le hge] at hrest
    obtain ⟨hp, hrest⟩ := List.cons_eq_cons.mp ((List.drop_eq_getElem_cons hlt).symm.trans hrest)
    have hdist : dist2 r p = tableDist2 all r next := by rw [tableDist2, List.getD_eq_getElem _ _ hlt, hp]
    rw [nearestFrom, hdist]
    split
    next hnear => exact ih hrest (h.succ_of_lt hnear) hlt
    next hfar => exact ih hrest (h.succ_of_not_lt hfar) hlt

theorem nearestPoint_firstLeast {pts : List Sym} (r : Sym) (h : pts ≠ []) :
    FirstLeast (tableDist2 pts r) pts.length (nearestPoint pts r) := by
  cases pts with
  | nil => exact absurd rfl h
  | cons p rest =>
    have hfirst : FirstLeast (tableDist2 (p :: rest) r) 1 0 :=
      ⟨one_pos, fun i hi => Nat.lt_one_iff.mp hi ▸ le_rfl, fun i hi => absurd hi i.not_lt_zero⟩
    exact nearestFrom_firstLeast rest rfl hfirst (Nat.succ_le_succ rest.length.zero_le)

/-! ## Decisions on reals -/

section
variable {pts : List Sym} {j : Nat}

/-- The exact integer distances compare as the real ones. -/
theorem firstLeast_iff_realDecided {r : Sym} (hj : j < pts.length) :
    FirstLeast (tableDist2 pts r) pts.length j ↔ RealDecided pts (realValue r.re) (realValue r.im) j :=
  ⟨fun h => ⟨fun i hi => (realDist2_le_iff _ _ _ _).mpr (h.le i hi),
      fun i hi => (realDist2_lt_iff _ _ _ _).mpr (h.least i hi)⟩,
    fun ⟨hle, hlt⟩ => ⟨hj, fun i hi => (realDist2_le_iff _ _ _ _).mp (hle i hi),
      fun i hi => (realDist2_lt_iff _ _ _ _).mp (hlt i hi)⟩⟩

theorem nearestPoint_eq_iff {r : Sym} (hj : j < pts.length) :
    nearestPoint pts r = j ↔ RealDecided pts (realValue r.re) (realValue r.im) j := by
  have hnearest := nearestPoint_firstLeast r (List.ne_nil_of_length_pos (j.zero_le.trans_lt hj))
  rw [← firstLeast_iff_realDecided hj]
  exact ⟨fun h => h ▸ hnearest, hnearest.unique⟩

/-- What lies at `(u, v)` from point `j` is decided as point `j`. -/
def OffsetDecided (pts : List Sym) (j : Nat) (u v : ℝ) : Prop :=
  RealDecided pts (realValue (pts.getD j ⟨0, 0⟩).re + u) (realValue (pts.getD j ⟨0, 0⟩).im + v) j

/-- By how much point `i` is further, in squared distance, than point `j` from what lies at `(u, v)` from point
`j`: the squares of the offset cancel. -/
noncomputable def margin (pts : List Sym) (j i : Nat) (u v : ℝ) : ℝ :=
  realDist2 (pts.getD j ⟨0, 0⟩) (pts.getD i ⟨0, 0⟩) +
    2 * (u * (realValue (pts.getD j ⟨0, 0⟩).re - realValue (pts.getD i ⟨0, 0⟩).re) +
      v * (realValue (pts.getD j ⟨0, 0⟩).im - realValue (pts.getD i ⟨0, 0⟩).im))

theorem pointDist2_offset (i : Nat) (u v : ℝ) :
    pointDist2 pts (realValue (pts.getD j ⟨0, 0⟩).re + u) (realValue (pts.getD j ⟨0, 0⟩).im + v) i =
      pointDist2 pts (realValue (pts.getD j ⟨0, 0⟩).re + u) (realValue (pts.getD j ⟨0, 0⟩).im + v) j +
        margin pts j i u v := by
  unfold margin pointDist2 realDist2
  ring

theorem offsetDecided_iff_margin (u v : ℝ) : OffsetDecided pts j u v ↔
    (∀ i, i < pts.length → 0 ≤ margin pts j i u v) ∧ ∀ i, i < j → 0 < margin pts j i u v := by
  refine and_congr (forall₂_congr fun i _ => ?_) (forall₂_congr fun i _ => ?_) <;> rw [pointDist2_offset i]
  · exact le_add_iff_nonneg_right _
  · exact lt_add_iff_pos_right _

/-- Along a ray from point `j` the margin is affine. -/
theorem margin_ray (i : Nat) (t u v : ℝ) : margin pts j i (t * u) (t * v) =
    realDist2 (pts.getD j ⟨0, 0⟩) (pts.getD i ⟨0, 0⟩) +
      t * (margin pts j i u v - realDist2 (pts.getD j ⟨0, 0⟩) (pts.getD i ⟨0, 0⟩)) := by
  unfold margin
  ring

theorem min_le_affine {A B q t : ℝ} (hq : 0 ≤ q) (hqt : q ≤ t) : min A (A + t * B) ≤ A + q * B := by
  rcases le_total 0 B with hB | hB
  · exact (min_le_left _ _).trans (le_add_of_nonneg_right (mul_nonneg hq hB))
  · exact (min_le_right _ _).trans (add_le_add_right (mul_le_mul_of_nonpos_right hqt hB) A)

/-- On the way to an offset the margin does not fall below the lesser of its values at the two ends. -/
theorem min_le_margin {q t : ℝ} (hq : 0 ≤ q) (hqt : q ≤ t) (i : Nat) (u v : ℝ) :
    min (realDist2 (pts.getD j ⟨0, 0⟩) (pts.getD i ⟨0, 0⟩)) (margin pts j i (t * u) (t * v)) ≤
      margin pts j i (q * u) (q * v) := by
  rw [margin_ray i t, margin_ray i q]
  exact min_le_affine hq hqt

theorem realDist2_nonneg (a b : Sym) : 0 ≤ realDist2 a b := add_nonneg (sq_nonneg _) (sq_nonneg _)

/-- The region in which point `j` is decided is star-shaped about it, if no earlier point lies where it does
(R121). -/
theorem OffsetDecided.shrink {q t u v : ℝ} (h : OffsetDecided pts j (t * u) (t * v)) (hq : 0 ≤ q) (hqt : q ≤ t)
    (hdistinct : ∀ i, i < j → 0 < realDist2 (pts.getD j ⟨0, 0⟩) (pts.getD i ⟨0, 0⟩)) :
    OffsetDecided pts j (q * u) (q * v) := by
  rw [offsetDecided_iff_margin] at h ⊢
  obtain ⟨hle, hlt⟩ := h
  exact ⟨fun i hi => (le_min (realDist2_nonneg _ _) (hle i hi)).trans (min_le_margin hq hqt i u v),
    fun i hi => (lt_min (hdistinct i hi) (hlt i hi)).trans_le (min_le_margin hq hqt i u v)⟩

end

/-- Settles O57: a decision on a symbol is `nearestPoint_eq_iff`; draws that are decided right with the greater
noise are decided right with the smaller (`OffsetDecided.shrink`), so the event of an error only grows. -/
theorem symbolErrorsGrowAsSnrFalls : Obligations.SymbolErrorsGrowAsSnrFalls := by
  refine ⟨fun pts r j hj => nearestPoint_eq_iff hj, fun a b pts j _ hb hsp hsnr hj hdistinct => ?_⟩
  have hsigma := hb.noiseSigma_le hsp hsnr
  have hearlier : ∀ i, i < j → 0 < realDist2 (pts.getD j ⟨0, 0⟩) (pts.getD i ⟨0, 0⟩) := fun i hi =>
    hdistinct i (hi.trans hj) hi.ne
  exact MeasureTheory.measure_mono fun _ => mt fun hright : OffsetDecided pts j _ _ =>
    hright.shrink (noiseSigma_nonneg a) hsigma hearlier

end Sys2Proof.Machine
end

section
/-! The demodulator (`43_demodulator.md` R120 to R125): what `DMCFG` loads, what a `DEMODULATE` decides and emits,
and that it gives back the message a `MODULATE` of the same register was sent. -/

namespace Sys2Proof.Machine

/-! ## `DMCFG` -/

section
variable {s : State} {order : Nat} {phase : F64}

theorem exec_dmcfg_of_legal (h : legalPsk s.params order phase = true) :
    exec (.dmcfg order phase) s = .next (State.respond { s with dm := some (pskCfg order phase) } .ok []) :=
  if_pos h

theorem exec_dmcfg_of_illegal (h : ¬ legalPsk s.params order phase = true) :
    exec (.dmcfg order phase) s = .next (s.raise .invalidConfiguration) :=
  if_neg h

/-- A `MODCFG` that answers `OK` had legal operands. -/
theorem legalPsk_of_exec_modcfg_ok {t : State} (h : exec (.modcfg order phase) s = .next t)
    (hok : t.rsp = s.rsp ++ [⟨.ok, []⟩]) : legalPsk s.params order phase = true := by
  by_contra hillegal
  rw [exec_modcfg_of_illegal hillegal] at h
  cases h
  simp at hok

end

theorem not_legalPsk {p : Params} {order : Nat} {phase : F64} (h : ¬ LegalOrder p order ∨ isFinite phase = false) :
    ¬ legalPsk p order phase = true := by
  rw [legalPsk_iff, not_and_or, Bool.not_eq_true]
  exact h

/-- Settles O53: `legalPsk` decides between the two answers; what a `MODCFG` found legal a `DMCFG` finds legal too,
and both load `pskCfg`. -/
theorem dmcfgConfigures : Obligations.DmcfgConfigures := by
  refine ⟨fun s order phase ho hp => exec_dmcfg_of_legal ((legalPsk_iff _ _ _).mpr ⟨ho, hp⟩),
    fun s order phase hbad => exec_dmcfg_of_illegal (not_legalPsk hbad), fun s t u order phase hmod hok hdm => ?_⟩
  have hlegal := legalPsk_of_exec_modcfg_ok hmod hok
  rw [exec_dmcfg_of_legal (exec_params hmod ▸ hlegal)] at hdm
  rw [exec_modcfg_of_legal hlegal] at hmod
  cases hmod
  cases hdm
  rfl

/-! ## The decision -/

/-- Settles O55: the scan finds the first least distance (`nearestPoint_firstLeast`), in integers as in reals. -/
theorem decisionIsLeastNearest : Obligations.DecisionIsLeastNearest := by
  intro pts r hne
  have hfirst := nearestPoint_firstLeast r hne
  exact ⟨hfirst.lt, (firstLeast_iff_realDecided hfirst.lt).mp hfirst⟩

theorem realDist2_comm (a b : Sym) : realDist2 a b = realDist2 b a := by
  unfold realDist2
  ring

theorem realDist2_self (a : Sym) : realDist2 a a = 0 := by
  simp [realDist2]

/-- Settles O56: the received symbol is the point it is decided as plus a whole offset, and the region of that
point is star-shaped about it (`OffsetDecided.shrink`). -/
theorem decisionRegionsAreStarShaped : Obligations.DecisionRegionsAreStarShaped := by
  intro pts r r' q hne hq hq1 hdistinct hre him
  have hlt := (nearestPoint_firstLeast r hne).lt
  have hdecided := (nearestPoint_eq_iff hlt).mp rfl
  rw [nearestPoint_eq_iff hlt, hre, him]
  generalize nearestPoint pts r = j at *
  have hend : OffsetDecided pts j (1 * (realValue r.re - realValue (pts.getD j ⟨0, 0⟩).re))
      (1 * (realValue r.im - realValue (pts.getD j ⟨0, 0⟩).im)) := by
    rwa [OffsetDecided, one_mul, one_mul, add_sub_cancel, add_sub_cancel]
  exact hend.shrink hq hq1 fun i hi => realDist2_comm _ _ ▸ hdistinct i j hi hlt

/-- A point of a table is decided as itself, unless an earlier point lies where it does. -/
theorem nearestPoint_getD {pts : List Sym} {j : Nat} (hj : j < pts.length)
    (hdistinct : ∀ i, i < j → 0 < realDist2 (pts.getD j ⟨0, 0⟩) (pts.getD i ⟨0, 0⟩)) :
    nearestPoint pts (pts.getD j ⟨0, 0⟩) = j := by
  refine (nearestPoint_eq_iff hj).mpr ⟨fun i _ => ?_, fun i hi => ?_⟩
  · exact (realDist2_self _).trans_le (realDist2_nonneg _ _)
  · exact (realDist2_self _).trans_lt (hdistinct i hi)

/-! ## The recovered bits -/

/-- Pieces of one length are found in what they are joined to at multiples of that length. -/
theorem getElem?_flatMap_of_length_eq {α β : Type} {f : α → List β} {k : Nat} (hf : ∀ a, (f a).length = k) (d : α)
    {l : List α} {i b : Nat} (hi : i < l.length) (hb : b < k) :
    (l.flatMap f)[i * k + b]? = (f (l.getD i d))[b]? := by
  induction l generalizing i with
  | nil => exact absurd hi i.not_lt_zero
  | cons a l ih =>
    rw [List.flatMap_cons]
    cases i with
    | zero => rw [zero_mul, zero_add, List.getElem?_append_left ((hf a).symm ▸ hb), List.getD_cons_zero]
    | succ i =>
      have hpos : (i + 1) * k + b = (f a).length + (i * k + b) := by rw [hf]; ring
      rw [hpos, List.getElem?_append_right (Nat.le_add_right _ _), Nat.add_sub_cancel_left, List.getD_cons_succ,
        ih (Nat.lt_of_succ_lt_succ hi)]

section
variable (l : Labelling) (cfg : PskCfg) (syms : List Sym)

theorem length_symbolBits (r : Sym) : (symbolBits l cfg r).length = cfg.order.log2 := bitsMsb_length _ _

theorem length_demodulateSyms : (demodulateSyms l cfg syms).length = syms.length * cfg.order.log2 := by
  simp [demodulateSyms, List.length_flatMap, length_symbolBits]

/-- Bit `b` of symbol `i` is bit `k - 1 - b` of the label of the point it is decided as (R122). -/
theorem demodulateSyms_getElem? {i b : Nat} (hi : i < syms.length) (hb : b < cfg.order.log2) :
    (demodulateSyms l cfg syms)[i * cfg.order.log2 + b]? = some
      ((labelOf l cfg.order.log2 (nearestPoint cfg.pts (syms.getD i ⟨0, 0⟩))).testBit (cfg.order.log2 - 1 - b)) :=
  (getElem?_flatMap_of_length_eq (length_symbolBits l cfg) ⟨0, 0⟩ hi hb).trans (bitsMsb_getElem? _ _ _ hb)

end

/-! ## `DEMODULATE` -/

section
variable {s : State} {cfg : PskCfg} {n : Nat} {syms : List Sym}

theorem exec_demodulate_of_valid (hd : s.dm = some cfg) (hn : syms.length = n) (hf : FiniteSyms syms) :
    exec (.demodulate n syms) s = .next (s.respond .ok ((demodulateSyms s.params.label cfg syms).map .bit)) := by
  simp only [exec, execDemodulate, hd]
  exact if_pos ⟨hn, (finitePayload_iff syms).mpr hf⟩

theorem exec_demodulate_of_invalid (hd : s.dm = some cfg) (h : syms.length ≠ n ∨ ¬ FiniteSyms syms) :
    exec (.demodulate n syms) s = .next (s.raise .invalidInput) := by
  simp only [exec, execDemodulate, hd]
  exact if_neg fun ⟨hn, hf⟩ => h.elim (absurd hn) (absurd ((finitePayload_iff syms).mp hf))

end

/-- Settles O54: the unit is checked first, then the count and the components; the bits are those of
`demodulateSyms`, position by position. -/
theorem demodulateEmitsLabels : Obligations.DemodulateEmitsLabels := by
  refine fun s n syms => ⟨fun hd => exec_unconfigured hd, fun cfg hd => ⟨exec_demodulate_of_invalid hd, ?_⟩⟩
  rintro rfl hf
  exact ⟨demodulateSyms s.params.label cfg syms, length_demodulateSyms _ _ _,
    fun i b => demodulateSyms_getElem? _ _ _, exec_demodulate_of_valid hd rfl hf⟩

/-- Settles O58: past its checks the output is made of the parameters, the register `dm` and the symbols alone. -/
theorem mismatchIsNotAnError : Obligations.MismatchIsNotAnError := by
  rintro s cfg n syms hd rfl hf
  refine ⟨(demodulateSyms s.params.label cfg syms).map .bit, ?_, fun m => ?_⟩
  · rw [List.length_map, length_demodulateSyms]
  · exact exec_demodulate_of_valid (s := { s with mod := m }) hd rfl hf

/-! ## A legal register -/

namespace PskCfg.Legal
variable {p : Params} {cfg : PskCfg} {j : Nat}

theorem log2_bounds_and_two_pow_log2 (hc : cfg.Legal p) :
    1 ≤ cfg.order.log2 ∧ cfg.order.log2 ≤ p.kmax ∧ 2 ^ cfg.order.log2 = cfg.order := by
  obtain ⟨k, h1, h2, horder⟩ := hc.order
  rw [horder, Nat.log2_two_pow]
  exact ⟨h1, h2, rfl⟩

theorem getD_pts (hc : cfg.Legal p) (hj : j < cfg.order) :
    cfg.pts.getD j ⟨0, 0⟩ = point cfg.phase cfg.order cfg.order.log2 j := by
  rw [hc.table, List.getD_eq_getElem?_getD, constellation_getElem?_eq_some_iff.mpr ⟨hj, rfl⟩, Option.getD_some]

theorem finite_getD_pts (hc : cfg.Legal p) (hj : j < cfg.order) :
    isFinite (cfg.pts.getD j ⟨0, 0⟩).re = true ∧ isFinite (cfg.pts.getD j ⟨0, 0⟩).im = true := by
  rw [hc.getD_pts hj]
  exact (roundedPoint_point hc.order hc.phase j).finite

/-- Every point of a legal table is decided as itself, as the points are distinct (R87, R124). -/
theorem nearestPoint_getD_pts (hw : p.wf) (hc : cfg.Legal p) (hj : j < cfg.order) :
    nearestPoint cfg.pts (cfg.pts.getD j ⟨0, 0⟩) = j := by
  have hlen : cfg.pts.length = cfg.order := hc.table ▸ constellation_length _ _
  refine nearestPoint_getD (hlen ▸ hj) fun i hi => ?_
  rw [realDist2_comm, hc.getD_pts hj, hc.getD_pts (hi.trans hj)]
  exact pointsAreDistinct p cfg.order cfg.phase i j _ _ hw hc.order hc.phase hi
    (constellation_getElem?_eq_some_iff.mpr ⟨hi.trans hj, rfl⟩) (constellation_getElem?_eq_some_iff.mpr ⟨hj, rfl⟩)

end PskCfg.Legal

/-! ## The round trip -/

section
variable {p : Params} {cfg : PskCfg} {bits : List Bit}

theorem length_modulateBits (l : Labelling) (cfg : PskCfg) (bits : List Bit) :
    (modulateBits l cfg bits).length = bits.length / cfg.order.log2 := by
  rw [modulateBits_eq_selectedIndices, List.length_map, length_selectedIndices]

theorem selectedIndices_lt_order (hw : p.wf) (hc : cfg.Legal p) (hk : bits.length % cfg.order.log2 = 0) {j : Nat}
    (hj : j ∈ selectedIndices p.label cfg.order.log2 bits) : j < cfg.order := by
  obtain ⟨-, -, hl⟩ := hw
  obtain ⟨h1, h2, horder⟩ := hc.log2_bounds_and_two_pow_log2
  exact horder ▸ selectedIndices_lt hl h1 h2 hk hj

theorem finiteSyms_modulateBits (hw : p.wf) (hc : cfg.Legal p) (hk : bits.length % cfg.order.log2 = 0) :
    FiniteSyms (modulateBits p.label cfg bits) := by
  intro a ha
  rw [modulateBits_eq_selectedIndices] at ha
  obtain ⟨j, hj, rfl⟩ := List.mem_map.mp ha
  exact hc.finite_getD_pts (selectedIndices_lt_order hw hc hk hj)

/-- Each symbol is decided as the point it was selected as, so its bits are those of the selected label (R124). -/
theorem demodulateSyms_modulateBits (hw : p.wf) (hc : cfg.Legal p) (hk : bits.length % cfg.order.log2 = 0) :
    demodulateSyms p.label cfg (modulateBits p.label cfg bits) = bits := by
  have hlabel : ∀ j ∈ selectedIndices p.label cfg.order.log2 bits, symbolBits p.label cfg (cfg.pts.getD j ⟨0, 0⟩) =
      bitsMsb (labelOf p.label cfg.order.log2 j) cfg.order.log2 := fun j hj => by
    rw [symbolBits, hc.nearestPoint_getD_pts hw (selectedIndices_lt_order hw hc hk hj), bitsPerSymbol]
  obtain ⟨-, -, hl⟩ := hw
  obtain ⟨h1, h2, -⟩ := hc.log2_bounds_and_two_pow_log2
  rw [modulateBits_eq_selectedIndices, demodulateSyms, List.flatMap_map, List.flatMap_congr hlabel,
    flatMap_labels_selectedIndices hl h1 h2 hk]

theorem exec_demodulate_modulateBits {t : State} (hw : t.params.wf) (hd : t.dm = some cfg) (hc : cfg.Legal t.params)
    (hk : bits.length % cfg.order.log2 = 0) :
    exec (.demodulate (modulateBits t.params.label cfg bits).length (modulateBits t.params.label cfg bits)) t =
      .next (t.respond .ok (bits.map .bit)) := by
  rw [exec_demodulate_of_valid hd rfl (finiteSyms_modulateBits hw hc hk), demodulateSyms_modulateBits hw hc hk]

end

/-- Settles O59: `MODULATE` answers with `modulateBits`, of which `DEMODULATE` makes the message
(`exec_demodulate_modulateBits`). -/
theorem noiselessRoundTrip : Obligations.NoiselessRoundTrip := by
  intro s cfg bits hw hm hd hc hk _
  exact ⟨modulateBits s.params.label cfg bits, _, _, length_modulateBits _ _ _, exec_modulate_of_valid hm rfl hk,
    rfl, exec_demodulate_modulateBits hw hd hc hk, rfl⟩

/-! ## The round trip through the channel -/

/-- With an infinite SNR every symbol passes as it is, whatever the draws (R105). -/
theorem addNoise_of_noiseless {cfg : ChCfg} (hcfg : cfg.snr = plusInf) {syms : List Sym} {zs : List F64}
    (hl : zs.length = 2 * syms.length) : addNoise cfg syms zs = syms := by
  rw [addNoise_eq_range cfg syms zs hl]
  simp only [noisy_of_noiseless (.inl hcfg)]
  refine List.ext_getElem (by simp) fun i _ hi => ?_
  rw [List.getElem_map, List.getElem_range, List.getD_eq_getElem _ _ hi]

theorem exec_awgn_of_noiseless {s : State} {cfg : ChCfg} {syms : List Sym} {zs : List F64} {rest : List Answer}
    (hc : s.ch = some cfg) (hcfg : cfg.snr = plusInf) (hf : FiniteSyms syms) (hg : s.gauss = zs.map .value ++ rest)
    (hl : zs.length = 2 * syms.length) (hz : ∀ z ∈ zs, isFinite z = true) :
    exec (.awgn syms.length syms) s =
      .next (State.respond { s with gauss := rest, drawn := s.drawn + zs.length } .ok (syms.map .sym)) := by
  rw [exec_awgn_of_valid hc rfl hf, runAwgn_complete (w := ⟨cfg, syms, []⟩) hg hl hz, List.nil_append,
    addNoise_of_noiseless hcfg hl]

/-- Settles O60: between the two commands of O59 the symbols pass the channel as they are
(`exec_awgn_of_noiseless`). -/
theorem noiselessRoundTripThroughChannel : Obligations.NoiselessRoundTripThroughChannel := by
  intro s cfg sp bits zs rest hw hm hd hch hc hk _ hg hl hz
  rw [← length_modulateBits s.params.label] at hl
  have hf := finiteSyms_modulateBits hw hc hk
  exact ⟨modulateBits s.params.label cfg bits, _, _, _, exec_modulate_of_valid hm rfl hk, rfl,
    exec_awgn_of_noiseless hch rfl hf hg hl hz, rfl, rfl, rfl, exec_demodulate_modulateBits hw hd hc hk, rfl⟩

end Sys2Proof.Machine
end

section
/-! Errors (`30_encoding.md` R59 to R62; `60_exceptions.md` R140 to R148; `70_reset_and_hazards.md` R155): the packets
the decoder rejects, and the table `Fails` of what else a command can fail by, from which the causes of each status,
their order and what an error changes are read. -/

namespace Sys2Proof

/-! ## The packets the decoder rejects -/

section
variable {c : Cmd}

theorem exists_error_iff {ε α : Type} (x : Except ε α) : (∃ e, x = .error e) ↔ ¬ ∃ a, x = .ok a := by
  cases x <;> simp

theorem decodePsk_error_iff {mk : Nat → F64 → Instr} :
    (∃ e, decodePsk mk c = .error e) ↔ c.ops.length ≠ 1 ∨ c.pay ≠ [] := by
  rw [exists_error_iff, ne_eq, ne_eq, ← not_and_or, not_iff_not, List.length_eq_one_iff]
  simp [decodePsk_eq_ok_iff]

theorem decodeBitCommand_error_iff {mk : Nat → List Bit → Instr} :
    (∃ e, decodeBitCommand mk c = .error e) ↔ c.ops ≠ [] ∨ ∃ x ∈ c.pay, ∀ b, x ≠ Item.bit b := by
  rw [exists_error_iff, ← payloadBits_eq_none_iff]
  simp only [decodeBitCommand_eq_ok_iff, ← payloadBits_eq_some_iff]
  cases payloadBits c.pay <;> simp

theorem decodeSymCommand_error_iff {mk : Nat → List Sym → Instr} :
    (∃ e, decodeSymCommand mk c = .error e) ↔ c.ops ≠ [] ∨ ∃ x ∈ c.pay, ∀ a, x ≠ Item.sym a := by
  rw [exists_error_iff, ← payloadSyms_eq_none_iff]
  simp only [decodeSymCommand_eq_ok_iff, ← payloadSyms_eq_some_iff]
  cases payloadSyms c.pay <;> simp

/-- The argument of an accepted `CHCFG` header is `P` alone; above it lie the reserved bits (R54, R60). -/
theorem decodeChannel_error_iff :
    (∃ e, decodeChannel c = .error e) ↔
      512 ≤ c.hdr.toNat ∨ c.ops.length ≠ 1 + c.hdr.toNat / 256 % 2 ∨ c.pay ≠ [] := by
  rw [exists_error_iff]
  simp only [decodeChannel_eq_ok_iff, argument_eq]
  obtain hp | hp | hreserved :
      c.hdr.toNat / 256 = 0 ∨ c.hdr.toNat / 256 = 1 ∨ 512 ≤ c.hdr.toNat := by omega
  · have hlt : ¬ 512 ≤ c.hdr.toNat := by omega
    simp [hp, hlt, List.length_eq_one_iff, imp_iff_or_not]
  · have hlt : ¬ 512 ≤ c.hdr.toNat := by omega
    simp [hp, hlt, List.length_eq_two, imp_iff_or_not]
  · have hne : c.hdr.toNat / 256 ≠ 0 ∧ c.hdr.toNat / 256 ≠ 1 := by omega
    simp [hreserved, hne]

/-- At each opcode `Malformed` asks what that arm of the decoder rejects (R59 to R61). -/
theorem decode_error_iff_malformed (c : Cmd) : (∃ e, decode c = .error e) ↔ Machine.Malformed c := by
  unfold decode
  simp only [Machine.Malformed, ← opcode_eq]
  split
  next hopc => simp [hopc, decodePsk_error_iff]
  next hopc => simp [hopc, decodeBitCommand_error_iff]
  next hopc => simp [hopc, decodeChannel_error_iff]
  next hopc => simp [hopc, decodeSymCommand_error_iff]
  next hopc => simp [hopc, decodePsk_error_iff]
  next hopc => simp [hopc, decodeSymCommand_error_iff]
  next =>
    have hreserved : opcode c.hdr = 0 ∨ 7 ≤ opcode c.hdr := by
      simp only [imp_false] at *
      omega
    exact iff_of_true ⟨_, rfl⟩ (hreserved.imp_right .inl)

end

end Sys2Proof

namespace Sys2Proof.Machine

/-! ## The causes of an error -/

/-- Settles O48: past its checks the command is `runAwgn` with no draw held, and it meets a failing answer
(`runAwgn_failed`). -/
theorem awgnReportsTheSource : Obligations.AwgnReportsTheSource := by
  rintro s cfg n syms zs a rest hc rfl hs hg hl hf ha
  rw [exec_awgn_of_valid hc rfl hs, runAwgn_failed (w := ⟨cfg, syms, []⟩) hg hl hf ha]
  rfl

/-- The commands that fail, each with its status and the number of draws it has consumed: by a check, or past the
checks by the first draw that fails (R141 to R144, R146). -/
inductive Fails (s : State) : Instr → Status → Nat → Prop where
  | notConfigured {i : Instr} (h : Unconfigured s i) : Fails s i .notConfigured 0
  | invalidConfiguration {i : Instr} (h : BadConfiguration s.params i) : Fails s i .invalidConfiguration 0
  | invalidInput {i : Instr} (hu : ¬ Unconfigured s i) (h : BadInput s i) : Fails s i .invalidInput 0
  | randomSource (n syms) (zs : List F64) (a rest) (hu : ¬ Unconfigured s (.awgn n syms))
      (hi : ¬ BadInput s (.awgn n syms)) (hg : s.gauss = zs.map .value ++ a :: rest) (hl : zs.length < 2 * n)
      (hf : ∀ z ∈ zs, isFinite z = true) (ha : a.Fails) : Fails s (.awgn n syms) .randomSource (zs.length + 1)

/-- What an error leaves: its response, with no output, and the first `m` answers of the source consumed (R147). -/
def State.afterError (s : State) (e : Status) (m : Nat) : State :=
  { s with rsp := s.rsp ++ [⟨e, []⟩], gauss := s.gauss.drop m, drawn := s.drawn + m }

/-- From `s` to `t` a command has the response `OK`, or none yet. -/
def NoError (s t : State) : Prop := t.rsp = s.rsp ∨ ∃ out, t.rsp = s.rsp ++ [⟨.ok, out⟩]

section
variable {i : Instr} {s t : State} {e : Status} {m : Nat} {out : List Item}

theorem legalPsk_iff_not_badConfiguration {p : Params} {order : Nat} {phase : F64} :
    legalPsk p order phase = true ↔ ¬ BadConfiguration p (.modcfg order phase) := by
  simp [legalPsk_iff, BadConfiguration]

/-- The default power is legal, so only a power that is given can be a cause (R54, R102). -/
theorem legalChannel_iff_not_badConfiguration {p : Params} {snr : F64} {sp : Option F64} :
    legalChannel snr (powerOperand sp) = true ↔ ¬ BadConfiguration p (.chcfg snr sp) := by
  have hone : isFinite oneF64 = true ∧ Positive oneF64 := ⟨by decide, positive_of_isPositive (by decide)⟩
  rw [legalChannel_iff]
  cases sp with
  | none => simp [BadConfiguration, powerOperand, hone]
  | some x => simp [BadConfiguration, powerOperand]

theorem exec_of_badConfiguration (h : BadConfiguration s.params i) :
    exec i s = .next (s.raise .invalidConfiguration) := by
  cases i with
  | modcfg order phase => exact exec_modcfg_of_illegal fun hl => legalPsk_iff_not_badConfiguration.mp hl h
  | chcfg snr sp => exact exec_chcfg_of_illegal fun hl => legalChannel_iff_not_badConfiguration.mp hl h
  | dmcfg order phase => exact exec_dmcfg_of_illegal fun hl => legalPsk_iff_not_badConfiguration.mp hl h
  | modulate n bits => exact h.elim
  | awgn n syms => exact h.elim
  | demodulate n syms => exact h.elim

theorem exec_of_badInput (hu : ¬ Unconfigured s i) (h : BadInput s i) :
    exec i s = .next (s.raise .invalidInput) := by
  cases i with
  | modulate n bits =>
    obtain ⟨cfg, hm⟩ := Option.ne_none_iff_exists'.mp hu
    refine exec_modulate_of_invalid hm (h.imp_right fun ⟨cfg', hm', hk⟩ => ?_)
    rwa [Option.some.inj (hm.symm.trans hm')]
  | awgn n syms => exact exec_awgn_of_invalid hu h
  | demodulate n syms =>
    obtain ⟨cfg, hd⟩ := Option.ne_none_iff_exists'.mp hu
    exact exec_demodulate_of_invalid hd h
  | modcfg order phase => exact h.elim
  | chcfg snr sp => exact h.elim
  | dmcfg order phase => exact h.elim

theorem exec_of_fails (h : Fails s i e m) : exec i s = .next (s.afterError e m) := by
  cases h with
  | notConfigured h => exact exec_unconfigured h
  | invalidConfiguration h => exact exec_of_badConfiguration h
  | invalidInput hu h => exact exec_of_badInput hu h
  | randomSource n syms zs a rest hu hi hg hl hf ha =>
    obtain ⟨cfg, hc⟩ := Option.ne_none_iff_exists'.mp hu
    obtain ⟨hn, hs⟩ := not_or.mp hi
    have hrest : s.gauss.drop (zs.length + 1) = rest := by simp [hg, List.drop_append]
    rw [awgnReportsTheSource s cfg n syms zs a rest hc (not_not.mp hn) (not_not.mp hs) hg hl hf ha,
      State.afterError, hrest]
    rfl

theorem exec_rsp_of_fails (hf : Fails s i e m) (h : exec i s = .next t) : t.rsp = s.rsp ++ [⟨e, []⟩] := by
  rw [exec_of_fails hf] at h
  cases h
  rfl

theorem exists_fails_of_badDraw (hu : ¬ Unconfigured s i) (hi : ¬ BadInput s i) (hd : BadDraw s i) :
    ∃ m, Fails s i .randomSource m := by
  cases i with
  | awgn n syms =>
    obtain ⟨zs, a, rest, hg, hl, hf, ha⟩ := hd
    exact ⟨_, .randomSource n syms zs a rest hu hi hg hl hf ha⟩
  | _ => exact hd.elim

/-! ## A command with none of the causes -/

theorem NoError.eq_ok (h : NoError s t) (hr : t.rsp = s.rsp ++ [⟨e, out⟩]) : e = .ok := by
  unfold NoError at h
  rw [hr] at h
  simpa using h

theorem runAwgn_noError {n : Nat} {syms : List Sym} (h : ¬ BadDraw s (.awgn n syms)) (cfg : ChCfg)
    (hn : syms.length = n) : NoError s (s.runAwgn ⟨cfg, syms, []⟩) := by
  subst hn
  rcases runAwgn_cases s ⟨cfg, syms, []⟩ with
    ⟨zs, rest, -, -, -, he⟩ | ⟨zs, a, rest, hg, hl, hf, ha, -⟩ | ⟨zs, -, -, -, he⟩
  · rw [he]
    exact .inr ⟨_, rfl⟩
  · exact absurd ⟨zs, a, rest, hg, hl, hf, ha⟩ h
  · rw [he]
    exact .inl rfl

theorem exec_noError (hu : ¬ Unconfigured s i) (hc : ¬ BadConfiguration s.params i) (hi : ¬ BadInput s i)
    (hd : ¬ BadDraw s i) : ∃ t, exec i s = .next t ∧ NoError s t := by
  cases i with
  | modcfg order phase =>
    exact ⟨_, exec_modcfg_of_legal (legalPsk_iff_not_badConfiguration.mpr hc), .inr ⟨_, rfl⟩⟩
  | chcfg snr sp =>
    exact ⟨_, exec_chcfg_of_legal (legalChannel_iff_not_badConfiguration.mpr hc), .inr ⟨_, rfl⟩⟩
  | dmcfg order phase =>
    exact ⟨_, exec_dmcfg_of_legal (legalPsk_iff_not_badConfiguration.mpr hc), .inr ⟨_, rfl⟩⟩
  | modulate n bits =>
    obtain ⟨cfg, hm⟩ := Option.ne_none_iff_exists'.mp hu
    obtain ⟨hn, hk⟩ := not_or.mp hi
    exact ⟨_, exec_modulate_of_valid hm (not_not.mp hn) (not_not.mp fun hk' => hk ⟨cfg, hm, hk'⟩), .inr ⟨_, rfl⟩⟩
  | awgn n syms =>
    obtain ⟨cfg, hch⟩ := Option.ne_none_iff_exists'.mp hu
    obtain ⟨hn, hs⟩ := not_or.mp hi
    exact ⟨_, exec_awgn_of_valid hch (not_not.mp hn) (not_not.mp hs), runAwgn_noError hd cfg (not_not.mp hn)⟩
  | demodulate n syms =>
    obtain ⟨cfg, hdm⟩ := Option.ne_none_iff_exists'.mp hu
    obtain ⟨hn, hs⟩ := not_or.mp hi
    exact ⟨_, exec_demodulate_of_valid hdm (not_not.mp hn) (not_not.mp hs), .inr ⟨_, rfl⟩⟩

/-- A command fails by one of the causes, or it answers no error. -/
theorem exec_fails_or_noError (h : exec i s = .next t) : (∃ e m, Fails s i e m) ∨ NoError s t := by
  by_cases hu : Unconfigured s i
  · exact .inl ⟨_, _, .notConfigured hu⟩
  by_cases hc : BadConfiguration s.params i
  · exact .inl ⟨_, _, .invalidConfiguration hc⟩
  by_cases hi : BadInput s i
  · exact .inl ⟨_, _, .invalidInput hu hi⟩
  by_cases hd : BadDraw s i
  · exact .inl ⟨_, exists_fails_of_badDraw hu hi hd⟩
  obtain ⟨u, hexec, hok⟩ := exec_noError hu hc hi hd
  cases h.symm.trans hexec
  exact .inr hok

/-- Every error is an entry of `Fails`. -/
theorem exec_error (h : exec i s = .next t) (hr : t.rsp = s.rsp ++ [⟨e, out⟩]) (he : e ≠ .ok) :
    out = [] ∧ ∃ m, Fails s i e m ∧ t = s.afterError e m := by
  rcases exec_fails_or_noError h with ⟨e', m, hf⟩ | hok
  · have hsame := (exec_rsp_of_fails hf h).symm.trans hr
    obtain ⟨rfl, rfl⟩ : e' = e ∧ [] = out := by simpa using hsame
    cases h.symm.trans (exec_of_fails hf)
    exact ⟨rfl, m, hf, rfl⟩
  · exact absurd (hok.eq_ok hr) he

theorem responds_iff_fails (he : e ≠ .ok) : Responds i s e ↔ ∃ m, Fails s i e m := by
  constructor
  · rintro ⟨t, out, h, hr⟩
    obtain ⟨-, m, hf, -⟩ := exec_error h hr he
    exact ⟨m, hf⟩
  · exact fun ⟨m, hf⟩ => ⟨_, [], exec_of_fails hf, rfl⟩

/-- Only an `AWGN` past its checks issues a draw (R146). -/
theorem checks_passed_of_draws (h : exec i s = .next t) (hne : t.drawn ≠ s.drawn ∨ t.gauss ≠ s.gauss) :
    ∃ n syms, i = .awgn n syms ∧ ¬ Unconfigured s (.awgn n syms) ∧ ¬ BadInput s (.awgn n syms) := by
  cases exec_ends h with
  | channel n syms cfg hc hn hf =>
    refine ⟨n, syms, rfl, fun hu => Option.some_ne_none cfg (hc.symm.trans hu), ?_⟩
    exact not_or.mpr ⟨not_not.mpr hn, not_not.mpr ((finitePayload_iff syms).mp hf)⟩
  | _ => simp at hne

end

/-! ## The statuses -/

/-- Settles O19: the six codes, and the layout of the word, which is the code below 24 zeros. -/
theorem statusCodes : Obligations.StatusCodes := by
  refine ⟨⟨rfl, rfl, rfl, rfl, rfl, rfl⟩, fun e => ?_, fun e => ?_⟩
  · cases e <;> decide
  · exact ⟨BitVec.extractLsb'_append_eq_right, BitVec.extractLsb'_append_eq_left⟩

/-- Settles O10: `Malformed` is what the decoder rejects, and no command of `Fails` has this status. -/
theorem illegalCommandCauses : Obligations.IllegalCommandCauses := by
  refine ⟨decode_error_iff_malformed, fun s c rest hw hi hm => ?_, fun i s h => ?_⟩
  · obtain ⟨e, hd⟩ := (decode_error_iff_malformed c).mpr hm
    exact (step_of_cmd hw hi).trans (runPacket_of_error hd)
  · obtain ⟨m, hf⟩ := (responds_iff_fails (e := .illegalCommand) nofun).mp h
    cases hf

/-- Settles O21: `Fails` has one entry for this status. -/
theorem invalidConfigurationCauses : Obligations.InvalidConfigurationCauses := by
  intro i s
  rw [responds_iff_fails (e := .invalidConfiguration) nofun]
  constructor
  · rintro ⟨m, hf⟩
    cases hf with
    | invalidConfiguration h => exact h
  · exact fun h => ⟨0, .invalidConfiguration h⟩

/-- Settles O22: `Fails` has one entry for this status. -/
theorem invalidInputCauses : Obligations.InvalidInputCauses := by
  intro i s
  rw [responds_iff_fails (e := .invalidInput) nofun]
  constructor
  · rintro ⟨m, hf⟩
    cases hf with
    | invalidInput hu h => exact ⟨hu, h⟩
  · exact fun ⟨hu, h⟩ => ⟨0, .invalidInput hu h⟩

/-- Settles O23: `Fails` has one entry for this status, and an error leaves the command in flight as it is
(`State.afterError`). -/
theorem randomSourceCauses : Obligations.RandomSourceCauses := by
  refine ⟨fun i s => ?_, fun i s t h hr => ?_⟩
  · rw [responds_iff_fails (e := .randomSource) nofun]
    constructor
    · rintro ⟨m, hf⟩
      cases hf with
      | randomSource n syms zs a rest hu hi hg hl hf ha => exact ⟨hu, hi, zs, a, rest, hg, hl, hf, ha⟩
    · exact fun ⟨hu, hi, hd⟩ => exists_fails_of_badDraw hu hi hd
  · obtain ⟨-, m, -, rfl⟩ := exec_error h hr nofun
    rfl

/-- Settles O24: `Fails` has one entry for this status. -/
theorem notConfiguredCause : Obligations.NotConfiguredCause := by
  intro i s
  rw [responds_iff_fails (e := .notConfigured) nofun]
  constructor
  · rintro ⟨m, hf⟩
    cases hf with
    | notConfigured h => exact h
  · exact fun h => ⟨0, .notConfigured h⟩

/-- Settles O25: a packet that decodes runs its command, whose first failing check is an entry of `Fails`; the causes
read nothing of the events still to come. -/
theorem firstFailingCheckIsReported : Obligations.FirstFailingCheckIsReported := by
  intro s t c rest hw hi h
  rw [step_of_cmd hw hi] at h
  cases hd : decode c with
  | error e =>
    rw [runPacket_of_error hd] at h
    cases h
    exact ⟨fun _ => rfl, nofun, nofun, nofun, nofun, fun hne => by simp at hne⟩
  | ok i =>
    rw [runPacket_of_ok hd] at h
    have reports {e : Status} {m : Nat} (hf : Fails { s with input := rest } i e m) :
        t.rsp = s.rsp ++ [⟨e, []⟩] := exec_rsp_of_fails (s := { s with input := rest }) hf h
    refine ⟨fun hm => ?_, ?_, ?_, ?_, ?_, fun hne => ?_⟩
    · obtain ⟨e, he⟩ := (decode_error_iff_malformed c).mpr hm
      cases hd.symm.trans he
    · rintro _ ⟨⟩ hu
      exact reports (.notConfigured hu)
    · rintro _ ⟨⟩ - hc
      exact reports (.invalidConfiguration hc)
    · rintro _ ⟨⟩ hu hb
      exact reports (.invalidInput hu hb)
    · rintro _ ⟨⟩ hu hb hdraw
      obtain ⟨m, hf⟩ := exists_fails_of_badDraw (s := { s with input := rest }) hu hb hdraw
      exact reports hf
    · obtain ⟨n, syms, rfl, hpassed⟩ := checks_passed_of_draws h hne
      exact ⟨n, syms, rfl, hpassed⟩

/-- Settles O26: the state is `State.afterError`, and only an `AWGN` that a draw ended had issued draws. -/
theorem errorsWriteNothing : Obligations.ErrorsWriteNothing := by
  intro i s t e out h hr he
  obtain ⟨rfl, m, hf, rfl⟩ := exec_error h hr he
  refine ⟨rfl, m, rfl, fun hne => ?_⟩
  cases hf with
  | randomSource => exact absurd rfl hne
  | _ => rfl

/-! ## Earlier responses -/

/-- The state with other responses in place of the first `n`. -/
def State.withEarlier (s : State) (earlier : List Rsp) (n : Nat) : State :=
  { s with rsp := earlier ++ s.rsp.drop n }

section
variable (s : State) (earlier : List Rsp)

theorem respond_withEarlier (e : Status) (out : List Item) :
    State.respond { s with rsp := earlier } e out = (s.respond e out).withEarlier earlier s.rsp.length := by
  simp [State.respond, State.withEarlier]

theorem next_respond_withEarlier (e : Status) (out : List Item) :
    .next (State.respond { s with rsp := earlier } e out) =
      mapNext (·.withEarlier earlier s.rsp.length) (.next (s.respond e out)) :=
  congrArg Host.Outcome.next (respond_withEarlier s earlier e out)

theorem runAwgn_withEarlier (w : Wait) :
    State.runAwgn { s with rsp := earlier } w = (s.runAwgn w).withEarlier earlier s.rsp.length := by
  unfold State.runAwgn
  dsimp only
  split
  · exact respond_withEarlier (s.consume _) earlier _ _
  · exact respond_withEarlier (s.consume _) earlier _ _
  · simp [State.withEarlier, State.consume]

/-- No command reads an earlier response: it takes the same branch and responds alike (R148). -/
theorem exec_withEarlier (i : Instr) :
    exec i { s with rsp := earlier } = mapNext (·.withEarlier earlier s.rsp.length) (exec i s) := by
  have same := next_respond_withEarlier s earlier
  cases i with
  | modcfg order phase =>
    simp only [exec, execModcfg]
    split
    · exact next_respond_withEarlier { s with mod := some (pskCfg order phase) } earlier _ _
    · exact same _ _
  | dmcfg order phase =>
    simp only [exec, execDmcfg]
    split
    · exact next_respond_withEarlier { s with dm := some (pskCfg order phase) } earlier _ _
    · exact same _ _
  | chcfg snr sp =>
    simp only [exec, execChcfg]
    split
    · exact next_respond_withEarlier { s with ch := some ⟨snr, powerOperand sp⟩ } earlier _ _
    · exact same _ _
  | modulate n bits =>
    simp only [exec, execModulate]
    split
    · exact same _ _
    · split <;> exact same _ _
  | awgn n syms =>
    simp only [exec, execAwgn, runAwgn_withEarlier]
    split
    · exact same _ _
    · split
      · rfl
      · exact same _ _
  | demodulate n syms =>
    simp only [exec, execDemodulate]
    split
    · exact same _ _
    · split <;> exact same _ _

end

/-- Settles O27: a command writes after the responses it finds, whichever they are, and one that has its response
leaves no `AWGN` in flight (`exec_answered_or_waits`). -/
theorem noErrorIsSticky : Obligations.NoErrorIsSticky := by
  refine ⟨fun i s t earlier h => ?_, fun i s t hw h hne => ?_⟩
  · rw [exec_withEarlier, h]
    rfl
  · obtain ⟨hwait, -⟩ | ⟨-, hrsp, -⟩ := exec_answered_or_waits hw h
    · exact hwait
    · exact absurd hrsp hne

/-! ## The idle block -/

/-- Settles O7: no `AWGN` waits and no event is next, so the step takes nothing. -/
theorem idleBlockKeepsItsState : Obligations.IdleBlockKeepsItsState := fun s hw hi => by
  simp only [step, stepReady, hw, hi]

end Sys2Proof.Machine
end

section
/-! Reset and hazards (`20_memory.md` R45; `42_channel.md` R104; `70_reset_and_hazards.md` R160 to R167): what a
reset clears and which draws it leaves consumed, the block stuck on a draw that is not answered, and the data
command that follows a configuration. -/

namespace Sys2Proof.Machine

/-! ## Reset between commands -/

/-- Settles O2: a reset is `State.resetBlock`, and of the two ways a step changes a register
(`registersChangeInTwoWays`) a configuration command leaves its unit configured. -/
theorem resetClearsEveryUnit : Obligations.ResetClearsEveryUnit := by
  refine ⟨fun s rest hi => step_of_rst hi, fun s t h hlost => ?_⟩
  obtain ⟨hm, hd, hc⟩ | ⟨hreset, -⟩ | ⟨c, rest, -, -, -, hwrite⟩ := registersChangeInTwoWays s t h
  · simp [hm, hd, hc] at hlost
  · exact hreset
  · obtain ⟨order, phase, -, hm, hd, hc⟩ | ⟨order, phase, -, hd, hm, hc⟩ | ⟨snr, sp, -, hc, hm, hd⟩ := hwrite <;>
      simp [hm, hd, hc] at hlost

/-! ## Reset during a command -/

section
variable {s : State} {c : Cmd} {n : Nat}

/-- `run` consumes a prefix of the answers by `n` draws: no more than there are, and fewer than `n` only up to the
first that fails or to the last (R104, R143, R167). -/
structure ConsumesPrefix (n : Nat) (answers : List Answer) (run : DrawRun) : Prop where
  rest : run.rest = answers.drop run.used
  le_draws : run.used ≤ n
  le_answers : run.used ≤ answers.length
  good_before : ∀ k, k + 1 < run.used → ¬ (answers.getD k .unavailable).Fails
  stops : run.used < n →
    run.used = answers.length ∨ (0 < run.used ∧ (answers.getD (run.used - 1) .unavailable).Fails)

theorem not_fails_getD_values {zs : List F64} (hf : ∀ z ∈ zs, isFinite z = true) (rest : List Answer) {k : Nat}
    (hk : k < zs.length) : ¬ ((zs.map Answer.value ++ rest).getD k .unavailable).Fails := by
  have hz : isFinite zs[k] = true := hf _ (List.getElem_mem hk)
  simp [hk, List.getElem?_append_left, Answer.Fails, hz]

theorem takeDraws_consumesPrefix (n : Nat) (answers : List Answer) :
    ConsumesPrefix n answers (takeDraws n answers) := by
  rcases answers_cases n answers with
    ⟨zs, rest, rfl, rfl, hf⟩ | ⟨zs, a, rest, rfl, hl, hf, ha⟩ | ⟨zs, rfl, hl, hf⟩
  · rw [takeDraws_complete rest rfl hf]
    exact ⟨by simp, le_rfl, by simp, fun k hk => not_fails_getD_values hf rest (Nat.lt_of_succ_lt hk),
      fun h => absurd h (lt_irrefl _)⟩
  · rw [takeDraws_failed rest hl hf ha]
    exact ⟨by simp [List.drop_append], hl, by simp,
      fun k hk => not_fails_getD_values hf _ (Nat.lt_of_succ_lt_succ hk),
      fun _ => .inr ⟨Nat.succ_pos _, by simpa using ha⟩⟩
  · rw [takeDraws_unanswered hl hf]
    exact ⟨by simp, hl.le, by simp,
      fun k hk => by simpa using not_fails_getD_values hf [] (Nat.lt_of_succ_lt hk), fun _ => .inl (by simp)⟩

/-- The packet `c`, executed in `s`, issues no draw: it is no `AWGN`, or one that fails a check (R146). -/
def IssuesNoDraw (s : State) (c : Cmd) : Prop :=
  ∀ i, decode c = .ok i → (∀ n y, i ≠ .awgn n y) ∨ Unconfigured s i ∨ BadInput s i

theorem not_issuesNoDraw_iff : ¬ IssuesNoDraw s c ↔
    ∃ n y, decode c = .ok (.awgn n y) ∧ ¬ Unconfigured s (.awgn n y) ∧ ¬ BadInput s (.awgn n y) := by
  unfold IssuesNoDraw
  push Not
  constructor
  · rintro ⟨i, hd, ⟨n, y, rfl⟩, hu, hb⟩
    exact ⟨n, y, hd, hu, hb⟩
  · rintro ⟨n, y, hd, hu, hb⟩
    exact ⟨_, hd, ⟨n, y, rfl⟩, hu, hb⟩

theorem drawsBefore_of_awgn {y : List Sym} (hd : decode c = .ok (.awgn n y)) (hu : ¬ Unconfigured s (.awgn n y))
    (hb : ¬ BadInput s (.awgn n y)) (answered : Nat) :
    drawsBefore c answered s = takeDraws (min answered (2 * n)) s.gauss := by
  obtain ⟨cfg, hc⟩ := Option.ne_none_iff_exists'.mp hu
  obtain ⟨hn, hf⟩ := not_or.mp hb
  obtain rfl := not_not.mp hn
  simp [drawsBefore, hd, hc, (finitePayload_iff y).mpr (not_not.mp hf)]

theorem drawsBefore_of_issuesNoDraw (h : IssuesNoDraw s c) (answered : Nat) :
    drawsBefore c answered s = ⟨.complete, [], s.gauss, 0⟩ := by
  unfold drawsBefore
  split
  next n y cfg hd hc =>
    refine if_neg fun ⟨hn, hf⟩ => ?_
    obtain hne | hu | hlen | hinf := h _ hd
    · exact hne n y rfl
    · exact Option.some_ne_none cfg (hc.symm.trans hu)
    · exact hlen hn
    · exact hinf ((finitePayload_iff y).mp hf)
  next => rfl

theorem drawsBefore_rest (s : State) (c : Cmd) (answered : Nat) :
    (drawsBefore c answered s).rest = s.gauss.drop (drawsBefore c answered s).used := by
  by_cases h : IssuesNoDraw s c
  · rw [drawsBefore_of_issuesNoDraw h, List.drop_zero]
  · obtain ⟨n, y, hd, hu, hb⟩ := not_issuesNoDraw_iff.mp h
    rw [drawsBefore_of_awgn hd hu hb]
    exact (takeDraws_consumesPrefix _ _).rest

end

/-- Settles O3: a reset on a waiting `AWGN` is that of O2, with the mark of a command cut off; a reset while a
command executes is `abandon`, whose draws are those of `drawsBefore`. -/
theorem resetAbandonsTheCommand : Obligations.ResetAbandonsTheCommand := by
  refine ⟨fun s w rest hw hi => ?waiting, fun s c answered rest hw hi => ?executing⟩
  case waiting =>
    rw [resetClearsEveryUnit.1 s rest hi, lastUnanswered_of_wait (by simp [hw])]
  case executing =>
    refine ⟨(drawsBefore c answered s).used, ?_, fun hno => ?_, fun n y hd hu hb => ?_⟩
    · rw [step_of_rstDuring hw hi, ← drawsBefore_rest]
      rfl
    · rw [drawsBefore_of_issuesNoDraw hno]
    · rw [drawsBefore_of_awgn hd hu hb]
      obtain ⟨-, hdraws, hanswers, hgood, hstops⟩ := takeDraws_consumesPrefix (min answered (2 * n)) s.gauss
      exact ⟨hdraws, hanswers, hgood, hstops⟩

/-! ## A draw that is not answered -/

/-- With no answer an `AWGN` that lacks draws waits on as it did (R167). -/
theorem runAwgn_of_no_answer {s : State} {w : Wait} (hw : s.wait = some w) (hl : w.zs.length < 2 * w.syms.length)
    (hg : s.gauss = []) : State.runAwgn { s with wait := none } w = s := by
  rw [runAwgn_unanswered (s := { s with wait := none }) (zs := []) hg (Nat.sub_pos_of_lt hl) (by simp)]
  simp [← hw, ← hg]

/-- Settles O49: past its checks the command is `runAwgn` with no draw held, and it meets too few answers
(`runAwgn_unanswered`); the step that asks again meets none. -/
theorem unansweredDrawLeavesTheBlockStuck : Obligations.UnansweredDrawLeavesTheBlockStuck := by
  refine ⟨?_, fun s w hw hl hg hi => ?_⟩
  · rintro s cfg n syms zs hc rfl hs hg hl hf
    rw [exec_awgn_of_valid hc rfl hs, runAwgn_unanswered (w := ⟨cfg, syms, []⟩) hg hl hf, List.nil_append]
  · rw [step_of_waiting hw hi, runAwgn_of_no_answer hw hl hg]

/-! ## The command after a configuration -/

section
variable {s : State}

theorem responds_ok_modulate_empty {cfg : PskCfg} (hm : s.mod = some cfg) : Responds (.modulate 0 []) s .ok :=
  ⟨_, _, exec_modulate_of_valid hm rfl (Nat.zero_mod _), rfl⟩

theorem responds_ok_demodulate_empty {cfg : PskCfg} (hd : s.dm = some cfg) : Responds (.demodulate 0 []) s .ok :=
  ⟨_, _, exec_demodulate_of_valid hd rfl (by simp [FiniteSyms]), rfl⟩

/-- An `AWGN` with no symbol issues no draw, so the source need not answer (R104). -/
theorem responds_ok_awgn_empty {cfg : ChCfg} (hc : s.ch = some cfg) : Responds (.awgn 0 []) s .ok := by
  have hexec := exec_awgn_of_valid (n := 0) (syms := []) hc rfl (by simp [FiniteSyms])
  rw [runAwgn_complete (zs := []) (rest := s.gauss) rfl rfl (by simp)] at hexec
  exact ⟨_, _, hexec, rfl⟩

theorem unconfigured_raise_iff (e : Status) (d : Instr) : Unconfigured (s.raise e) d ↔ Unconfigured s d := by
  cases d <;> rfl

theorem responds_notConfigured_of_unconfigured {d : Instr} (h : Unconfigured s d) : Responds d s .notConfigured :=
  ⟨_, [], exec_unconfigured h, rfl⟩

end

/-- Settles O8: legal operands load the unit's register, which is all its data command asks on an empty payload;
others raise, and a raise leaves an unconfigured unit unconfigured. -/
theorem configurationTakesEffectAtOnce : Obligations.ConfigurationTakesEffectAtOnce := by
  refine fun s i d hpair => ⟨fun hlegal => ?_, fun hbad hu => ?_⟩
  · obtain ⟨⟨order, phase, rfl⟩, rfl⟩ | ⟨⟨snr, sp, rfl⟩, rfl⟩ | ⟨⟨order, phase, rfl⟩, rfl⟩ := hpair
    · exact ⟨_, exec_modcfg_of_legal (legalPsk_iff_not_badConfiguration.mpr hlegal), rfl,
        responds_ok_modulate_empty rfl⟩
    · exact ⟨_, exec_chcfg_of_legal (legalChannel_iff_not_badConfiguration.mpr hlegal), rfl,
        responds_ok_awgn_empty rfl⟩
    · exact ⟨_, exec_dmcfg_of_legal (legalPsk_iff_not_badConfiguration.mpr hlegal), rfl,
        responds_ok_demodulate_empty rfl⟩
  · exact ⟨_, exec_of_badConfiguration hbad, rfl,
      responds_notConfigured_of_unconfigured ((unconfigured_raise_iff _ d).mpr hu)⟩

end Sys2Proof.Machine
end

section
/-! The packets written out in the spec (`95_test_vectors.md` V-EN1, V-MD3, P4). -/

namespace Sys2Proof

/-- Settles O14: each header is its command's opcode plus 256 times the argument, and the operand words and the
payload are the command's own, which is all `decode_eq_ok_iff_toNat` asks. -/
theorem specWordsDecode : Obligations.SpecWordsDecode := by
  refine ⟨?modcfg, ?modcfgWidest, ?modulate, ?chcfgPower, ?chcfg, ?awgn, ?dmcfg, ?demodulate⟩ <;>
    exact decode_eq_ok_iff_toNat.mpr ⟨rfl, rfl, rfl⟩

end Sys2Proof
end
